-- ==== Sys2Proof/Word.lean ====
section
/-! DEFINITION. The word types of the machine (`00_scope.md` R7: bit 0 is the least significant bit). -/

namespace Sys2Proof

/-- A byte of memory or of an instruction (R33, R50). -/
abbrev Byte := BitVec 8

/-- A linear address, an effective address, an instruction pointer or a general register: 64 bits (R25, R27, R33). In `M32`
the high 32 bits of an address are 0. -/
abbrev Word := BitVec 64

/-- One 16-bit lane of an operand (the spec's "lane", `00_scope.md` section 6). -/
abbrev Lane := BitVec 16

/-- Storage of one vector register: the widest `MAXVL` the spec admits (R4, R20). -/
abbrev VReg := BitVec 512

end Sys2Proof
end

