-- ==== Sys2Proof/Machine/Lanes.lean ====
section
/-! DEFINITION. The arithmetic of one lane and its packing (`40_pmulhrsw_legacy.md` R140, R144; `42_vpmulhrsw_evex.md` R170). -/

namespace Sys2Proof.Machine

/-- The lane function (R140): bits 16:1 of `(p >> 14) + 1`, `p` the exact signed product held as 32 bits. The shift is
logical, one of the two kinds R143 admits. -/
def mulhrs16 (a b : Lane) : Lane :=
  let p32 := BitVec.ofInt 32 (a.toInt * b.toInt)
  let t := (p32 >>> 14) + 1#32
  t.extractLsb' 1 16

/-- Lane `j` of an operand: bits `16j+15 : 16j` (R144, and "lane" of `00_scope.md` section 6). -/
def lane {w : Nat} (x : BitVec w) (j : Nat) : Lane :=
  x.extractLsb' (16 * j) 16

/-- The value of `w` bits whose lanes 0 to `n - 1` are `f 0` to `f (n - 1)` and whose other bits are 0. -/
def packLanes (w : Nat) (f : Nat → Lane) : Nat → BitVec w
  | 0 => 0
  | n + 1 => packLanes w f n ||| (f n).setWidth w <<< (16 * n)

/-- The packed function (R144). -/
def pmulhrs {w : Nat} (n : Nat) (x y : BitVec w) : BitVec w :=
  packLanes w (fun j => mulhrs16 (lane x j) (lane y j)) n

end Sys2Proof.Machine
end

