-- ==== Sys2Proof/Syntax.lean ====
section
/-! DEFINITION. The seven forms as abstract syntax (`30_encoding.md` R80, R81): register numbers, addressing form,
displacement as encoded, prefixes that matter, writemask. What no form reads (`W` of VEX and EVEX, the order of the prefixes, an
`X` or `B` bit that names no register, the scale of an absent index) is not kept; the length of the instruction is
determined by what is kept (log 21). -/

namespace Sys2Proof

/-- The operating mode (R3, R6). `m64` and `m32` are the two modes of the spec; the others are refused (D2). -/
inductive Mode where
  | m64
  | m32
  | realAddress
  | virtual8086
  | protected16
  | systemManagement
  deriving DecidableEq, Repr

/-- The six segment registers (R26). -/
inductive Seg where
  | es
  | cs
  | ss
  | ds
  | fs
  | gs
  deriving DecidableEq, Repr

/-- The optional prefixes of every form (R84, R94, R100): one segment override, one 67H. -/
structure Prefixes where
  seg : Option Seg
  addrSize : Bool
  deriving DecidableEq, Repr

/-- Displacement with 32- or 64-bit addressing, as encoded (R88): `mod` 00, 01, 10. -/
inductive Disp where
  | none
  | disp8 (d : BitVec 8)
  | disp32 (d : BitVec 32)
  deriving DecidableEq, Repr

/-- Displacement with 16-bit addressing, as encoded (R88). -/
inductive Disp16 where
  | none
  | disp8 (d : BitVec 8)
  | disp16 (d : BitVec 16)
  deriving DecidableEq, Repr

/-- The eight base sums of 16-bit addressing, in the order of `rm` (R90). -/
inductive Base16 where
  | bxsi
  | bxdi
  | bpsi
  | bpdi
  | si
  | di
  | bp
  | bx
  deriving DecidableEq, Repr

/-- The memory operand's addressing form (R86 to R90). A general register is its 4-bit number (R25). -/
inductive MemAddr where
  /-- No SIB byte: a base register and a displacement. -/
  | base (b : BitVec 4) (d : Disp)
  /-- `mod = 00`, `rm = 101`: RIP-relative in `M64`, absolute in `M32`. -/
  | dispOnly (d : BitVec 32)
  /-- SIB byte with a base; the index, if any, with its scale field. -/
  | sib (b : BitVec 4) (index : Option (BitVec 4 × BitVec 2)) (d : Disp)
  /-- SIB byte with `base = 101`, `mod = 00`: no base register. -/
  | sibNoBase (index : Option (BitVec 4 × BitVec 2)) (d : BitVec 32)
  /-- 16-bit addressing. -/
  | base16 (b : Base16) (d : Disp16)
  /-- 16-bit addressing, `mod = 00`, `rm = 110`: displacement only. -/
  | dispOnly16 (d : BitVec 16)
  deriving DecidableEq, Repr

/-- The r/m operand (R86): a register, whose number has `n` bits, or memory. -/
inductive Rm (n : Nat) where
  | reg (r : BitVec n)
  | mem (a : MemAddr)
  deriving DecidableEq, Repr

/-- The writemask operand of forms 5 to 7 (R103, R105): `aaa` and `z`. `aaa = 000` with `z = 1` has no term. -/
inductive Masking where
  /-- `aaa = 000`, `z = 0`: "no writemask". -/
  | noMask
  | merging (k : BitVec 3)
  | zeroing (k : BitVec 3)
  deriving DecidableEq, Repr

/-- The instructions, one constructor for each row of `spec/opcode_table.json` (R80). A vector register is its 5-bit number
(R103), an MMX register its 3-bit number (R92). `rex` says that a REX byte is present (R85). -/
inductive Instr where
  /-- Form 1, `NP 0F 38 0B /r`, `PMULHRSW mm1, mm2/m64`. -/
  | pmulhrswMm (p : Prefixes) (rex : Bool) (dst : BitVec 3) (src : Rm 3)
  /-- Form 2, `66 0F 38 0B /r`, `PMULHRSW xmm1, xmm2/m128`. -/
  | pmulhrswXmm (p : Prefixes) (rex : Bool) (dst : BitVec 5) (src : Rm 5)
  /-- Form 3, `VEX.NDS.128.66.0F38.WIG 0B /r`, `VPMULHRSW xmm1, xmm2, xmm3/m128`. -/
  | vpmulhrswXmm (p : Prefixes) (dst src1 : BitVec 5) (src2 : Rm 5)
  /-- Form 4, `VEX.NDS.256.66.0F38.WIG 0B /r`, `VPMULHRSW ymm1, ymm2, ymm3/m256`. -/
  | vpmulhrswYmm (p : Prefixes) (dst src1 : BitVec 5) (src2 : Rm 5)
  /-- Form 5, `EVEX.NDS.128.66.0F38.WIG 0B /r`, `VPMULHRSW xmm1 k1 z, xmm2, xmm3/m128`. -/
  | vpmulhrswXmmMasked (p : Prefixes) (mask : Masking) (dst src1 : BitVec 5) (src2 : Rm 5)
  /-- Form 6, `EVEX.NDS.256.66.0F38.WIG 0B /r`, `VPMULHRSW ymm1 k1 z, ymm2, ymm3/m256`. -/
  | vpmulhrswYmmMasked (p : Prefixes) (mask : Masking) (dst src1 : BitVec 5) (src2 : Rm 5)
  /-- Form 7, `EVEX.NDS.512.66.0F38.WIG 0B /r`, `VPMULHRSW zmm1 k1 z, zmm2, zmm3/m512`. -/
  | vpmulhrswZmmMasked (p : Prefixes) (mask : Masking) (dst src1 : BitVec 5) (src2 : Rm 5)
  deriving DecidableEq, Repr

/-- Why bytes are refused (R2, R107, R108): the spec gives them no meaning. -/
inductive DecodeRefusal where
  /-- A legacy prefix of one kind twice (R84, R107 step 1). -/
  | repeatedPrefix
  /-- Two segment overrides, the same or not (R84, R107 step 1). -/
  | twoSegmentOverrides
  /-- F2H or F3H before `0F 38 0B` (R84, U3). -/
  | repeatBeforeLegacy
  /-- `REX.W = 1` on form 1 or 2 (R85, U7). -/
  | rexW
  /-- `REX.R = 1`, or `REX.B = 1` with a register operand, on form 1 (R92, U8). -/
  | rexOnMmxRegister
  /-- C4H with `mmmmm`, `pp` or opcode of another instruction (R95, R96, U9). -/
  | otherVex
  /-- The two-byte VEX prefix C5H (R95, U9). -/
  | twoByteVex
  /-- 62H with `mm`, `pp` or opcode of another instruction (R101, U11). -/
  | otherEvex
  /-- `M32`: C4H followed by a byte whose bits 7:6 are not 11, the LES instruction (R97, U15). -/
  | les
  /-- `M32`: 62H followed by a byte whose bits 7:6 are not 11, the BOUND instruction (R102, U15). -/
  | bound
  /-- `M32`: a register-extension bit that is not at its canonical value (R97, R102, U16). -/
  | extensionBitInM32
  /-- EVEX memory operand without a SIB byte and with `X` set (R103, U17). -/
  | evexIndexBitUnused
  /-- Any other byte sequence (R107 step 3d). -/
  | otherInstruction
  deriving DecidableEq, Repr

/-- Why decoding stops without an instruction (R107). -/
inductive DecodeStop where
  /-- The bytes raise #UD. -/
  | ud
  /-- The bytes have no meaning in the spec. -/
  | refuse (r : DecodeRefusal)
  /-- The bytes at hand end before the instruction does: the next byte must be fetched. -/
  | more
  deriving DecidableEq, Repr

/-- The seven forms by number (R80), for the tables of Machine/Forms.lean. -/
inductive Form where
  | f1
  | f2
  | f3
  | f4
  | f5
  | f6
  | f7
  deriving DecidableEq, Repr

/-- The form an instruction is an instance of. -/
def Instr.form : Instr → Form
  | .pmulhrswMm .. => .f1
  | .pmulhrswXmm .. => .f2
  | .vpmulhrswXmm .. => .f3
  | .vpmulhrswYmm .. => .f4
  | .vpmulhrswXmmMasked .. => .f5
  | .vpmulhrswYmmMasked .. => .f6
  | .vpmulhrswZmmMasked .. => .f7

end Sys2Proof
end

