-- ==== Sys2Proof/WellFormed.lean ====
section
/-! DEFINITION. Which instructions an encoding can express in a mode (`30_encoding.md` R83 to R106). One check a definition;
`Instr.wf` joins them. -/

namespace Sys2Proof

/-- The two modes the spec admits (R3, D2). -/
def Mode.admitted : Mode → Bool
  | .m64 => true
  | .m32 => true
  | _ => false

/-- A general register number an encoding can name: 0 to 7 in `M32` (R25). -/
def gprWf (m : Mode) (r : BitVec 4) : Bool :=
  m == .m64 || r.toNat < 8

/-- An index register: not register 4 (R87). -/
def indexWf (m : Mode) : Option (BitVec 4 × BitVec 2) → Bool
  | none => true
  | some (i, _) => gprWf m i && i != 4#4

/-- A base register without a SIB byte: `rm = 100` means SIB, and `rm = 101` with `mod = 00` means no base (R86, R89). -/
def baseWf (m : Mode) (b : BitVec 4) (d : Disp) : Bool :=
  gprWf m b && b.setWidth 3 != 4#3 && !(b.setWidth 3 == 5#3 && d == .none)

/-- A base register in a SIB byte: `base = 101` with `mod = 00` means no base (R87). -/
def sibBaseWf (m : Mode) (b : BitVec 4) (d : Disp) : Bool :=
  gprWf m b && !(b.setWidth 3 == 5#3 && d == .none)

/-- 16-bit addressing is that of `M32` with 67H; all other addressing is without it (R89, R90). -/
def uses16 (m : Mode) (p : Prefixes) : Bool :=
  m == .m32 && p.addrSize

/-- The addressing form fits the mode and the address size (R87 to R90). -/
def MemAddr.wf (m : Mode) (p : Prefixes) : MemAddr → Bool
  | .base b d => !uses16 m p && baseWf m b d
  | .dispOnly _ => !uses16 m p
  | .sib b i d => !uses16 m p && sibBaseWf m b d && indexWf m i
  | .sibNoBase i _ => !uses16 m p && indexWf m i
  | .base16 b d => uses16 m p && !(b == .bp && d == .none)
  | .dispOnly16 _ => uses16 m p

/-- A vector register number of the legacy and VEX encodings: 0 to 15, in `M32` 0 to 7 (R20, R93, R99). -/
def vecWf16 (m : Mode) (r : BitVec 5) : Bool :=
  if m == .m64 then r.toNat < 16 else r.toNat < 8

/-- A vector register number of the EVEX encoding: 0 to 31, in `M32` 0 to 7 (R20, R103). -/
def vecWf32 (m : Mode) (r : BitVec 5) : Bool :=
  m == .m64 || r.toNat < 8

/-- The r/m operand, given the check of its register numbers. -/
def Rm.wf {n : Nat} (m : Mode) (p : Prefixes) (regOk : BitVec n → Bool) : Rm n → Bool
  | .reg r => regOk r
  | .mem a => a.wf m p

/-- The writemask: `aaa = 000` is "no writemask", never a register (R24, R105). -/
def Masking.wf : Masking → Bool
  | .noMask => true
  | .merging k => k != 0#3
  | .zeroing k => k != 0#3

/-- The `X` bit an r/m operand needs (R85, R87, R103). -/
def MemAddr.bitX : MemAddr → Bool
  | .sib _ (some (i, _)) _ => i.getLsbD 3
  | .sibNoBase (some (i, _)) _ => i.getLsbD 3
  | _ => false

/-- The `B` bit a memory operand needs (R85, R87). -/
def MemAddr.bitB : MemAddr → Bool
  | .base b _ => b.getLsbD 3
  | .sib b _ _ => b.getLsbD 3
  | _ => false

/-- The `X` bit of an r/m operand: bit 4 of a register number (R103), bit 3 of an index. -/
def Rm.bitX {n : Nat} : Rm n → Bool
  | .reg r => r.getLsbD 4
  | .mem a => a.bitX

/-- The `B` bit of an r/m operand: bit 3 of a register number, of a base. -/
def Rm.bitB {n : Nat} : Rm n → Bool
  | .reg r => r.getLsbD 3
  | .mem a => a.bitB

/-- A REX byte exists in `M64` only, and is there when a bit of it is needed (R85). -/
def rexWf (m : Mode) (rex needed : Bool) : Bool :=
  (rex || !needed) && (m == .m64 || !rex)

/-- Forms 3 and 4 (R94, R97, R99). -/
def vexWf (m : Mode) (p : Prefixes) (dst src1 : BitVec 5) (src2 : Rm 5) : Bool :=
  vecWf16 m dst && vecWf16 m src1 && src2.wf m p (vecWf16 m)

/-- Forms 5 to 7 (R100, R102, R103, R105). -/
def evexWf (m : Mode) (p : Prefixes) (mask : Masking) (dst src1 : BitVec 5) (src2 : Rm 5) : Bool :=
  mask.wf && vecWf32 m dst && vecWf32 m src1 && src2.wf m p (vecWf32 m)

/-- The instruction has an encoding in the mode. -/
def Instr.wf (m : Mode) : Instr → Bool
  | .pmulhrswMm p rex _ src => m.admitted && rexWf m rex (src.bitX || src.bitB) && src.wf m p (fun _ => true)
  | .pmulhrswXmm p rex dst src =>
    m.admitted && rexWf m rex (dst.getLsbD 3 || src.bitX || src.bitB) && vecWf16 m dst && src.wf m p (vecWf16 m)
  | .vpmulhrswXmm p dst src1 src2 => m.admitted && vexWf m p dst src1 src2
  | .vpmulhrswYmm p dst src1 src2 => m.admitted && vexWf m p dst src1 src2
  | .vpmulhrswXmmMasked p mask dst src1 src2 => m.admitted && evexWf m p mask dst src1 src2
  | .vpmulhrswYmmMasked p mask dst src1 src2 => m.admitted && evexWf m p mask dst src1 src2
  | .vpmulhrswZmmMasked p mask dst src1 src2 => m.admitted && evexWf m p mask dst src1 src2

end Sys2Proof
end

