-- ==== Sys2Proof/Decode.lean ====
section
/-! DEFINITION. The decoding procedure of `30_encoding.md` R107, total on any byte string, and after it the encoder, written from
the same rules. Decoding reads the bytes one at a time from the front of a list; `.more` says that the list ended too
early. -/

namespace Sys2Proof

/-! ### Bytes and fields -/

/-- The first of the bytes still to be read, and the rest. -/
def nextByte : List Byte → Except DecodeStop (Byte × List Byte)
  | [] => .error .more
  | b :: bs => .ok (b, bs)

/-- The next byte must be `b`; another byte is refused as `r`. -/
def expectByte (b : Byte) (r : DecodeRefusal) (bs : List Byte) : Except DecodeStop (Unit × List Byte) := do
  let (x, bs) ← nextByte bs
  if x = b then .ok ((), bs) else .error (.refuse r)

/-- Two bytes, least significant first (R50, R88). -/
def nextLe16 (bs : List Byte) : Except DecodeStop (BitVec 16 × List Byte) := do
  let (b0, bs) ← nextByte bs
  let (b1, bs) ← nextByte bs
  .ok (b1 ++ b0, bs)

/-- Four bytes, least significant first (R50, R88). -/
def nextLe32 (bs : List Byte) : Except DecodeStop (BitVec 32 × List Byte) := do
  let (lo, bs) ← nextLe16 bs
  let (hi, bs) ← nextLe16 bs
  .ok (hi ++ lo, bs)

/-- A 3-bit register field extended by one bit (R85, R87, R93). -/
def extend4 (x : Bool) (r : BitVec 3) : BitVec 4 :=
  BitVec.ofBool x ++ r

/-- A 3-bit register field extended by two bits, the first the more significant (R103). -/
def extend5 (x b : Bool) (r : BitVec 3) : BitVec 5 :=
  BitVec.ofBool x ++ extend4 b r

/-! ### Legacy prefixes and REX (R84, R85) -/

/-- The segment a segment-override prefix byte names (R84). -/
def segOfByte (b : Byte) : Option Seg :=
  if b = 0x26#8 then some .es
  else if b = 0x2E#8 then some .cs
  else if b = 0x36#8 then some .ss
  else if b = 0x3E#8 then some .ds
  else if b = 0x64#8 then some .fs
  else if b = 0x65#8 then some .gs
  else none

/-- The legacy prefixes seen so far (R107 step 1). -/
structure PrefixesSeen where
  seg : Option Seg := none
  opSize : Bool := false
  addrSize : Bool := false
  lock : Bool := false
  repne : Bool := false
  rep : Bool := false
  deriving DecidableEq, Repr

/-- Notes one byte: `none` if it is no legacy prefix; refused if its kind was seen before (R107 step 1). -/
def notePrefix (p : PrefixesSeen) (b : Byte) : Option (Except DecodeRefusal PrefixesSeen) :=
  match segOfByte b with
  | some s => some (if p.seg.isSome then .error .twoSegmentOverrides else .ok { p with seg := some s })
  | none =>
    if b = 0x66#8 then some (if p.opSize then .error .repeatedPrefix else .ok { p with opSize := true })
    else if b = 0x67#8 then some (if p.addrSize then .error .repeatedPrefix else .ok { p with addrSize := true })
    else if b = 0xF0#8 then some (if p.lock then .error .repeatedPrefix else .ok { p with lock := true })
    else if b = 0xF2#8 then some (if p.repne then .error .repeatedPrefix else .ok { p with repne := true })
    else if b = 0xF3#8 then some (if p.rep then .error .repeatedPrefix else .ok { p with rep := true })
    else none

/-- R107 step 1. -/
def readPrefixes (p : PrefixesSeen) : List Byte → Except DecodeStop (PrefixesSeen × List Byte)
  | [] => .error .more
  | b :: bs =>
    match notePrefix p b with
    | none => .ok (p, b :: bs)
    | some (.error r) => .error (.refuse r)
    | some (.ok p') => readPrefixes p' bs

/-- What the instruction keeps of its prefixes. -/
def PrefixesSeen.kept (p : PrefixesSeen) : Prefixes :=
  { seg := p.seg, addrSize := p.addrSize }

/-- 66H, F2H, F3H or F0H was seen: not allowed before VEX and EVEX (R98). -/
def PrefixesSeen.badBeforeVex (p : PrefixesSeen) : Bool :=
  p.opSize || p.repne || p.rep || p.lock

/-- R107 step 2: in `M64` a byte 40H to 4FH here is REX (R85). -/
def readRex (m : Mode) : List Byte → Option Byte × List Byte
  | [] => (none, [])
  | b :: bs => if m = .m64 ∧ b.extractLsb' 4 4 = 4#4 then (some b, bs) else (none, b :: bs)

/-! ### ModRM, SIB, displacement (R86 to R88, R90) -/

/-- The displacement that `mod` calls for, with 32- or 64-bit addressing (R88). -/
def readDisp (md : BitVec 2) (bs : List Byte) : Except DecodeStop (Disp × List Byte) :=
  if md = 1#2 then do
    let (d, bs) ← nextByte bs
    .ok (.disp8 d, bs)
  else if md = 2#2 then do
    let (d, bs) ← nextLe32 bs
    .ok (.disp32 d, bs)
  else .ok (.none, bs)

/-- The displacement that `mod` calls for, with 16-bit addressing (R88). -/
def readDisp16 (md : BitVec 2) (bs : List Byte) : Except DecodeStop (Disp16 × List Byte) :=
  if md = 1#2 then do
    let (d, bs) ← nextByte bs
    .ok (.disp8 d, bs)
  else if md = 2#2 then do
    let (d, bs) ← nextLe16 bs
    .ok (.disp16 d, bs)
  else .ok (.none, bs)

/-- The index of a SIB byte: register 4 means none (R87). -/
def sibIndex (x : Bool) (sib : Byte) : Option (BitVec 4 × BitVec 2) :=
  let i := extend4 x (sib.extractLsb' 3 3)
  if i = 4#4 then none else some (i, sib.extractLsb' 6 2)

/-- A memory operand with 32- or 64-bit addressing, after ModRM (R87 to R89). -/
def readMem (x b : Bool) (md : BitVec 2) (rm : BitVec 3) (bs : List Byte) : Except DecodeStop (MemAddr × List Byte) :=
  if rm = 4#3 then do
    let (s, bs) ← nextByte bs
    if s.extractLsb' 0 3 = 5#3 ∧ md = 0#2 then do
      let (d, bs) ← nextLe32 bs
      .ok (.sibNoBase (sibIndex x s) d, bs)
    else do
      let (d, bs) ← readDisp md bs
      .ok (.sib (extend4 b (s.extractLsb' 0 3)) (sibIndex x s) d, bs)
  else if rm = 5#3 ∧ md = 0#2 then do
    let (d, bs) ← nextLe32 bs
    .ok (.dispOnly d, bs)
  else do
    let (d, bs) ← readDisp md bs
    .ok (.base (extend4 b rm) d, bs)

/-- The base sum that `rm` names with 16-bit addressing (R90). -/
def base16OfRm (rm : BitVec 3) : Base16 :=
  if rm = 0#3 then .bxsi
  else if rm = 1#3 then .bxdi
  else if rm = 2#3 then .bpsi
  else if rm = 3#3 then .bpdi
  else if rm = 4#3 then .si
  else if rm = 5#3 then .di
  else if rm = 6#3 then .bp
  else .bx

/-- A memory operand with 16-bit addressing, after ModRM (R88, R90). -/
def readMem16 (md : BitVec 2) (rm : BitVec 3) (bs : List Byte) : Except DecodeStop (MemAddr × List Byte) :=
  if rm = 6#3 ∧ md = 0#2 then do
    let (d, bs) ← nextLe16 bs
    .ok (.dispOnly16 d, bs)
  else do
    let (d, bs) ← readDisp16 md bs
    .ok (.base16 (base16OfRm rm) d, bs)

/-- R107 step 4: ModRM with its SIB byte and displacement; `x` and `b` extend index and base. The answer is the `reg`
field and the r/m operand with its bare 3-bit register field. -/
def readModRm (m : Mode) (p : Prefixes) (x b : Bool) (bs : List Byte) : Except DecodeStop ((BitVec 3 × Rm 3) × List Byte) := do
  let (o, bs) ← nextByte bs
  let md := o.extractLsb' 6 2
  let reg := o.extractLsb' 3 3
  let rm := o.extractLsb' 0 3
  if md = 3#2 then .ok ((reg, .reg rm), bs)
  else if uses16 m p then do
    let (a, bs) ← readMem16 md rm bs
    .ok ((reg, .mem a), bs)
  else do
    let (a, bs) ← readMem x b md rm bs
    .ok ((reg, .mem a), bs)

/-- The r/m operand with its vector register number `x ++ b ++ rm` (R93, R99, R103). -/
def extendRm (x b : Bool) : Rm 3 → Rm 5
  | .reg r => .reg (extend5 x b r)
  | .mem a => .mem a

/-- The r/m operand is a register. -/
def Rm.isReg {n : Nat} : Rm n → Bool
  | .reg _ => true
  | .mem _ => false

/-- The r/m operand is a memory operand without a SIB byte (R103). -/
def Rm.isMemNoSib {n : Nat} : Rm n → Bool
  | .reg _ => false
  | .mem (.sib ..) => false
  | .mem (.sibNoBase ..) => false
  | .mem _ => true

/-! ### The three encodings -/

/-- R107 step 3a, after the byte 0FH: forms 1 and 2 (R83 to R85, R92, R93). R107 gives the refusal of REX.R, and of REX.B with
a register operand, on form 1 no place: here it comes last, once ModRM, SIB and displacement have been read (DESIGN CHOICE,
log 27). -/
def decodeLegacy (m : Mode) (p : PrefixesSeen) (rex : Option Byte) (bs : List Byte) : Except DecodeStop (Instr × List Byte) := do
  let ((), bs) ← expectByte 0x38#8 .otherInstruction bs
  let ((), bs) ← expectByte 0x0B#8 .otherInstruction bs
  let bits := rex.getD 0x40#8
  let r := bits.getLsbD 2
  let x := bits.getLsbD 1
  let b := bits.getLsbD 0
  if p.lock then .error .ud
  else if p.repne || p.rep then .error (.refuse .repeatBeforeLegacy)
  else if bits.getLsbD 3 then .error (.refuse .rexW)
  else do
    let ((reg, rm), bs) ← readModRm m p.kept x b bs
    if p.opSize then .ok (.pmulhrswXmm p.kept rex.isSome (extend5 false r reg) (extendRm false b rm), bs)
    else if r || (b && rm.isReg) then .error (.refuse .rexOnMmxRegister)
    else .ok (.pmulhrswMm p.kept rex.isSome reg rm, bs)

/-- In `M32` the byte after C4H or 62H must have bits 7:6 = 11, otherwise the bytes are another instruction (R97, R102). -/
def vexByteInM32 (m : Mode) (other : DecodeRefusal) (bs : List Byte) : Except DecodeStop Unit :=
  if m = .m32 then
    match bs with
    | [] => .error .more
    | b1 :: _ => if b1.extractLsb' 6 2 = 3#2 then .ok () else .error (.refuse other)
  else .ok ()

/-- R107 steps 3b and 3c, before the payload is read: no 66H, F2H, F3H, F0H or REX may have been seen (R98). -/
def vexIntro (m : Mode) (other : DecodeRefusal) (p : PrefixesSeen) (rex : Option Byte) (bs : List Byte) :
    Except DecodeStop Unit := do
  vexByteInM32 m other bs
  if p.badBeforeVex || rex.isSome then .error .ud else .ok ()

/-- R107 step 3b, after the byte C4H: forms 3 and 4 (R94 to R97, R99). -/
def decodeVex (m : Mode) (p : PrefixesSeen) (rex : Option Byte) (bs : List Byte) : Except DecodeStop (Instr × List Byte) := do
  vexIntro m .les p rex bs
  let (b1, bs) ← nextByte bs
  let (b2, bs) ← nextByte bs
  let (op, bs) ← nextByte bs
  if ¬(b1.extractLsb' 0 5 = 2#5 ∧ b2.extractLsb' 0 2 = 1#2 ∧ op = 0x0B#8) then .error (.refuse .otherVex)
  else if m = .m32 ∧ ¬(b1.getLsbD 5 ∧ b2.getLsbD 6) then .error (.refuse .extensionBitInM32)
  else do
    let r := !b1.getLsbD 7
    let x := !b1.getLsbD 6
    let b := !b1.getLsbD 5
    let src1 := (~~~(b2.extractLsb' 3 4)).setWidth 5
    let ((reg, rm), bs) ← readModRm m p.kept x b bs
    let dst := extend5 false r reg
    let src2 := extendRm false b rm
    if b2.getLsbD 2 then .ok (.vpmulhrswYmm p.kept dst src1 src2, bs)
    else .ok (.vpmulhrswXmm p.kept dst src1 src2, bs)

/-- The writemask of the fields `aaa` and `z` (R103, R105). -/
def maskingOf (aaa : BitVec 3) (z : Bool) : Masking :=
  if aaa = 0#3 then .noMask else if z then .zeroing aaa else .merging aaa

/-- The checks of R101 and R102 on the payload, in their order, once the opcode byte is 0BH. -/
def evexChecks (m : Mode) (p0 p1 p2 : Byte) : Except DecodeStop Unit :=
  if p0.extractLsb' 2 2 ≠ 0#2 ∨ p1.getLsbD 2 = false ∨ p0.extractLsb' 0 2 = 0#2 then .error .ud
  else if p0.extractLsb' 0 2 ≠ 2#2 ∨ p1.extractLsb' 0 2 ≠ 1#2 then .error (.refuse .otherEvex)
  else if p2.extractLsb' 5 2 = 3#2 then .error .ud
  else if p2.getLsbD 4 then .error .ud
  else if p2.extractLsb' 0 3 = 0#3 ∧ p2.getLsbD 7 then .error .ud
  else if m = .m32 ∧ p2.getLsbD 3 = false then .error .ud
  else if m = .m32 ∧ ¬(p0.getLsbD 5 ∧ p0.getLsbD 4 ∧ p1.getLsbD 6) then .error (.refuse .extensionBitInM32)
  else .ok ()

/-- R107 step 3c, after the byte 62H: forms 5 to 7 (R100 to R105). The checks of R101 stand under its premise that the opcode
byte is 0BH; with another opcode byte the bytes are another instruction (DEDUCED, log 14). The spec gives the refusal of a
memory operand without SIB and with `X` no place (R103): here it comes once the displacement has been read, before the feature
checks of R107 step 5 (DESIGN CHOICE, log 27). -/
def decodeEvex (m : Mode) (p : PrefixesSeen) (rex : Option Byte) (bs : List Byte) : Except DecodeStop (Instr × List Byte) := do
  vexIntro m .bound p rex bs
  let (p0, bs) ← nextByte bs
  let (p1, bs) ← nextByte bs
  let (p2, bs) ← nextByte bs
  let (op, bs) ← nextByte bs
  if op ≠ 0x0B#8 then .error (.refuse .otherEvex)
  else do
    evexChecks m p0 p1 p2
    let x := !p0.getLsbD 6
    let b := !p0.getLsbD 5
    let ((reg, rm), bs) ← readModRm m p.kept x b bs
    if x && rm.isMemNoSib then .error (.refuse .evexIndexBitUnused)
    else do
      let dst := extend5 (!p0.getLsbD 4) (!p0.getLsbD 7) reg
      let src1 : BitVec 5 := BitVec.ofBool (!p2.getLsbD 3) ++ ~~~(p1.extractLsb' 3 4)
      let src2 := extendRm x b rm
      let mask := maskingOf (p2.extractLsb' 0 3) (p2.getLsbD 7)
      if p2.extractLsb' 5 2 = 0#2 then .ok (.vpmulhrswXmmMasked p.kept mask dst src1 src2, bs)
      else if p2.extractLsb' 5 2 = 1#2 then .ok (.vpmulhrswYmmMasked p.kept mask dst src1 src2, bs)
      else .ok (.vpmulhrswZmmMasked p.kept mask dst src1 src2, bs)

/-- R107: the instruction at the front of `bs` in mode `m`, and the bytes after it. -/
def decode (m : Mode) (bs : List Byte) : Except DecodeStop (Instr × List Byte) := do
  let (p, bs) ← readPrefixes {} bs
  let (rex, bs) := readRex m bs
  let (o, bs) ← nextByte bs
  if o = 0x0F#8 then decodeLegacy m p rex bs
  else if o = 0xC4#8 then decodeVex m p rex bs
  else if o = 0x62#8 then decodeEvex m p rex bs
  else if o = 0xC5#8 then .error (.refuse .twoByteVex)
  else .error (.refuse .otherInstruction)

/-! ### Length (R106) -/

/-- Number of the optional prefix bytes kept. -/
def Prefixes.len (p : Prefixes) : Nat :=
  (if p.seg.isSome then 1 else 0) + (if p.addrSize then 1 else 0)

/-- Bytes of a displacement (R88). -/
def Disp.len : Disp → Nat
  | .none => 0
  | .disp8 _ => 1
  | .disp32 _ => 4

/-- Bytes of a displacement with 16-bit addressing (R88). -/
def Disp16.len : Disp16 → Nat
  | .none => 0
  | .disp8 _ => 1
  | .disp16 _ => 2

/-- Bytes of SIB and displacement. -/
def MemAddr.len : MemAddr → Nat
  | .base _ d => d.len
  | .dispOnly _ => 4
  | .sib _ _ d => 1 + d.len
  | .sibNoBase _ _ => 5
  | .base16 _ d => d.len
  | .dispOnly16 _ => 2

/-- Bytes of ModRM, SIB and displacement. -/
def Rm.len {n : Nat} : Rm n → Nat
  | .reg _ => 1
  | .mem a => 1 + a.len

/-- `ilen` of a legacy form: prefixes, 66H (form 2), REX, three opcode bytes, ModRM and what follows (R83, R106). -/
def legacyIlen {n : Nat} (p : Prefixes) (opSize rex : Bool) (src : Rm n) : Nat :=
  p.len + (if opSize then 1 else 0) + (if rex then 1 else 0) + 3 + src.len

/-- `ilen` of a VEX form (R94, R106). -/
def vexIlen {n : Nat} (p : Prefixes) (src : Rm n) : Nat :=
  p.len + 4 + src.len

/-- `ilen` of an EVEX form (R100, R106). -/
def evexIlen {n : Nat} (p : Prefixes) (src : Rm n) : Nat :=
  p.len + 5 + src.len

/-- `ilen`: the number of bytes of the instruction (R106). -/
def Instr.ilen : Instr → Nat
  | .pmulhrswMm p rex _ src => legacyIlen p false rex src
  | .pmulhrswXmm p rex _ src => legacyIlen p true rex src
  | .vpmulhrswXmm p _ _ src2 => vexIlen p src2
  | .vpmulhrswYmm p _ _ src2 => vexIlen p src2
  | .vpmulhrswXmmMasked p _ _ _ src2 => evexIlen p src2
  | .vpmulhrswYmmMasked p _ _ _ src2 => evexIlen p src2
  | .vpmulhrswZmmMasked p _ _ _ src2 => evexIlen p src2

/-! ### The encoder -/

/-- The prefix byte of a segment override (R84). -/
def Seg.prefixByte : Seg → Byte
  | .es => 0x26#8
  | .cs => 0x2E#8
  | .ss => 0x36#8
  | .ds => 0x3E#8
  | .fs => 0x64#8
  | .gs => 0x65#8

def le16 (d : BitVec 16) : List Byte :=
  [d.extractLsb' 0 8, d.extractLsb' 8 8]

def le32 (d : BitVec 32) : List Byte :=
  le16 (d.extractLsb' 0 16) ++ le16 (d.extractLsb' 16 16)

/-- The kept prefixes, segment override first. -/
def Prefixes.bytes (p : Prefixes) : List Byte :=
  (match p.seg with
    | some s => [s.prefixByte]
    | none => []) ++ (if p.addrSize then [0x67#8] else [])

def Disp.md : Disp → BitVec 2
  | .none => 0#2
  | .disp8 _ => 1#2
  | .disp32 _ => 2#2

def Disp.bytes : Disp → List Byte
  | .none => []
  | .disp8 d => [d]
  | .disp32 d => le32 d

def Disp16.md : Disp16 → BitVec 2
  | .none => 0#2
  | .disp8 _ => 1#2
  | .disp16 _ => 2#2

def Disp16.bytes : Disp16 → List Byte
  | .none => []
  | .disp8 d => [d]
  | .disp16 d => le16 d

/-- The `rm` field of a 16-bit base sum (R90). -/
def Base16.rm : Base16 → BitVec 3
  | .bxsi => 0#3
  | .bxdi => 1#3
  | .bpsi => 2#3
  | .bpdi => 3#3
  | .si => 4#3
  | .di => 5#3
  | .bp => 6#3
  | .bx => 7#3

/-- A byte of three fields of 2, 3 and 3 bits: ModRM (R86) and SIB (R87). -/
def byte233 (a : BitVec 2) (b c : BitVec 3) : Byte :=
  a ++ b ++ c

/-- The SIB byte of an index and the low bits of a base (R87). -/
def sibByte (index : Option (BitVec 4 × BitVec 2)) (base : BitVec 3) : Byte :=
  match index with
  | none => byte233 0#2 4#3 base
  | some (i, scale) => byte233 scale (i.setWidth 3) base

/-- ModRM, SIB and displacement of a memory operand (R86 to R88, R90). -/
def MemAddr.bytes (reg : BitVec 3) : MemAddr → List Byte
  | .base b d => byte233 d.md reg (b.setWidth 3) :: d.bytes
  | .dispOnly d => byte233 0#2 reg 5#3 :: le32 d
  | .sib b i d => byte233 d.md reg 4#3 :: sibByte i (b.setWidth 3) :: d.bytes
  | .sibNoBase i d => byte233 0#2 reg 4#3 :: sibByte i 5#3 :: le32 d
  | .base16 b d => byte233 d.md reg b.rm :: d.bytes
  | .dispOnly16 d => byte233 0#2 reg 6#3 :: le16 d

/-- ModRM, SIB and displacement (R86). -/
def Rm.bytes {n : Nat} (reg : BitVec 3) : Rm n → List Byte
  | .reg r => [byte233 3#2 reg (r.setWidth 3)]
  | .mem a => a.bytes reg

/-- The REX byte `0100 0RXB` (R85). -/
def rexByte (r x b : Bool) : Byte :=
  0x8#5 ++ BitVec.ofBool r ++ BitVec.ofBool x ++ BitVec.ofBool b

/-- Forms 1 and 2 (R83). -/
def encodeLegacy {n : Nat} (p : Prefixes) (opSize rex r : Bool) (reg : BitVec 3) (src : Rm n) : List Byte :=
  p.bytes ++ (if opSize then [0x66#8] else []) ++ (if rex then [rexByte r src.bitX src.bitB] else [])
    ++ [0x0F#8, 0x38#8, 0x0B#8] ++ src.bytes reg

/-- Forms 3 and 4 (R94), with `W = 0`. -/
def encodeVex (p : Prefixes) (l : Bool) (dst src1 : BitVec 5) (src2 : Rm 5) : List Byte :=
  p.bytes ++ [0xC4#8,
    BitVec.ofBool (!dst.getLsbD 3) ++ BitVec.ofBool (!src2.bitX) ++ BitVec.ofBool (!src2.bitB) ++ 2#5,
    0#1 ++ ~~~(src1.setWidth 4) ++ BitVec.ofBool l ++ 1#2,
    0x0B#8] ++ src2.bytes (dst.setWidth 3)

/-- The fields `aaa` and `z` of a writemask (R103). -/
def Masking.aaa : Masking → BitVec 3
  | .noMask => 0#3
  | .merging k => k
  | .zeroing k => k

def Masking.z : Masking → Bool
  | .zeroing _ => true
  | _ => false

/-- Forms 5 to 7 (R100), with `W = 0`; `ll` is the field `L'L`. -/
def encodeEvex (p : Prefixes) (ll : BitVec 2) (mask : Masking) (dst src1 : BitVec 5) (src2 : Rm 5) : List Byte :=
  p.bytes ++ [0x62#8,
    BitVec.ofBool (!dst.getLsbD 3) ++ BitVec.ofBool (!src2.bitX) ++ BitVec.ofBool (!src2.bitB)
      ++ BitVec.ofBool (!dst.getLsbD 4) ++ 2#4,
    0#1 ++ ~~~(src1.setWidth 4) ++ 5#3,
    BitVec.ofBool mask.z ++ ll ++ 0#1 ++ BitVec.ofBool (!src1.getLsbD 4) ++ mask.aaa,
    0x0B#8] ++ src2.bytes (dst.setWidth 3)

/-- The bytes of an instruction (R80 to R105), lowest address first. -/
def encode : Instr → List Byte
  | .pmulhrswMm p rex dst src => encodeLegacy p false rex false dst src
  | .pmulhrswXmm p rex dst src => encodeLegacy p true rex (dst.getLsbD 3) (dst.setWidth 3) src
  | .vpmulhrswXmm p dst src1 src2 => encodeVex p false dst src1 src2
  | .vpmulhrswYmm p dst src1 src2 => encodeVex p true dst src1 src2
  | .vpmulhrswXmmMasked p mask dst src1 src2 => encodeEvex p 0#2 mask dst src1 src2
  | .vpmulhrswYmmMasked p mask dst src1 src2 => encodeEvex p 1#2 mask dst src1 src2
  | .vpmulhrswZmmMasked p mask dst src1 src2 => encodeEvex p 2#2 mask dst src1 src2

/-! ### The bits of a row of the opcode table -/

/-- The `k` bytes of the number `w`, most significant first. -/
def bytesHighFirst (w : Nat) : Nat → List Byte
  | 0 => []
  | k + 1 => BitVec.ofNat 8 (w >>> (8 * k)) :: bytesHighFirst w k

/-- The `k` bytes of the number `w`, least significant first. -/
def bytesLowFirst (w : Nat) : Nat → List Byte
  | 0 => []
  | k + 1 => BitVec.ofNat 8 w :: bytesLowFirst (w >>> 8) k

/-- The longest the procedure of R107 can get, and more: the architecture's limit (R106). -/
def maxIlen : Nat := 15

/-- The bytes of a table row's number `w` of `nbits` bits, lowest address first, zeros after it. `opcode_table.json` gives a
row as ONE number whose leftmost byte has the lowest address and whose bit 0 is the last bit of the last byte (its "note",
`98_reader.md`). Where that reading does not decode and the reading with the first byte in bits 7:0 does, the latter is taken
(log 18). -/
def tableBytes (m : Mode) (nbits w : Nat) : List Byte :=
  let k := (nbits + 7) / 8
  let high := bytesHighFirst w k ++ List.replicate (maxIlen - k) 0#8
  let low := bytesLowFirst w k ++ List.replicate (maxIlen - k) 0#8
  match decode m high, decode m low with
  | .error _, .ok _ => low
  | _, _ => high

/-- The instruction the decoder reads, in `M64`, from a row of the opcode table whose bits are `w`. -/
def decodeTableWord (nbits w : Nat) : Option Instr :=
  match decode .m64 (tableBytes .m64 nbits w) with
  | .ok (i, _) => some i
  | .error _ => none

end Sys2Proof
end

