-- ==== Sys2Proof/Config.lean ====
section
/-! DEFINITION. The parameters of `00_scope.md` R6 that are fixed for a run. They are plain data held in the state
(`State.cfg`), so that one model covers every processor the spec admits and a statement quantifies over them; no step changes
them. `MODE`, `ENV` and `SegBase` are registers of the state. -/

namespace Sys2Proof

/-- `MAXVL`, the width of one vector register (R4): 128, 256 or 512. -/
inductive MaxVL where
  | v128
  | v256
  | v512
  deriving DecidableEq, Repr

/-- `ALIGN128_VEX` (R54, D5, OPEN): whether a misaligned 128-bit memory operand of forms 3 and 5 raises #GP. -/
inductive Align128 where
  | gp
  | none
  deriving DecidableEq, Repr

/-- What an access does (R6, `MemFault`). -/
inductive AccessKind where
  | read
  | fetch
  deriving DecidableEq, Repr

/-- What `MemFault` can answer besides `none` (D7). -/
inductive AccessFault where
  /-- #SS(0). -/
  | ss
  /-- #GP(0). -/
  | gp
  /-- #PF with its fault code and the faulting linear address. -/
  | pf (code : BitVec 32) (address : Word)
  deriving DecidableEq, Repr

/-- One row of a `MemFault` given as a table: the accesses it is about and what `MemFault` answers for them. A selector that is
`none` selects every segment, byte count or kind. -/
structure AccessRule where
  seg : Option Seg
  /-- The linear addresses at which the access begins, both ends included. -/
  first : Nat
  last : Nat
  bytes : Option Nat
  kind : Option AccessKind
  answer : Option AccessFault
  deriving DecidableEq, Repr

/-- A run of linear addresses `first … last` (both included) and what paging says of it: the plain data behind the page part
of a faithful `MemFault` (R61, R197). An address in no region is accessible.
DESIGN CHOICE (log 6): descriptor and page-table formats are out of scope. -/
structure PageRegion where
  first : Nat
  last : Nat
  /-- The page is present (fault code bit 0, R197). -/
  present : Bool
  /-- A reserved bit is set in a paging entry (fault code bit 3, R197). -/
  reservedBit : Bool
  /-- Not accessible at `CPL = 3` (R61: "not readable at the current privilege level"). -/
  supervisorOnly : Bool
  /-- Not accessible to an instruction fetch. -/
  noExecute : Bool
  /-- The privilege levels at which the page, though present, is not readable (R61). -/
  noRead : List (Fin 4)
  deriving DecidableEq, Repr

/-- The processor's and the environment's fixed parameters (R5, R6). -/
structure Config where
  maxvl : MaxVL
  ssse3 : Bool
  avx : Bool
  avx2 : Bool
  avx512f : Bool
  avx512bw : Bool
  avx512vl : Bool
  align128Vex : Align128
  /-- `MemFault` as a table (R6, D7: any function of the stated type): `none` for the faithful `MemFault` of R61, computed from
  the segment registers and the two fields below; `some t` for the function that the first row of `t` about an access gives, no
  exception where no row is (log 6). -/
  accessTable : Option (List AccessRule)
  /-- Paging is on (R61). -/
  paging : Bool
  pages : List PageRegion
  deriving DecidableEq, Repr

end Sys2Proof
end

