-- ==== Sys2Proof/Machine/State.lean ====
section
/-! DEFINITION. The state of the machine (`10_state.md`), plain data, and why a step can stop. -/

namespace Sys2Proof.Machine

/-- A segment register (R26): its selector, its base (`SegBase`, R60), and the limit and access right that R61 tests. -/
structure SegReg where
  selector : BitVec 16
  base : Word
  limit : BitVec 32
  readable : Bool
  deriving DecidableEq, Repr

/-- The x87 state that R23 and R34 name, beside the low 64 bits of the data registers, which are the MMX registers. -/
structure X87 where
  /-- Bits 79:64 of the eight physical data registers. -/
  upper : Vector (BitVec 16) 8
  /-- Status word: top-of-stack in bits 13:11, pending exception (ES) in bit 7. -/
  status : BitVec 16
  /-- Tag word: two bits a register, 00 valid. -/
  tag : BitVec 16
  deriving DecidableEq, Repr

/-- Memory (R33): (linear address, byte) pairs, addresses strictly rising, no byte 0. An address not listed reads 0
(DESIGN CHOICE, log 5). -/
abbrev Memory := List Host.Cell

/-- The whole state of the machine: every piece of state the spec names (INVENTORY.md, State). -/
structure State where
  /-- `MODE` (R3, R6). -/
  mode : Mode
  /-- RIP or EIP (R27), an offset in the code segment; below 2^32 in `M32`. -/
  pc : Word
  /-- General registers (R25). -/
  g : Vector Word 16
  /-- ES, CS, SS, DS, FS, GS, in this order (R26). -/
  segs : Vector SegReg 6
  /-- EFLAGS (R29, R31). -/
  eflags : BitVec 32
  /-- MMX registers (R22): bits 63:0 of the physical x87 data registers (R23). -/
  mm : Vector (BitVec 64) 8
  x87 : X87
  /-- Vector registers (R20, R21); bits at and above `MAXVL` do not exist and are kept 0 (log 19). -/
  v : Vector VReg 32
  /-- Opmask registers (R24). -/
  k : Vector (BitVec 64) 8
  /-- MXCSR (R30). -/
  mxcsr : BitVec 32
  /-- CR0 (R31). -/
  cr0 : BitVec 32
  /-- CR2 (R61, R197). -/
  cr2 : Word
  /-- CR4 (R31). -/
  cr4 : BitVec 32
  /-- XCR0 bits 7:0 (R31). -/
  xcr0 : BitVec 8
  /-- Current privilege level (R31, R204). -/
  cpl : Fin 4
  /-- The parameters fixed for a run (R6). -/
  cfg : Config
  /-- Memory (R33). -/
  mem : Memory
  deriving DecidableEq, Repr

/-- The exceptions a form can raise (R190), with the error code and, for #PF, the faulting linear address (R197). -/
inductive Exception where
  | ud
  | nm
  | ss (code : BitVec 32)
  | gp (code : BitVec 32)
  | pf (code : BitVec 32) (address : Word)
  | mf
  | ac (code : BitVec 32)
  deriving DecidableEq, Repr

/-- An exception was raised (R9, R190, R200): it is terminal, no state was changed (R199). Each carries what R197 says it
records; `savedPc` is the address of the faulting instruction. Safe: the hardware goes on at a handler, which the spec's scope
leaves out (`00_scope.md` section 3), so nothing is claimed of what follows (log 16). -/
inductive Fault where
  /-- #UD, vector 6: decoding (R84, R98, R101, R102, R105), a missing feature or enable bit (R194 to R196). Safe. -/
  | invalidOpcode (savedPc : Word)
  /-- #NM, vector 7: `CR0.TS = 1` (R194 to R196). Safe. -/
  | deviceNotAvailable (savedPc : Word)
  /-- #SS, vector 12: an operand in SS fails the segment or canonical check (R61). Safe. -/
  | stackSegment (errorCode : BitVec 32) (savedPc : Word)
  /-- #GP, vector 13: alignment (R53, R54), segment or canonical check (R61), more than 15 bytes (R106). Safe. -/
  | generalProtection (errorCode : BitVec 32) (savedPc : Word)
  /-- #PF, vector 14: paging (R61); `address` is what CR2 is loaded with. Safe. -/
  | pageFault (errorCode : BitVec 32) (address savedPc : Word)
  /-- #MF, vector 16: form 1 with an x87 exception pending (R195). Safe. -/
  | x87Error (savedPc : Word)
  /-- #AC, vector 17: form 1, alignment checking active (R55, R195). Safe. -/
  | alignmentCheck (errorCode : BitVec 32) (savedPc : Word)
  deriving DecidableEq, Repr

/-- The spec gives the situation no meaning, and a model must not continue (R9). All are safe: nothing is claimed. -/
inductive Refusal where
  /-- Only for an arm of `exec` without a meaning; no arm answers it. Safe. -/
  | notModelled (mnemonic : String)
  /-- `step` and every meaning, in a mode other than `M64` and `M32` (R3, D2, U28). Safe. -/
  | modeNotAdmitted (mode : Mode)
  /-- `step`, for bytes that are none of the seven forms (R2, R107, D15, D17). Safe. -/
  | notOneOfTheForms (reason : DecodeRefusal)
  /-- A memory operand while a segment base is not a multiple of 64 (R60, D8, U26). Safe. -/
  | segmentBaseNotAdmitted
  /-- A memory operand whose bytes wrap past the end of the linear address space (R61, U29). Safe. -/
  | operandWraps
  /-- `M64`: the address of the next instruction is not canonical, or lies past the end of the address space (R28, D24, U29). Safe. -/
  | nextPcNotCanonical
  deriving DecidableEq, Repr

/-- How an operation inside an instruction stops it. -/
inductive Stop where
  | fault (f : Fault)
  | refused (r : Refusal)
  deriving DecidableEq, Repr

/-- The parameters at reset (DESIGN CHOICE, log 3): a processor with all seven forms (R1), the safe value `gp` of
`ALIGN128_VEX` (`92_eei_decisions.md`), a faithful `MemFault` (R61) with no paging. -/
def resetConfig : Config where
  maxvl := .v512
  ssse3 := true
  avx := true
  avx2 := true
  avx512f := true
  avx512bw := true
  avx512vl := true
  align128Vex := .gp
  accessTable := none
  paging := false
  pages := []

/-- A segment register after reset: the family's values (PRESUMED, log 2), but for CS, whose selector and base R36 gives. -/
def resetSeg : SegReg where
  selector := 0
  base := 0
  limit := 0xFFFF
  readable := true

/-- The values R36 gives for power-up and RESET; those it does not give are named in log 2, the parameters in log 3. R36 gives
them for information and the processor is then in real-address mode, which the spec refuses: a run starts at a launch
state (R230), see `State.withFetchWord` and log 1 and 4. -/
def State.reset : State where
  mode := .realAddress
  pc := 0xFFF0
  g := Vector.replicate 16 0
  segs := #v[resetSeg, { resetSeg with selector := 0xF000, base := 0xFFFF0000 }, resetSeg, resetSeg, resetSeg, resetSeg]
  eflags := 2
  mm := Vector.replicate 8 0
  x87 := { upper := Vector.replicate 8 0, status := 0, tag := 0x5555 }
  v := Vector.replicate 32 0
  k := Vector.replicate 8 0
  mxcsr := 0x1F80
  cr0 := 0x60000010
  cr2 := 0
  cr4 := 0
  xcr0 := 1
  cpl := 0
  cfg := resetConfig
  mem := []

end Sys2Proof.Machine
end

