-- ==== Sys2Proof/Machine/Flags.lean ====
section
/-! DEFINITION. The control and status bits the exception classes test: the record `ENV` of `10_state.md` R31, read off the
registers that hold them. No form reads or writes a status flag (R29, R30), so there is no flag computation. -/

namespace Sys2Proof.Machine

/-- `CR0.EM`, bit 2 (R31). -/
def State.cr0Em (s : State) : Bool := s.cr0.getLsbD 2

/-- `CR0.TS`, bit 3 (R31). -/
def State.cr0Ts (s : State) : Bool := s.cr0.getLsbD 3

/-- `CR0.AM`, bit 18 (R31). -/
def State.cr0Am (s : State) : Bool := s.cr0.getLsbD 18

/-- `CR4.OSFXSR`, bit 9 (R31). -/
def State.cr4Osfxsr (s : State) : Bool := s.cr4.getLsbD 9

/-- `CR4.OSXSAVE`, bit 18 (R31). -/
def State.cr4Osxsave (s : State) : Bool := s.cr4.getLsbD 18

/-- `XCR0[2:1] = 11`: SSE and AVX state enabled (R31). -/
def State.xcr0Avx (s : State) : Bool := s.xcr0.extractLsb' 1 2 == 3#2

/-- `XCR0[7:5] = 111`: opmask, ZMM_Hi256 and Hi16_ZMM state enabled (R31). -/
def State.xcr0Avx512 (s : State) : Bool := s.xcr0.extractLsb' 5 3 == 7#3

/-- `EFLAGS.AC`, bit 18 (R29, R31). -/
def State.eflagsAc (s : State) : Bool := s.eflags.getLsbD 18

/-- `X87_PENDING`: status word ES, bit 7 (R31). -/
def State.x87Pending (s : State) : Bool := s.x87.status.getLsbD 7

/-- `AC_ACTIVE` (R31). -/
def State.acActive (s : State) : Bool := s.cr0Am && s.eflagsAc && s.cpl == 3

end Sys2Proof.Machine
end

