-- ==== Sys2Proof/Machine/Forms.lean ====
section
/-! DEFINITION. The tables that differ from form to form: widths and lanes (`00_scope.md` R6), displacement factor
(`30_encoding.md` R104), alignment (`20_memory.md` R53 to R55), presence on a processor (R4, R109), names (R110 to R112). -/

namespace Sys2Proof.Machine

/-- `MAXVL` in bits (R4). -/
def maxvlBits : MaxVL → Nat
  | .v128 => 128
  | .v256 => 256
  | .v512 => 512

/-- `VL`, the operand width in bits (R6, derived constants). -/
def formVl : Form → Nat
  | .f1 => 64
  | .f2 => 128
  | .f3 => 128
  | .f4 => 256
  | .f5 => 128
  | .f6 => 256
  | .f7 => 512

/-- `KL`, the number of lanes (R6, derived constants; R170). -/
def formLanes : Form → Nat
  | .f1 => 4
  | .f2 => 8
  | .f3 => 8
  | .f4 => 16
  | .f5 => 8
  | .f6 => 16
  | .f7 => 32

/-- Bytes of the memory operand, `VL/8` (R6, R51). -/
def formBytes : Form → Nat
  | .f1 => 8
  | .f2 => 16
  | .f3 => 16
  | .f4 => 32
  | .f5 => 16
  | .f6 => 32
  | .f7 => 64

/-- The factor `N` of an 8-bit displacement: the operand size in bytes in an EVEX form (R104), 1 elsewhere (R88). -/
def formDisp8Scale : Form → Nat
  | .f1 => 1
  | .f2 => 1
  | .f3 => 1
  | .f4 => 1
  | .f5 => 16
  | .f6 => 32
  | .f7 => 64

/-- A memory operand whose linear address is not a multiple of 16 raises #GP: form 2 (R53); forms 3 and 5 as the parameter
`ALIGN128_VEX` says (R54); no other form (R55). -/
def formAlignGp (c : Config) : Form → Bool
  | .f1 => false
  | .f2 => true
  | .f3 => c.align128Vex == .gp
  | .f4 => false
  | .f5 => c.align128Vex == .gp
  | .f6 => false
  | .f7 => false

/-- The alignment check #AC applies: form 1 only (R55). -/
def formAlignAc : Form → Bool
  | .f1 => true
  | _ => false

/-- The processor has the form: its CPUID flags (R5, R109), `F_AVX512F` for the EVEX forms (R6, R196), and a register file
wide enough (R4, R196). -/
def formPresent (c : Config) : Form → Bool
  | .f1 => c.ssse3
  | .f2 => c.ssse3
  | .f3 => c.avx
  | .f4 => c.avx2 && 256 ≤ maxvlBits c.maxvl
  | .f5 => c.avx512f && c.avx512bw && c.avx512vl && 512 ≤ maxvlBits c.maxvl
  | .f6 => c.avx512f && c.avx512bw && c.avx512vl && 512 ≤ maxvlBits c.maxvl
  | .f7 => c.avx512f && c.avx512bw && 512 ≤ maxvlBits c.maxvl

/-- The mnemonic of the manual's syntax (R110, R112). -/
def formMnemonic : Form → String
  | .f1 => "PMULHRSW"
  | .f2 => "PMULHRSW"
  | _ => "VPMULHRSW"

/-- The ten intrinsics of the source (R111), as (name, forms it maps to). A mask argument of an EVEX intrinsic has
`formLanes` bits. -/
def intrinsics : List (String × List Form) :=
  [("_mm512_mulhrs_epi16", [.f7]), ("_mm512_mask_mulhrs_epi16", [.f7]), ("_mm512_maskz_mulhrs_epi16", [.f7]),
   ("_mm256_mask_mulhrs_epi16", [.f6]), ("_mm256_maskz_mulhrs_epi16", [.f6]),
   ("_mm_mask_mulhrs_epi16", [.f5]), ("_mm_maskz_mulhrs_epi16", [.f5]),
   ("_mm_mulhrs_pi16", [.f1]), ("_mm_mulhrs_epi16", [.f2, .f3]), ("_mm256_mulhrs_epi16", [.f4])]

end Sys2Proof.Machine
end

