-- ==== Sys2Proof/Machine/Ops.lean ====
section
/-! DEFINITION. The named operations over registers and memory, the access check `MemFault`, taking an exception, the checks
before an instruction, and the advance of `pc`. There is no return from an exception: R201 says that none is in scope. -/

namespace Sys2Proof.Machine

/-! ### Taking an exception, refusing -/

/-- TAKING AN EXCEPTION, the one operation for it (R190, R197, R199, R200): the outcome is terminal, the state is as it was
before the instruction, and the saved instruction pointer is the address of the faulting instruction. -/
def State.takeException (s : State) : Exception → Fault
  | .ud => .invalidOpcode s.pc
  | .nm => .deviceNotAvailable s.pc
  | .ss code => .stackSegment code s.pc
  | .gp code => .generalProtection code s.pc
  | .pf code address => .pageFault code address s.pc
  | .mf => .x87Error s.pc
  | .ac code => .alignmentCheck code s.pc

/-- The vector number of a fault (R190). -/
def faultVector : Fault → Nat
  | .invalidOpcode _ => 6
  | .deviceNotAvailable _ => 7
  | .stackSegment _ _ => 12
  | .generalProtection _ _ => 13
  | .pageFault _ _ _ => 14
  | .x87Error _ => 16
  | .alignmentCheck _ _ => 17

/-- The saved instruction pointer of a fault (R197). -/
def faultSavedPc : Fault → Word
  | .invalidOpcode pc => pc
  | .deviceNotAvailable pc => pc
  | .stackSegment _ pc => pc
  | .generalProtection _ pc => pc
  | .pageFault _ _ pc => pc
  | .x87Error pc => pc
  | .alignmentCheck _ pc => pc

/-- An operation of an instruction raises an exception. -/
def raise {α : Type} (s : State) (e : Exception) : Except Stop α :=
  .error (.fault (s.takeException e))

/-- An operation of an instruction is refused. -/
def refuse {α : Type} (r : Refusal) : Except Stop α :=
  .error (.refused r)

/-- The outcome of an instruction (R9). -/
def finish : Except Stop State → Host.Outcome State Fault Refusal
  | .ok s => .next s
  | .error (.fault f) => .fault f
  | .error (.refused r) => .refused r

/-! ### Registers -/

/-- `MM[i]` (R22). -/
def State.mmReg (s : State) (i : BitVec 3) : BitVec 64 := s.mm[i.toNat]'i.isLt

/-- `MM[i] <- x` (R22). -/
def State.setMm (s : State) (i : BitVec 3) (x : BitVec 64) : State := { s with mm := s.mm.set i.toNat x i.isLt }

/-- `V[i]` (R20). -/
def State.vec (s : State) (i : BitVec 5) : VReg := s.v[i.toNat]'i.isLt

/-- `V[i] <- x` (R20). -/
def State.setVec (s : State) (i : BitVec 5) (x : VReg) : State := { s with v := s.v.set i.toNat x i.isLt }

/-- `V[i][w-1:0]`: the XMM, YMM or ZMM view of a vector register (R21). -/
def State.vecLow (s : State) (w : Nat) (i : BitVec 5) : BitVec w := (s.vec i).setWidth w

/-- `V[i][127:0] <- x`, the other bits kept (R9, R146). -/
def State.setXmmKeep (s : State) (i : BitVec 5) (x : BitVec 128) : State :=
  s.setVec i ((s.vec i).extractLsb' 128 384 ++ x)

/-- `V[i][w-1:0] <- x`, the bits above set to 0 (R160, R161, R170). -/
def State.setVecZero {w : Nat} (s : State) (i : BitVec 5) (x : BitVec w) : State :=
  s.setVec i (x.setWidth 512)

/-- `K[i]` (R24). -/
def State.opmask (s : State) (i : BitVec 3) : BitVec 64 := s.k[i.toNat]'i.isLt

/-- `G[i]` (R25). -/
def State.gpr (s : State) (i : BitVec 4) : Word := s.g[i.toNat]'i.isLt

/-- The place of a segment register in `State.segs` (R26). -/
def segIndex : Seg → Fin 6
  | .es => 0
  | .cs => 1
  | .ss => 2
  | .ds => 3
  | .fs => 4
  | .gs => 5

def State.segReg (s : State) (x : Seg) : SegReg := s.segs[segIndex x]

/-- What completing an MMX instruction does to the x87 state beyond the write of `MM[d]` (R23 a, b, c). -/
def State.mmxTransition (s : State) (d : BitVec 3) : State :=
  { s with x87 := {
      upper := s.x87.upper.set d.toNat 0xFFFF#16 d.isLt
      status := s.x87.status &&& ~~~0x3800#16
      tag := 0 } }

/-- `pc <- target` (R9). -/
def State.setPc (s : State) (target : Word) : State := { s with pc := target }

/-! ### Memory -/

/-- The byte at a linear address (R33). -/
def Memory.read : Memory → Nat → Byte
  | [], _ => 0#8
  | (b, x) :: cells, a => if a = b then x else Memory.read cells a

/-- Memory with the byte at `a` made `x`. No form writes memory (R52); the launch of a program does. -/
def Memory.write (a : Nat) (x : Byte) : Memory → Memory
  | [] => if x = 0#8 then [] else [(a, x)]
  | (b, y) :: cells =>
    if a < b then (if x = 0#8 then (b, y) :: cells else (a, x) :: (b, y) :: cells)
    else if a = b then (if x = 0#8 then cells else (a, x) :: cells)
    else (b, y) :: Memory.write a x cells

/-- The canonical form: addresses below 2^64 and strictly rising, no byte 0. -/
def Memory.wf : Memory → Bool
  | [] => true
  | (a, x) :: cells =>
    a < 2 ^ 64 && x != 0#8 && (match cells with | [] => true | (b, _) :: _ => a < b) && Memory.wf cells

/-- `MemRead(a, n)` as a value of `w` bits: the byte at the lowest address in bits 7:0 (R50, R51). -/
def Memory.readLe (w : Nat) (m : Memory) (a : Nat) : Nat → BitVec w
  | 0 => 0
  | n + 1 => (m.read a).setWidth w ||| Memory.readLe w m (a + 1) n <<< 8

/-! ### Linear addresses and the access check -/

/-- The address width `A`: 32 in `M32`, 64 in `M64` (R60). -/
def State.addrBits (s : State) : Nat := if s.mode = .m32 then 32 else 64

/-- An address modulo 2^A (R28, R60). -/
def State.wrapAddr (s : State) (a : Word) : Word := if s.mode = .m32 then (a.setWidth 32).setWidth 64 else a

/-- `SegBase(seg)`: in `M64` the bases of ES, CS, SS and DS are 0 (R26, R60). -/
def State.segBase (s : State) (x : Seg) : Word :=
  if s.mode = .m64 ∧ x ≠ .fs ∧ x ≠ .gs then 0 else (s.segReg x).base

/-- Every segment base is a multiple of 64; otherwise every memory operand is refused (R60, D8; log 9). -/
def State.segBasesAdmitted (s : State) : Bool :=
  [Seg.es, .cs, .ss, .ds, .fs, .gs].all fun x => (s.segBase x).toNat % 64 == 0

/-- The linear address of an effective address (R60). -/
def State.linear (s : State) (x : Seg) (ea : Word) : Word := s.wrapAddr (s.segBase x + ea)

/-- Bits 63:47 all equal (R61). -/
def canonical (a : Word) : Bool :=
  a.extractLsb' 47 17 == 0 || a.extractLsb' 47 17 == BitVec.allOnes 17

/-- The first part of R61: a byte that is not canonical in `M64`; in `M32` a byte beyond the segment's limit, or a segment
that is not readable. The spec does not say what happens when the offset passes FFFFFFFFH in `M32` while the linear addresses do not
wrap: here those bytes have offsets of 2^32 and more and are beyond every limit (DESIGN CHOICE, log 28). -/
def State.segmentViolation (s : State) (x : Seg) (lin : Word) (n : Nat) (kind : AccessKind) : Bool :=
  if s.mode = .m64 then (List.range n).any fun i => !canonical (lin + BitVec.ofNat 64 i)
  else (List.range n).any (fun i =>
      (s.segReg x).limit.toNat < ((lin - s.segBase x).setWidth 32).toNat + i)
    || (kind == .read && !(s.segReg x).readable)

/-- The fault code of a page fault (R197): bit 0 P, bit 1 W/R (0, a read), bit 2 U/S, bit 3 RSVD, bit 4 I/D.
R197 names bit 3 and not when it is 1: here exactly when the page is present and a reserved bit is set, so never with bit 0 at 0
(DESIGN CHOICE, log 26).
It has bit 4 at 1 "only for an instruction fetch": here every fetch sets it (DESIGN CHOICE, log 26).
It names no bit above bit 4: here bits 31:5 are 0 (DESIGN CHOICE, log 26). -/
def State.pageFaultCode (s : State) (r : PageRegion) (kind : AccessKind) : BitVec 32 :=
  (if r.present then 1#32 else 0#32) ||| (if s.cpl = 3 then 4#32 else 0#32)
    ||| (if r.present && r.reservedBit then 8#32 else 0#32) ||| (if kind = .fetch then 16#32 else 0#32)

/-- The page fault of one byte, if any: its page is not present or not accessible at the current privilege level (R61). -/
def State.pageFaultAt (s : State) (kind : AccessKind) (a : Word) : Option Exception :=
  match s.cfg.pages.find? (fun r => r.first ≤ a.toNat && a.toNat ≤ r.last) with
  | none => none
  | some r =>
    if !r.present || r.reservedBit || (r.supervisorOnly && s.cpl == 3) || (kind == .fetch && r.noExecute)
      || (kind == .read && r.noRead.contains s.cpl)
    then some (.pf (s.pageFaultCode r kind) a) else none

/-- A faithful `MemFault` (R61): the segment check first (#SS through SS, else #GP), then, with paging on, the page fault of
the lowest byte that has one (log 6, log 7). -/
def State.faithfulMemFault (s : State) (x : Seg) (lin : Word) (n : Nat) (kind : AccessKind) : Option Exception :=
  if s.segmentViolation x lin n kind then some (if x = .ss then .ss 0 else .gp 0)
  else if s.cfg.paging then
    (List.range n).findSome? fun i => s.pageFaultAt kind (lin + BitVec.ofNat 64 i)
  else none

/-- A row of a `MemFault` table is about this access (R6, D7). -/
def ruleIsAbout (r : AccessRule) (x : Seg) (lin : Word) (n : Nat) (kind : AccessKind) : Bool :=
  r.seg.all (· == x) && r.first ≤ lin.toNat && lin.toNat ≤ r.last && r.bytes.all (· == n) && r.kind.all (· == kind)

/-- What a `MemFault` table answers: the answer of its first row about the access, `none` without one (D7). -/
def tableMemFault (t : List AccessRule) (x : Seg) (lin : Word) (n : Nat) (kind : AccessKind) : Option AccessFault :=
  (t.find? (ruleIsAbout · x lin n kind)).bind (·.answer)

/-- The exception `MemFault` asks for (D7). -/
def exceptionOf : AccessFault → Exception
  | .ss => .ss 0
  | .gp => .gp 0
  | .pf code address => .pf code address

/-- `MemFault(lin, n, kind)` through segment `x` (R6, R61, D7): the table, if the parameter is given as one, else the faithful
one. -/
def State.memFault (s : State) (x : Seg) (lin : Word) (n : Nat) (kind : AccessKind) : Option Exception :=
  match s.cfg.accessTable with
  | some t => (tableMemFault t x lin n kind).map exceptionOf
  | none => s.faithfulMemFault x lin n kind

/-! ### Checks before the operands are read -/

/-- The mode is admitted (R3); no #UD condition holds; `CR0.TS` is 0 (steps 1 and 2 of R194, R195, R196). -/
def checkUdNm (s : State) (undefinedOpcode : Bool) : Except Stop Unit :=
  if !s.mode.admitted then refuse (.modeNotAdmitted s.mode)
  else if undefinedOpcode then raise s .ud
  else if s.cr0Ts then raise s .nm
  else .ok ()

/-- R195, steps 1 to 3 (form 1). -/
def checkMmx (s : State) : Except Stop Unit := do
  checkUdNm s (!formPresent s.cfg .f1 || s.cr0Em)
  if s.x87Pending then raise s .mf else .ok ()

/-- R194, steps 1 and 2, for form 2. -/
def checkSse (s : State) : Except Stop Unit :=
  checkUdNm s (!formPresent s.cfg .f2 || s.cr0Em || !s.cr4Osfxsr)

/-- R194, steps 1 and 2, for forms 3 and 4. -/
def checkVex (s : State) (f : Form) : Except Stop Unit :=
  checkUdNm s (!formPresent s.cfg f || !s.cr4Osxsave || !s.xcr0Avx)

/-- R196, steps 1 and 2 (forms 5 to 7). -/
def checkEvex (s : State) (f : Form) : Except Stop Unit :=
  checkUdNm s (!formPresent s.cfg f || !s.cr4Osxsave || !s.xcr0Avx || !s.xcr0Avx512)

/-! ### The end of an instruction -/

/-- The address of the next instruction, `pc + ilen` (R27, R28). -/
def State.nextPc (s : State) (ilen : Nat) : Word := s.wrapAddr (s.pc + BitVec.ofNat 64 ilen)

/-- `pc <- pc + ilen`; in `M64` a sum that is not canonical, or that is 2^64 or more, is refused (R28, D24; log 11). -/
def State.advance (s : State) (ilen : Nat) : Except Stop State :=
  if s.mode = .m64 ∧ (2 ^ 64 ≤ s.pc.toNat + ilen ∨ canonical (s.nextPc ilen) = false) then refuse .nextPcNotCanonical
  else .ok (s.setPc (s.nextPc ilen))

end Sys2Proof.Machine
end

