-- ==== Sys2Proof/Machine/Operands.lean ====
section
/-! DEFINITION. Every operand form: the effective address (`30_encoding.md` R88 to R90), the segment (R91), the memory operand
(`20_memory.md` R51 to R61) and the r/m operand of each class of form (R92, R93, R99, R103). -/

namespace Sys2Proof.Machine

/-- A displacement as a number of the address size; an 8-bit one times `N` (R88, R104). -/
def dispValue (n : Nat) : Disp → Word
  | .none => 0
  | .disp8 d => d.signExtend 64 * BitVec.ofNat 64 n
  | .disp32 d => d.signExtend 64

/-- A displacement with 16-bit addressing (R90, R104). -/
def dispValue16 (n : Nat) : Disp16 → BitVec 16
  | .none => 0
  | .disp8 d => d.signExtend 16 * BitVec.ofNat 16 n
  | .disp16 d => d

/-- The low 16 bits of a general register (R25, R90). -/
def State.gpr16 (s : State) (i : BitVec 4) : BitVec 16 := (s.gpr i).setWidth 16

/-- The base sum of 16-bit addressing: BX 3, BP 5, SI 6, DI 7 (R90). -/
def State.baseSum16 (s : State) : Base16 → BitVec 16
  | .bxsi => s.gpr16 3 + s.gpr16 6
  | .bxdi => s.gpr16 3 + s.gpr16 7
  | .bpsi => s.gpr16 5 + s.gpr16 6
  | .bpdi => s.gpr16 5 + s.gpr16 7
  | .si => s.gpr16 6
  | .di => s.gpr16 7
  | .bp => s.gpr16 5
  | .bx => s.gpr16 3

/-- The index register times `2^scale`, 0 without an index (R89). -/
def State.indexValue (s : State) : Option (BitVec 4 × BitVec 2) → Word
  | none => 0
  | some (i, scale) => s.gpr i <<< scale.toNat

/-- The low `AS` bits, zero-extended: `AS` is 64 in `M64` without 67H, 32 in `M64` with 67H and in `M32` (R89). -/
def State.truncAddr (s : State) (p : Prefixes) (a : Word) : Word :=
  if s.mode = .m64 ∧ p.addrSize = false then a else (a.setWidth 32).setWidth 64

/-- The effective address (R89, R90); `n` is the factor of an 8-bit displacement. -/
def State.effectiveAddr (s : State) (p : Prefixes) (n ilen : Nat) : MemAddr → Word
  | .base b d => s.truncAddr p (s.gpr b + dispValue n d)
  | .dispOnly d =>
    if s.mode = .m64 then s.truncAddr p (s.pc + BitVec.ofNat 64 ilen + d.signExtend 64) else d.setWidth 64
  | .sib b i d => s.truncAddr p (s.gpr b + s.indexValue i + dispValue n d)
  | .sibNoBase i d => s.truncAddr p (s.indexValue i + d.signExtend 64)
  | .base16 b d => (s.baseSum16 b + dispValue16 n d).setWidth 64
  | .dispOnly16 d => d.setWidth 64

/-- The segment without an override: SS when the base register is 4 or 5, or the 16-bit sum uses BP; else DS (R90, R91). -/
def defaultSeg : MemAddr → Seg
  | .base b _ => if b = 4#4 ∨ b = 5#4 then .ss else .ds
  | .sib b _ _ => if b = 4#4 ∨ b = 5#4 then .ss else .ds
  | .base16 .bpsi _ => .ss
  | .base16 .bpdi _ => .ss
  | .base16 .bp _ => .ss
  | _ => .ds

/-- The segment of the memory operand (R91). -/
def operandSeg (p : Prefixes) (a : MemAddr) : Seg := p.seg.getD (defaultSeg a)

/-- `lin`, the linear address of the memory operand of form `f` (R60). -/
def State.operandAddr (s : State) (f : Form) (p : Prefixes) (ilen : Nat) (a : MemAddr) : Word :=
  s.linear (operandSeg p a) (s.effectiveAddr p (formDisp8Scale f) ilen a)

/-- The memory operand (R51), after the checks of R194 to R196 in the order of R198: alignment #GP, wrap (refused, log 10),
`MemFault`, #AC. The whole operand is checked, whatever the writemask (R62). -/
def loadOperand (w : Nat) (s : State) (f : Form) (p : Prefixes) (ilen : Nat) (a : MemAddr) : Except Stop (BitVec w) :=
  let lin := s.operandAddr f p ilen a
  if !s.segBasesAdmitted then refuse .segmentBaseNotAdmitted
  else if formAlignGp s.cfg f && lin.toNat % 16 != 0 then raise s (.gp 0)
  else if 2 ^ s.addrBits < lin.toNat + formBytes f then refuse .operandWraps
  else
    match s.memFault (operandSeg p a) lin (formBytes f) .read with
    | some e => raise s e
    | none =>
      if formAlignAc f && s.acActive && lin.toNat % 8 != 0 then raise s (.ac 0)
      else .ok (s.mem.readLe w lin.toNat (formBytes f))

/-- The r/m operand of form 1 (R92). -/
def mmOperand (s : State) (p : Prefixes) (ilen : Nat) : Rm 3 → Except Stop (BitVec 64)
  | .reg r => .ok (s.mmReg r)
  | .mem a => loadOperand 64 s .f1 p ilen a

/-- The r/m operand of forms 2 to 7, `w` bits wide (R93, R99, R103). -/
def vecOperand (w : Nat) (s : State) (f : Form) (p : Prefixes) (ilen : Nat) : Rm 5 → Except Stop (BitVec w)
  | .reg r => .ok (s.vecLow w r)
  | .mem a => loadOperand w s f p ilen a

end Sys2Proof.Machine
end

