-- ==== Sys2Proof/Machine/Evex.lean ====
section
/-! DEFINITION. Forms 5 to 7, the EVEX encodings with a writemask (`42_vpmulhrsw_evex.md` R170 to R173). -/

namespace Sys2Proof.Machine

/-- Lane `j` of the destination under the writemask (R170): computed, kept (merging) or 0 (zeroing). -/
def maskedLane {w : Nat} (s : State) (mask : Masking) (old x y : BitVec w) (j : Nat) : Lane :=
  match mask with
  | .noMask => mulhrs16 (lane x j) (lane y j)
  | .merging k => if (s.opmask k).getLsbD j then mulhrs16 (lane x j) (lane y j) else lane old j
  | .zeroing k => if (s.opmask k).getLsbD j then mulhrs16 (lane x j) (lane y j) else 0

/-- `evex_pmulhrsw(KL, VL)` (R170), `w = VL`: all operands are read before the one register write; the bits of the destination
from `VL` up are zeroed whatever the mask. -/
def evexPmulhrsw (w : Nat) (f : Form) (p : Prefixes) (mask : Masking) (dst src1 : BitVec 5) (src2 : Rm 5) (s : State) :
    Except Stop State := do
  checkEvex s f
  let y ← vecOperand w s f p (evexIlen p src2) src2
  (s.setVecZero dst
    (packLanes w (maskedLane s mask (s.vecLow w dst) (s.vecLow w src1) y) (formLanes f))).advance (evexIlen p src2)

/-- Form 5, `VPMULHRSW xmm1 k1 z, xmm2, xmm3/m128` (R171). -/
def execVpmulhrswXmmMasked (p : Prefixes) (mask : Masking) (dst src1 : BitVec 5) (src2 : Rm 5) (s : State) :
    Host.Outcome State Fault Refusal :=
  finish (evexPmulhrsw 128 .f5 p mask dst src1 src2 s)

/-- Form 6, `VPMULHRSW ymm1 k1 z, ymm2, ymm3/m256` (R172). -/
def execVpmulhrswYmmMasked (p : Prefixes) (mask : Masking) (dst src1 : BitVec 5) (src2 : Rm 5) (s : State) :
    Host.Outcome State Fault Refusal :=
  finish (evexPmulhrsw 256 .f6 p mask dst src1 src2 s)

/-- Form 7, `VPMULHRSW zmm1 k1 z, zmm2, zmm3/m512` (R173). -/
def execVpmulhrswZmmMasked (p : Prefixes) (mask : Masking) (dst src1 : BitVec 5) (src2 : Rm 5) (s : State) :
    Host.Outcome State Fault Refusal :=
  finish (evexPmulhrsw 512 .f7 p mask dst src1 src2 s)

end Sys2Proof.Machine
end

