-- ==== Sys2Proof/Machine/Legacy.lean ====
section
/-! DEFINITION. Forms 1 and 2, the legacy encodings (`40_pmulhrsw_legacy.md` R145, R146). -/

namespace Sys2Proof.Machine

/-- Form 1, `PMULHRSW mm1, mm2/m64` (R145), with the x87 effects of R23. -/
def execPmulhrswMm (p : Prefixes) (rex : Bool) (dst : BitVec 3) (src : Rm 3) (s : State) :
    Host.Outcome State Fault Refusal :=
  finish do
    checkMmx s
    let x ← mmOperand s p (legacyIlen p false rex src) src
    ((s.setMm dst (pmulhrs 4 (s.mmReg dst) x)).mmxTransition dst).advance (legacyIlen p false rex src)

/-- Form 2, `PMULHRSW xmm1, xmm2/m128` (R146): bits above 127 of the destination are kept. -/
def execPmulhrswXmm (p : Prefixes) (rex : Bool) (dst : BitVec 5) (src : Rm 5) (s : State) :
    Host.Outcome State Fault Refusal :=
  finish do
    checkSse s
    let x ← vecOperand 128 s .f2 p (legacyIlen p true rex src) src
    (s.setXmmKeep dst (pmulhrs 8 (s.vecLow 128 dst) x)).advance (legacyIlen p true rex src)

end Sys2Proof.Machine
end

