-- ==== Sys2Proof/Machine/Vex.lean ====
section
/-! DEFINITION. Forms 3 and 4, the VEX encodings (`41_vpmulhrsw_vex.md` R160, R161). -/

namespace Sys2Proof.Machine

/-- What forms 3 and 4 share: `V[d] <- zext(pmulhrs(lanes, V[s1][w-1:0], src2))` (R160, R161). -/
def vexPmulhrsw (w : Nat) (f : Form) (p : Prefixes) (dst src1 : BitVec 5) (src2 : Rm 5) (s : State) :
    Except Stop State := do
  checkVex s f
  let y ← vecOperand w s f p (vexIlen p src2) src2
  (s.setVecZero dst (pmulhrs (formLanes f) (s.vecLow w src1) y)).advance (vexIlen p src2)

/-- Form 3, `VPMULHRSW xmm1, xmm2, xmm3/m128` (R160). -/
def execVpmulhrswXmm (p : Prefixes) (dst src1 : BitVec 5) (src2 : Rm 5) (s : State) :
    Host.Outcome State Fault Refusal :=
  finish (vexPmulhrsw 128 .f3 p dst src1 src2 s)

/-- Form 4, `VPMULHRSW ymm1, ymm2, ymm3/m256` (R161). -/
def execVpmulhrswYmm (p : Prefixes) (dst src1 : BitVec 5) (src2 : Rm 5) (s : State) :
    Host.Outcome State Fault Refusal :=
  finish (vexPmulhrsw 256 .f4 p dst src1 src2 s)

end Sys2Proof.Machine
end

