-- ==== Sys2Proof/Machine/Dispatch.lean ====
section
/-! DEFINITION. One arm for each constructor of `Instr`. -/

namespace Sys2Proof.Machine

/-- The effect of one instruction (R9). -/
def exec (i : Instr) (s : State) : Host.Outcome State Fault Refusal :=
  match i with
  | .pmulhrswMm p rex dst src => Sys2Proof.Machine.execPmulhrswMm p rex dst src s
  | .pmulhrswXmm p rex dst src => Sys2Proof.Machine.execPmulhrswXmm p rex dst src s
  | .vpmulhrswXmm p dst src1 src2 => Sys2Proof.Machine.execVpmulhrswXmm p dst src1 src2 s
  | .vpmulhrswYmm p dst src1 src2 => Sys2Proof.Machine.execVpmulhrswYmm p dst src1 src2 s
  | .vpmulhrswXmmMasked p mask dst src1 src2 => Sys2Proof.Machine.execVpmulhrswXmmMasked p mask dst src1 src2 s
  | .vpmulhrswYmmMasked p mask dst src1 src2 => Sys2Proof.Machine.execVpmulhrswYmmMasked p mask dst src1 src2 s
  | .vpmulhrswZmmMasked p mask dst src1 src2 => Sys2Proof.Machine.execVpmulhrswZmmMasked p mask dst src1 src2 s

end Sys2Proof.Machine
end

