-- ==== Sys2Proof/Machine/Fetch.lean ====
section
/-! DEFINITION. Fetching and decoding the instruction at `pc` (`30_encoding.md` R107, `20_memory.md` R56, R66), and the launch of
a program (`70_reset_and_hazards.md` R230, R231). -/

namespace Sys2Proof.Machine

/-- The linear address of an offset in the code segment (R27; log 8). -/
def State.fetchAddr (s : State) (a : Word) : Word := s.linear .cs a

/-- The bytes from offset `a` on, at most `n`, up to the first whose fetch `MemFault` does not allow; and the exception of that
one, if there is one. Each byte is checked by itself, `k = 1` in R107 (log 8).
The spec says "from `pc` upward" (R107) and gives no rule for instruction bytes past the end of the address space (R61 is about
a memory operand): here the byte after the last one is that at offset 0 (DESIGN CHOICE, log 25). -/
def State.fetchWindow (s : State) : Nat → Word → List Byte × Option Exception
  | 0, _ => ([], none)
  | n + 1, a =>
    match s.memFault .cs (s.fetchAddr a) 1 .fetch with
    | some e => ([], some e)
    | none =>
      let rest := s.fetchWindow n (s.wrapAddr (a + 1))
      (s.mem.read (s.fetchAddr a).toNat :: rest.1, rest.2)

/-- The instruction at `pc`, or why there is none. A byte is fetched only when the decoder asks for it, so a fetch exception
is raised exactly when the decoder needs the byte (R107, R198); more than 15 bytes are #GP(0) (R106). -/
def State.fetchInstr (s : State) : Except Stop Instr :=
  let window := s.fetchWindow maxIlen s.pc
  match decode s.mode window.1 with
  | .ok (i, _) => .ok i
  | .error .ud => raise s .ud
  | .error (.refuse r) => refuse (.notOneOfTheForms r)
  | .error .more => raise s (window.2.getD (.gp 0))

/-- What system software has done before the forms execute (R231, steps 1, 3, 4, 5, 6, 8), in `M64`: the values of `ENV` the
spec calls enabling (`95_test_vectors.md`). -/
def State.launch (s : State) : State :=
  { s with
    mode := .m64
    cr0 := s.cr0 &&& ~~~0xC#32
    cr4 := s.cr4 ||| 0x40200#32
    xcr0 := 0xE7#8
    x87 := { s.x87 with status := s.x87.status &&& ~~~0x80#16 } }

/-- Memory with `bytes` placed where the instruction at offset `a` is fetched. -/
def State.placeCode (s : State) (a : Word) : List Byte → Memory → Memory
  | [], m => m
  | b :: bytes, m => s.placeCode (s.wrapAddr (a + 1)) bytes (m.write (s.fetchAddr a).toNat b)

end Sys2Proof.Machine
end

