-- ==== Sys2Proof/Machine/Step.lean ====
section
/-! DEFINITION. One step of the machine: fetch, decode, execute (R9, R107). -/

namespace Sys2Proof.Machine

/-- One instruction, whole (R9, R202). In a mode the spec does not admit, refused (R3). -/
def step (s : State) : Host.Outcome State Fault Refusal :=
  if s.mode.admitted then
    match s.fetchInstr with
    | .ok i => exec i s
    | .error (.fault f) => .fault f
    | .error (.refused r) => .refused r
  else .refused (.modeNotAdmitted s.mode)

/-- `s` with the instruction of `nbits` bits `w` (a row of the opcode table, zeros after it) where `step` fetches next. A state
whose mode the spec does not admit cannot fetch: it is first set up as R231 says, which stands for the launch of R230
(log 4). Nothing else is changed. -/
def State.withFetchWord (s : State) (nbits w : Nat) : State :=
  let s := if s.mode.admitted then s else s.launch
  { s with mem := s.placeCode s.pc (tableBytes s.mode nbits w) s.mem }

end Sys2Proof.Machine
end

