-- ==== Sys2Proof/Safety.lean ====
section
/-! DEFINITION. What counts as a safe run (R234), and the words the statements use: when a form is enabled and ready, when its
memory operand can be read, what an instruction leaves alone, and the invariant of the machine. They are written from the
spec's tables and not from the checks of the meanings, so that a statement compares the two. -/

namespace Sys2Proof.Machine

/-! ### Runs -/

/-- How a run ends (R234). -/
inductive RunEnd where
  /-- `pc = pc_end` was reached after a `next`: the run succeeded. -/
  | reached (s : State)
  /-- The first fault, and the state in which it was raised. -/
  | faulted (f : Fault) (s : State)
  /-- The first refusal, and the state in which it was met. -/
  | refused (r : Refusal) (s : State)
  /-- The steps allowed are used up. -/
  | running (s : State)
  deriving DecidableEq, Repr

/-- A run towards `pcEnd`, of at most `n` steps (R234): it ends as soon as `pc = pcEnd` after a `next`, without fetching
there, or at the first fault or refusal. -/
def runTo (pcEnd : Word) : Nat → State → RunEnd
  | 0, s => .running s
  | n + 1, s =>
    match step s with
    | .next t => if t.pc = pcEnd then .reached t else runTo pcEnd n t
    | .fault f => .faulted f s
    | .refused r => .refused r s

/-- The run from `s` to `pcEnd` succeeds within `n` steps: no instruction faults and none is refused. -/
def SafeRun (pcEnd : Word) (n : Nat) (s : State) : Prop :=
  ∃ t, runTo pcEnd n s = .reached t

/-! ### When a form is enabled -/

/-- The mode is one of the two the spec admits (R3). -/
abbrev ModeOk (s : State) : Prop := s.mode = .m64 ∨ s.mode = .m32

/-- `XCR0` bits 2:1 are 11 (R31). -/
abbrev AvxEnabled (s : State) : Prop :=
  s.cr4.getLsbD 18 = true ∧ s.xcr0.getLsbD 1 = true ∧ s.xcr0.getLsbD 2 = true

/-- `XCR0` bits 7:5 are 111 as well (R31). -/
abbrev Avx512Enabled (s : State) : Prop :=
  AvxEnabled s ∧ s.xcr0.getLsbD 5 = true ∧ s.xcr0.getLsbD 6 = true ∧ s.xcr0.getLsbD 7 = true

/-- None of the #UD conditions on flags, widths and enable bits holds: step 1 of R194 (forms 2 to 4), R195 (form 1), R196
(forms 5 to 7). -/
def FormEnabled (s : State) : Form → Prop
  | .f1 => s.cfg.ssse3 = true ∧ s.cr0.getLsbD 2 = false
  | .f2 => s.cfg.ssse3 = true ∧ s.cr0.getLsbD 2 = false ∧ s.cr4.getLsbD 9 = true
  | .f3 => s.cfg.avx = true ∧ AvxEnabled s
  | .f4 => s.cfg.avx2 = true ∧ s.cfg.maxvl ≠ .v128 ∧ AvxEnabled s
  | .f5 => s.cfg.avx512f = true ∧ s.cfg.avx512bw = true ∧ s.cfg.avx512vl = true ∧ s.cfg.maxvl = .v512 ∧ Avx512Enabled s
  | .f6 => s.cfg.avx512f = true ∧ s.cfg.avx512bw = true ∧ s.cfg.avx512vl = true ∧ s.cfg.maxvl = .v512 ∧ Avx512Enabled s
  | .f7 => s.cfg.avx512f = true ∧ s.cfg.avx512bw = true ∧ s.cfg.maxvl = .v512 ∧ Avx512Enabled s

/-- The form raises no exception before its operand is read: enabled, `CR0.TS = 0` (step 2), and for form 1 no x87
exception pending (step 3 of R195). -/
def FormReady (s : State) (f : Form) : Prop :=
  ModeOk s ∧ FormEnabled s f ∧ s.cr0.getLsbD 3 = false ∧ (f = .f1 → s.x87.status.getLsbD 7 = false)

/-! ### When a memory operand can be read -/

/-- The memory operand of an instruction, if it has one: its prefixes and its addressing form. -/
def memOperand : Instr → Option (Prefixes × MemAddr)
  | .pmulhrswMm p _ _ (.mem a) => some (p, a)
  | .pmulhrswXmm p _ _ (.mem a) => some (p, a)
  | .vpmulhrswXmm p _ _ (.mem a) => some (p, a)
  | .vpmulhrswYmm p _ _ (.mem a) => some (p, a)
  | .vpmulhrswXmmMasked p _ _ _ (.mem a) => some (p, a)
  | .vpmulhrswYmmMasked p _ _ _ (.mem a) => some (p, a)
  | .vpmulhrswZmmMasked p _ _ _ (.mem a) => some (p, a)
  | _ => none

/-- The bytes of the memory operand, as R51 and the table of R6 give them. -/
def operandBytes : Form → Nat
  | .f1 => 8
  | .f2 => 16
  | .f3 => 16
  | .f4 => 32
  | .f5 => 16
  | .f6 => 32
  | .f7 => 64

/-- Every segment base is a multiple of 64 (R60, D8; log 9). -/
def BasesOk (s : State) : Prop := ∀ x : Seg, (s.segBase x).toNat % 64 = 0

/-- Form `f` raises #GP for a memory operand that is not 16-byte aligned (R53, R54). -/
def NeedsAlign16 (c : Config) (f : Form) : Prop :=
  f = .f2 ∨ ((f = .f3 ∨ f = .f5) ∧ c.align128Vex = .gp)

/-- The operand at `lin` passes the checks made before `MemFault`: bases, alignment where it is required, no wrap. -/
def AddressOk (s : State) (f : Form) (lin : Word) : Prop :=
  BasesOk s ∧ (NeedsAlign16 s.cfg f → lin.toNat % 16 = 0) ∧ lin.toNat + operandBytes f ≤ 2 ^ s.addrBits

/-- Alignment checking applies to form 1 and the address is not a multiple of 8 (R31, R55). -/
def AcViolation (s : State) (f : Form) (lin : Word) : Prop :=
  f = .f1 ∧ s.cr0.getLsbD 18 = true ∧ s.eflags.getLsbD 18 = true ∧ s.cpl = 3 ∧ lin.toNat % 8 ≠ 0

/-- The memory operand of form `f` can be read. -/
def OperandOk (s : State) (f : Form) (p : Prefixes) (ilen : Nat) (a : MemAddr) : Prop :=
  AddressOk s f (s.operandAddr f p ilen a) ∧
  s.memFault (operandSeg p a) (s.operandAddr f p ilen a) (operandBytes f) .read = none ∧
  ¬AcViolation s f (s.operandAddr f p ilen a)

/-- The last operand of an instruction can be read: always, if it is a register. -/
def OperandReady (s : State) (i : Instr) : Prop :=
  match memOperand i with
  | none => True
  | some (p, a) => OperandOk s i.form p i.ilen a

/-- The first part of a faithful `MemFault` (R61) finds nothing: every byte canonical in `M64`; in `M32` every byte within the
segment's limit (offsets not taken modulo 2^32, log 28), and the segment readable. -/
def SegmentAllows (s : State) (x : Seg) (lin : Word) (n : Nat) (kind : AccessKind) : Prop :=
  (s.mode = .m64 → ∀ i < n, canonical (lin + BitVec.ofNat 64 i) = true) ∧
  (s.mode = .m32 →
    (∀ i < n, ((lin - s.segBase x).setWidth 32).toNat + i ≤ (s.segReg x).limit.toNat) ∧
    (kind = .read → (s.segReg x).readable = true))

/-- The byte at `a` lies in the region. -/
def InRegion (r : PageRegion) (a : Word) : Prop := r.first ≤ a.toNat ∧ a.toNat ≤ r.last

/-- Paging does not allow the access to the byte at `a`: the first region that holds it is not present, has a reserved bit, or
is not accessible in this way at the current privilege level (R61, log 6). -/
def PageDenies (s : State) (kind : AccessKind) (a : Word) : Prop :=
  ∃ before r later, s.cfg.pages = before ++ r :: later ∧ (∀ q ∈ before, ¬InRegion q a) ∧ InRegion r a ∧
    (r.present = false ∨ r.reservedBit = true ∨ (r.supervisorOnly = true ∧ s.cpl = 3) ∨
      (kind = .read ∧ s.cpl ∈ r.noRead) ∨ (kind = .fetch ∧ r.noExecute = true))

/-- The linear address of an instruction's memory operand (R60). -/
def instrAddr (s : State) (i : Instr) (p : Prefixes) (a : MemAddr) : Word := s.operandAddr i.form p i.ilen a

/-- Byte `i` of memory as seen from `lin`. -/
def byteAt (s : State) (lin : Word) (i : Nat) : Byte := s.mem.read (lin.toNat + i)

/-- Lane `j` of the last operand of form 1: of the register, or the two bytes at `lin + 2j` and `lin + 2j + 1` (R50, R92). -/
def mmSourceLane (s : State) (p : Prefixes) (ilen : Nat) : Rm 3 → Nat → Lane
  | .reg r, j => lane (s.mmReg r) j
  | .mem a, j =>
    byteAt s (s.operandAddr .f1 p ilen a) (2 * j + 1) ++ byteAt s (s.operandAddr .f1 p ilen a) (2 * j)

/-- Lane `j` of the last operand of forms 2 to 7 (R50, R93, R99, R103). -/
def vecSourceLane (s : State) (f : Form) (p : Prefixes) (ilen : Nat) : Rm 5 → Nat → Lane
  | .reg r, j => lane (s.vec r) j
  | .mem a, j => byteAt s (s.operandAddr f p ilen a) (2 * j + 1) ++ byteAt s (s.operandAddr f p ilen a) (2 * j)

/-- The writemask bit of lane `j`: set, or no writemask (R170). -/
def maskBit (s : State) (mask : Masking) (j : Nat) : Prop :=
  match mask with
  | .noMask => True
  | .merging k => (s.opmask k).getLsbD j = true
  | .zeroing k => (s.opmask k).getLsbD j = true

/-- Lane `j` of the destination of an EVEX form (R170), `x` and `y` being the source lanes and `old` the lane before. -/
def MaskedLaneIs (s : State) (mask : Masking) (j : Nat) (old x y new : Lane) : Prop :=
  (maskBit s mask j → new = mulhrs16 x y) ∧
  (¬maskBit s mask j → (∃ k, mask = .merging k) → new = old) ∧
  (¬maskBit s mask j → (∃ k, mask = .zeroing k) → new = 0)

/-! ### The next instruction's address -/

/-- `pc + ilen` modulo 2^32 in `M32`, modulo 2^64 in `M64` (R28). -/
def pcAfter (s : State) (ilen : Nat) : Word := BitVec.ofNat 64 ((s.pc.toNat + ilen) % 2 ^ s.addrBits)

/-- The address is one `pc` may be set to: in `M64` within the address space and canonical (R28, D24). -/
def PcAfterOk (s : State) (ilen : Nat) : Prop :=
  s.mode = .m64 → s.pc.toNat + ilen < 2 ^ 64 ∧ canonical (pcAfter s ilen) = true

/-! ### Effective addresses as numbers -/

/-- `AS`, the address size in bits (R89, R90). -/
def addrSizeBits (s : State) (p : Prefixes) : Nat :=
  if s.mode = .m64 then (if p.addrSize then 32 else 64) else (if p.addrSize then 16 else 32)

/-- The displacement as a number: `disp8` times `N`, the others as they stand, all signed (R88, R104). -/
def dispInt (n : Nat) : Disp → Int
  | .none => 0
  | .disp8 d => d.toInt * n
  | .disp32 d => d.toInt

/-- The displacement of 16-bit addressing as a number (R90). -/
def dispInt16 (n : Nat) : Disp16 → Int
  | .none => 0
  | .disp8 d => d.toInt * n
  | .disp16 d => d.toInt

/-- The index times `2^scale` as a number (R89). -/
def indexInt (s : State) : Option (BitVec 4 × BitVec 2) → Int
  | none => 0
  | some (i, scale) => (s.gpr i).toNat * 2 ^ scale.toNat

/-- The base sum of 16-bit addressing as a number (R90). -/
def baseSumInt16 (s : State) : Base16 → Int
  | .bxsi => (s.gpr 3).toNat + (s.gpr 6).toNat
  | .bxdi => (s.gpr 3).toNat + (s.gpr 7).toNat
  | .bpsi => (s.gpr 5).toNat + (s.gpr 6).toNat
  | .bpdi => (s.gpr 5).toNat + (s.gpr 7).toNat
  | .si => (s.gpr 6).toNat
  | .di => (s.gpr 7).toNat
  | .bp => (s.gpr 5).toNat
  | .bx => (s.gpr 3).toNat

/-- The sum of R89 and R90 before it is truncated to `AS` bits. -/
def effectiveInt (s : State) (n ilen : Nat) : MemAddr → Int
  | .base b d => (s.gpr b).toNat + dispInt n d
  | .dispOnly d => if s.mode = .m64 then s.pc.toNat + ilen + d.toInt else d.toInt
  | .sib b i d => (s.gpr b).toNat + indexInt s i + dispInt n d
  | .sibNoBase i d => indexInt s i + d.toInt
  | .base16 b d => baseSumInt16 s b + dispInt16 n d
  | .dispOnly16 d => d.toInt

/-! ### The segment of a memory operand -/

/-- The address uses RSP/ESP or RBP/EBP as its base register, or a 16-bit sum with BP (R91, R90). -/
def UsesStackBase (a : MemAddr) : Prop :=
  (∃ b d, a = .base b d ∧ (b = 4#4 ∨ b = 5#4)) ∨ (∃ b i d, a = .sib b i d ∧ (b = 4#4 ∨ b = 5#4)) ∨
  ∃ b d, a = .base16 b d ∧ (b = .bpsi ∨ b = .bpdi ∨ b = .bp)

/-! ### All encodings of an instruction -/

/-- A legacy prefix byte (R107 step 1). -/
def isLegacyPrefix (b : Byte) : Bool :=
  [0x26#8, 0x2E#8, 0x36#8, 0x3E#8, 0x64#8, 0x65#8, 0x66#8, 0x67#8, 0xF0#8, 0xF2#8, 0xF3#8].contains b

/-- A segment-override prefix byte (R84). -/
def isSegmentOverride (b : Byte) : Bool := [0x26#8, 0x2E#8, 0x36#8, 0x3E#8, 0x64#8, 0x65#8].contains b

/-- The addressing form has a SIB byte (R87). -/
def hasSib : MemAddr → Bool
  | .sib .. => true
  | .sibNoBase .. => true
  | _ => false

/-- The `X` bit of REX or VEX names nothing: no SIB byte (R87, log 15). -/
def ignoresX {n : Nat} : Rm n → Bool
  | .reg _ => true
  | .mem a => !hasSib a

/-- The `B` bit names nothing: a memory operand without a base register (R87, log 15). -/
def ignoresB {n : Nat} : Rm n → Bool
  | .mem (.base ..) => false
  | .mem (.sib ..) => false
  | .mem _ => true
  | .reg _ => false

/-- The bits of ModRM, SIB and displacement that name nothing: the scale of an absent index (R87). -/
def rmIgnored {n : Nat} : Rm n → List Byte
  | .mem (.sib _ none d) => 0#8 :: 0xC0#8 :: List.replicate d.len 0#8
  | .mem (.sibNoBase none _) => 0#8 :: 0xC0#8 :: List.replicate 4 0#8
  | src => List.replicate src.len 0#8

/-- The ignored bits of an encoding after its legacy prefixes: `X` and `B` where they name nothing (in `M64`; log 15), `W` of
VEX and EVEX (D17), the scale of an absent index. -/
def ignoredBits (m : Mode) : Instr → List Byte
  | .pmulhrswMm _ rex _ src =>
    (if rex then [0#6 ++ BitVec.ofBool (ignoresX src) ++ BitVec.ofBool (ignoresB src)] else []) ++ [0#8, 0#8, 0#8]
      ++ rmIgnored src
  | .pmulhrswXmm _ rex _ src =>
    (if rex then [0#6 ++ BitVec.ofBool (ignoresX src) ++ BitVec.ofBool (ignoresB src)] else []) ++ [0#8, 0#8, 0#8]
      ++ rmIgnored src
  | .vpmulhrswXmm _ _ _ src => vex src
  | .vpmulhrswYmm _ _ _ src => vex src
  | .vpmulhrswXmmMasked _ _ _ _ src => evex src
  | .vpmulhrswYmmMasked _ _ _ _ src => evex src
  | .vpmulhrswZmmMasked _ _ _ _ src => evex src
where
  vex (src : Rm 5) : List Byte :=
    [0#8, 0#1 ++ BitVec.ofBool (m == .m64 && ignoresX src) ++ BitVec.ofBool (m == .m64 && ignoresB src) ++ 0#5, 0x80#8, 0#8]
      ++ rmIgnored src
  evex (src : Rm 5) : List Byte :=
    [0#8, 0#2 ++ BitVec.ofBool (m == .m64 && ignoresB src) ++ 0#5, 0x80#8, 0#8, 0#8] ++ rmIgnored src

/-- Equal bytes but for the bits set in `mask`; all three of one length. -/
def eqUpTo : (mask xs ys : List Byte) → Bool
  | [], [], [] => true
  | k :: ks, x :: xs, y :: ys => x &&& ~~~k == y &&& ~~~k && eqUpTo ks xs ys
  | _, _, _ => false

/-- The bytes are an encoding of the instruction: `encode i` up to the order of the legacy prefixes and the ignored bits. -/
def IsEncodingOf (m : Mode) (i : Instr) (bytes : List Byte) : Prop :=
  ∃ before later, bytes = before ++ later ∧ before.Perm ((encode i).takeWhile isLegacyPrefix) ∧
    eqUpTo (ignoredBits m i) later ((encode i).dropWhile isLegacyPrefix) = true

/-! ### Code in memory -/

/-- The linear address of byte `k` of the instruction at `pc` (R27, R60; log 8). -/
def codeAddr (s : State) (k : Nat) : Word := s.linear .cs (s.pc + BitVec.ofNat 64 k)

/-- The encoding of `i` stands at `pc` and each of its bytes may be fetched. -/
def CodeAt (s : State) (i : Instr) : Prop :=
  ∀ k (h : k < (encode i).length),
    s.memFault .cs (codeAddr s k) 1 .fetch = none ∧ s.mem.read (codeAddr s k).toNat = (encode i)[k]

/-! ### Frames and the invariant -/

/-- What no form changes (R24, R25, R29, R30, R31, R35, R52): everything but `pc`, `V`, `MM` and the x87 state, and every byte
of memory reads as before. -/
def SameSystem (s t : State) : Prop :=
  t.mode = s.mode ∧ t.g = s.g ∧ t.segs = s.segs ∧ t.eflags = s.eflags ∧ t.k = s.k ∧ t.mxcsr = s.mxcsr ∧
  t.cr0 = s.cr0 ∧ t.cr2 = s.cr2 ∧ t.cr4 = s.cr4 ∧ t.xcr0 = s.xcr0 ∧ t.cpl = s.cpl ∧ t.cfg = s.cfg ∧
  ∀ a, t.mem.read a = s.mem.read a

/-- No bit of a vector register at or above `MAXVL` is set, and registers 16 to 31 hold nothing unless `MAXVL = 512` (R4,
R20). -/
def VectorsExist (s : State) : Prop :=
  ∀ i : BitVec 5, (s.vec i).toNat < 2 ^ maxvlBits s.cfg.maxvl ∧ (s.cfg.maxvl ≠ .v512 → 16 ≤ i.toNat → s.vec i = 0)

/-- `pc` has the width of the mode (R27) and in `M64` is canonical (R28). -/
def PcLegal (s : State) : Prop :=
  (s.mode = .m32 → s.pc.toNat < 2 ^ 32) ∧ (s.mode = .m64 → canonical s.pc = true)

/-- The invariant: memory in its canonical form, vector registers no wider than `MAXVL`, `pc` legal. -/
def Inv (s : State) : Prop := Memory.wf s.mem = true ∧ VectorsExist s ∧ PcLegal s

end Sys2Proof.Machine
end

