-- ==== Sys2Proof/Certificates/Slice0/Obligations.lean ====
section
/-! DEFINITION. The statements for the provers. Each docstring names the rule or the passage of spec/ it formalises. A clause that
rests on a choice of the model names its log entry (notes/assumptions). -/

open Sys2Proof Sys2Proof.Machine

/-! ### The lane and its packing -/

/-- R140, the pseudocode read as arithmetic on numbers: `p32 = p mod 2^32`, `t = (p32 >> 14) + 1 mod 2^32`, result bits 16:1 of
`t`. -/
def Obligations.Mulhrs16FollowsPseudocode : Prop :=
  ∀ a b : Lane,
    (mulhrs16 a b).toNat = ((((a.toInt * b.toInt) % 2 ^ 32).toNat / 2 ^ 14 + 1) % 2 ^ 32) / 2 % 2 ^ 16

/-- The closed form (`40_pmulhrsw_legacy.md` section 1, marked derived there): product scaled by 2^15, rounded half up, low
16 bits. -/
def Obligations.Mulhrs16IsRoundedProduct : Prop :=
  ∀ a b : Lane, mulhrs16 a b = BitVec.ofInt 16 ((a.toInt * b.toInt + 2 ^ 14) / 2 ^ 15)

/-- No saturation; the one pair that overflows is 8000H, 8000H (`40_pmulhrsw_legacy.md` section 1, marked derived there). -/
def Obligations.Mulhrs16OverflowsOnlyAtMinimum : Prop :=
  (∀ a b : Lane,
    (mulhrs16 a b).toInt = (a.toInt * b.toInt + 2 ^ 14) / 2 ^ 15 ↔ ¬(a = 0x8000#16 ∧ b = 0x8000#16)) ∧
  mulhrs16 0x8000#16 0x8000#16 = 0x8000#16

/-- The kind of the shift and the width of the intermediate do not matter (`40_pmulhrsw_legacy.md` section 1, marked derived
there): arithmetic shift of 32 bits, or the 18 most significant bits plus 1. -/
def Obligations.Mulhrs16ShiftKindIrrelevant : Prop :=
  ∀ a b : Lane,
    mulhrs16 a b = ((BitVec.ofInt 32 (a.toInt * b.toInt)).sshiftRight 14 + 1#32).extractLsb' 1 16 ∧
    mulhrs16 a b = ((BitVec.ofInt 32 (a.toInt * b.toInt)).extractLsb' 14 18 + 1#18).extractLsb' 1 16

/-- The function is commutative, 0 annihilates, and 8000H negates (`40_pmulhrsw_legacy.md` section 1, `95_test_vectors.md`
V1). -/
def Obligations.Mulhrs16CommutesAndNegates : Prop :=
  ∀ a b : Lane, mulhrs16 a b = mulhrs16 b a ∧ mulhrs16 a 0#16 = 0#16 ∧ mulhrs16 a 0x8000#16 = -a

/-- R144: every lane of the packed result is the lane function of the two lanes at its place. -/
def Obligations.PackedFunctionIsLanewise : Prop :=
  ∀ n ∈ [4, 8, 16, 32], ∀ (x y : BitVec (16 * n)) (j : Nat), j < n →
    lane (pmulhrs n x y) j = mulhrs16 (lane x j) (lane y j)

/-- Lane `j` of a memory operand is the two bytes at `2j` and `2j + 1`, the lower address the less significant
(`20_memory.md` section 1, general knowledge there). -/
def Obligations.MemoryLanesAreLittleEndian : Prop :=
  ∀ (w : Nat) (m : Memory) (a n j : Nat), 8 * n ≤ w → 2 * j + 1 < n →
    lane (m.readLe w a n) j = m.read (a + 2 * j + 1) ++ m.read (a + 2 * j)

/-! ### What each form computes, and that it completes -/

/-- R145: `MM[d] <- pmulhrs(4, MM[d], src)`, register or memory operand, in both modes; the form completes. -/
def Obligations.PmulhrswMmResult : Prop :=
  ∀ (p : Prefixes) (rex : Bool) (dst : BitVec 3) (src : Rm 3) (s : State),
    FormReady s .f1 → OperandReady s (.pmulhrswMm p rex dst src) →
    PcAfterOk s (Instr.ilen (.pmulhrswMm p rex dst src)) →
    ∃ t, exec (.pmulhrswMm p rex dst src) s = .next t ∧
      t.pc = pcAfter s (Instr.ilen (.pmulhrswMm p rex dst src)) ∧
      ∀ j < 4, lane (t.mmReg dst) j =
        mulhrs16 (lane (s.mmReg dst) j) (mmSourceLane s p (Instr.ilen (.pmulhrswMm p rex dst src)) src j)

/-- R146: `V[d][127:0] <- pmulhrs(8, V[d][127:0], src)`, the bits from 128 up unchanged; the form completes. Its last sentence,
a memory operand that is not 16-byte aligned raises #GP, is the second part, for an operand that no other check stops;
`MisalignedXmmOperandRaisesGp` says it of every operand. -/
def Obligations.PmulhrswXmmResult : Prop :=
  (∀ (p : Prefixes) (rex : Bool) (dst : BitVec 5) (src : Rm 5) (s : State),
    FormReady s .f2 → OperandReady s (.pmulhrswXmm p rex dst src) →
    PcAfterOk s (Instr.ilen (.pmulhrswXmm p rex dst src)) →
    ∃ t, exec (.pmulhrswXmm p rex dst src) s = .next t ∧
      t.pc = pcAfter s (Instr.ilen (.pmulhrswXmm p rex dst src)) ∧
      (∀ j < 8, lane (t.vec dst) j =
        mulhrs16 (lane (s.vec dst) j) (vecSourceLane s .f2 p (Instr.ilen (.pmulhrswXmm p rex dst src)) src j)) ∧
      ∀ b, 128 ≤ b → (t.vec dst).getLsbD b = (s.vec dst).getLsbD b) ∧
  ∀ (p : Prefixes) (rex : Bool) (dst : BitVec 5) (a : MemAddr) (s : State),
    FormReady s .f2 → BasesOk s → (instrAddr s (.pmulhrswXmm p rex dst (.mem a)) p a).toNat % 16 ≠ 0 →
    (instrAddr s (.pmulhrswXmm p rex dst (.mem a)) p a).toNat + 16 ≤ 2 ^ s.addrBits →
    s.memFault (operandSeg p a) (instrAddr s (.pmulhrswXmm p rex dst (.mem a)) p a) 16 .read = none →
      exec (.pmulhrswXmm p rex dst (.mem a)) s = .fault (.generalProtection 0 s.pc)

/-- R160: `V[d] <- zext(pmulhrs(8, V[s1][127:0], src2))`; the form completes. -/
def Obligations.VpmulhrswXmmResult : Prop :=
  ∀ (p : Prefixes) (dst src1 : BitVec 5) (src2 : Rm 5) (s : State),
    FormReady s .f3 → OperandReady s (.vpmulhrswXmm p dst src1 src2) →
    PcAfterOk s (Instr.ilen (.vpmulhrswXmm p dst src1 src2)) →
    ∃ t, exec (.vpmulhrswXmm p dst src1 src2) s = .next t ∧
      t.pc = pcAfter s (Instr.ilen (.vpmulhrswXmm p dst src1 src2)) ∧
      (∀ j < 8, lane (t.vec dst) j =
        mulhrs16 (lane (s.vec src1) j)
          (vecSourceLane s .f3 p (Instr.ilen (.vpmulhrswXmm p dst src1 src2)) src2 j)) ∧
      ∀ b, 128 ≤ b → (t.vec dst).getLsbD b = false

/-- R161: `V[d] <- zext(pmulhrs(16, V[s1][255:0], src2))`; the form completes; it exists only when `MAXVL` is 256 or more. -/
def Obligations.VpmulhrswYmmResult : Prop :=
  (∀ (p : Prefixes) (dst src1 : BitVec 5) (src2 : Rm 5) (s : State),
    FormReady s .f4 → OperandReady s (.vpmulhrswYmm p dst src1 src2) →
    PcAfterOk s (Instr.ilen (.vpmulhrswYmm p dst src1 src2)) →
    ∃ t, exec (.vpmulhrswYmm p dst src1 src2) s = .next t ∧
      t.pc = pcAfter s (Instr.ilen (.vpmulhrswYmm p dst src1 src2)) ∧
      (∀ j < 16, lane (t.vec dst) j =
        mulhrs16 (lane (s.vec src1) j)
          (vecSourceLane s .f4 p (Instr.ilen (.vpmulhrswYmm p dst src1 src2)) src2 j)) ∧
      ∀ b, 256 ≤ b → (t.vec dst).getLsbD b = false) ∧
  ∀ (p : Prefixes) (dst src1 : BitVec 5) (src2 : Rm 5) (s : State), ModeOk s → s.cfg.maxvl = .v128 →
    exec (.vpmulhrswYmm p dst src1 src2) s = .fault (.invalidOpcode s.pc)

/-- R171: eight lanes under the writemask, the bits from 128 up zeroed; the form completes. -/
def Obligations.VpmulhrswXmmMaskedResult : Prop :=
  ∀ (p : Prefixes) (mask : Masking) (dst src1 : BitVec 5) (src2 : Rm 5) (s : State),
    FormReady s .f5 → OperandReady s (.vpmulhrswXmmMasked p mask dst src1 src2) →
    PcAfterOk s (Instr.ilen (.vpmulhrswXmmMasked p mask dst src1 src2)) →
    ∃ t, exec (.vpmulhrswXmmMasked p mask dst src1 src2) s = .next t ∧
      t.pc = pcAfter s (Instr.ilen (.vpmulhrswXmmMasked p mask dst src1 src2)) ∧
      (∀ j < 8, MaskedLaneIs s mask j (lane (s.vec dst) j) (lane (s.vec src1) j)
        (vecSourceLane s .f5 p (Instr.ilen (.vpmulhrswXmmMasked p mask dst src1 src2)) src2 j) (lane (t.vec dst) j)) ∧
      ∀ b, 128 ≤ b → (t.vec dst).getLsbD b = false

/-- R172: sixteen lanes under the writemask, the bits from 256 up zeroed; the form completes. -/
def Obligations.VpmulhrswYmmMaskedResult : Prop :=
  ∀ (p : Prefixes) (mask : Masking) (dst src1 : BitVec 5) (src2 : Rm 5) (s : State),
    FormReady s .f6 → OperandReady s (.vpmulhrswYmmMasked p mask dst src1 src2) →
    PcAfterOk s (Instr.ilen (.vpmulhrswYmmMasked p mask dst src1 src2)) →
    ∃ t, exec (.vpmulhrswYmmMasked p mask dst src1 src2) s = .next t ∧
      t.pc = pcAfter s (Instr.ilen (.vpmulhrswYmmMasked p mask dst src1 src2)) ∧
      (∀ j < 16, MaskedLaneIs s mask j (lane (s.vec dst) j) (lane (s.vec src1) j)
        (vecSourceLane s .f6 p (Instr.ilen (.vpmulhrswYmmMasked p mask dst src1 src2)) src2 j) (lane (t.vec dst) j)) ∧
      ∀ b, 256 ≤ b → (t.vec dst).getLsbD b = false

/-- R173: thirty-two lanes under the writemask; the form completes; it exists only when `MAXVL` is 512. -/
def Obligations.VpmulhrswZmmMaskedResult : Prop :=
  (∀ (p : Prefixes) (mask : Masking) (dst src1 : BitVec 5) (src2 : Rm 5) (s : State),
    FormReady s .f7 → OperandReady s (.vpmulhrswZmmMasked p mask dst src1 src2) →
    PcAfterOk s (Instr.ilen (.vpmulhrswZmmMasked p mask dst src1 src2)) →
    ∃ t, exec (.vpmulhrswZmmMasked p mask dst src1 src2) s = .next t ∧
      t.pc = pcAfter s (Instr.ilen (.vpmulhrswZmmMasked p mask dst src1 src2)) ∧
      ∀ j < 32, MaskedLaneIs s mask j (lane (s.vec dst) j) (lane (s.vec src1) j)
        (vecSourceLane s .f7 p (Instr.ilen (.vpmulhrswZmmMasked p mask dst src1 src2)) src2 j) (lane (t.vec dst) j)) ∧
  ∀ (p : Prefixes) (mask : Masking) (dst src1 : BitVec 5) (src2 : Rm 5) (s : State), ModeOk s → s.cfg.maxvl ≠ .v512 →
    exec (.vpmulhrswZmmMasked p mask dst src1 src2) s = .fault (.invalidOpcode s.pc)

/-- What completing form 1 does to the x87 state (`10_state.md` section 2, general knowledge there; that the model holds x87
state is its choice, log 12): bits 79:64 of the destination's register all ones, top-of-stack 0, tag word all valid, and
nothing else of it. -/
def Obligations.PmulhrswMmX87Effects : Prop :=
  ∀ (p : Prefixes) (rex : Bool) (dst : BitVec 3) (src : Rm 3) (s t : State),
    exec (.pmulhrswMm p rex dst src) s = .next t →
      t.x87.tag = 0#16 ∧
      (∀ b, t.x87.status.getLsbD b = (s.x87.status.getLsbD b && !(decide (11 ≤ b) && decide (b ≤ 13)))) ∧
      ∀ r : BitVec 3, t.x87.upper[r.toNat]'r.isLt = if r = dst then 0xFFFF#16 else s.x87.upper[r.toNat]'r.isLt

/-! ### Frames -/

/-- Form 1 changes its destination, `pc` and the x87 state, and nothing else. -/
def Obligations.PmulhrswMmFrame : Prop :=
  ∀ (p : Prefixes) (rex : Bool) (dst : BitVec 3) (src : Rm 3) (s t : State),
    exec (.pmulhrswMm p rex dst src) s = .next t →
      SameSystem s t ∧ t.v = s.v ∧ ∀ r, r ≠ dst → t.mmReg r = s.mmReg r

/-- Form 2 changes its destination and `pc`, and nothing else. -/
def Obligations.PmulhrswXmmFrame : Prop :=
  ∀ (p : Prefixes) (rex : Bool) (dst : BitVec 5) (src : Rm 5) (s t : State),
    exec (.pmulhrswXmm p rex dst src) s = .next t →
      SameSystem s t ∧ t.mm = s.mm ∧ t.x87 = s.x87 ∧ ∀ r, r ≠ dst → t.vec r = s.vec r

/-- Forms 3 and 4 change their destination and `pc`, and nothing else. -/
def Obligations.VexFrame : Prop :=
  ∀ (p : Prefixes) (dst src1 : BitVec 5) (src2 : Rm 5) (s t : State),
    (exec (.vpmulhrswXmm p dst src1 src2) s = .next t ∨ exec (.vpmulhrswYmm p dst src1 src2) s = .next t) →
      SameSystem s t ∧ t.mm = s.mm ∧ t.x87 = s.x87 ∧ ∀ r, r ≠ dst → t.vec r = s.vec r

/-- Forms 5 to 7 change their destination and `pc`, and nothing else: the opmask registers are part of `SameSystem`. -/
def Obligations.EvexFrame : Prop :=
  ∀ (p : Prefixes) (mask : Masking) (dst src1 : BitVec 5) (src2 : Rm 5) (s t : State),
    (exec (.vpmulhrswXmmMasked p mask dst src1 src2) s = .next t ∨
      exec (.vpmulhrswYmmMasked p mask dst src1 src2) s = .next t ∨
      exec (.vpmulhrswZmmMasked p mask dst src1 src2) s = .next t) →
      SameSystem s t ∧ t.mm = s.mm ∧ t.x87 = s.x87 ∧ ∀ r, r ≠ dst → t.vec r = s.vec r

/-! ### Properties of the masked forms -/

/-- With no writemask, or with mask bits `KL-1:0` all 1, an EVEX form gives the vector registers that the VEX form of the same
width gives, the last operand being the same register or memory at the same address (`42_vpmulhrsw_evex.md` section 1, property
(b), marked derived there). -/
def Obligations.UnmaskedEvexEqualsVex : Prop :=
  ∀ (p p' : Prefixes) (mask : Masking) (dst src1 : BitVec 5) (src2 src2' : Rm 5) (s t u : State),
    let same (i i' : Instr) : Prop := (∃ r, src2 = .reg r ∧ src2' = .reg r) ∨
      ∃ a a', src2 = .mem a ∧ src2' = .mem a' ∧ instrAddr s i p a = instrAddr s i' p' a'
    ((∀ j < 8, maskBit s mask j) →
      same (.vpmulhrswXmmMasked p mask dst src1 src2) (.vpmulhrswXmm p' dst src1 src2') →
      exec (.vpmulhrswXmmMasked p mask dst src1 src2) s = .next t →
      exec (.vpmulhrswXmm p' dst src1 src2') s = .next u → t.v = u.v) ∧
    ((∀ j < 16, maskBit s mask j) →
      same (.vpmulhrswYmmMasked p mask dst src1 src2) (.vpmulhrswYmm p' dst src1 src2') →
      exec (.vpmulhrswYmmMasked p mask dst src1 src2) s = .next t →
      exec (.vpmulhrswYmm p' dst src1 src2') s = .next u → t.v = u.v)

/-- Mask bits at and above `KL` are never read (`42_vpmulhrsw_evex.md` section 1, property (d), marked derived there):
other values in them give the same result. -/
def Obligations.MaskBitsAboveLanesAreIgnored : Prop :=
  ∀ (p : Prefixes) (mask : Masking) (dst src1 : BitVec 5) (src2 : Rm 5) (s t : State) (k' : Vector (BitVec 64) 8),
    let agree (n : Nat) : Prop := ∀ (r : BitVec 3) (j : Nat), j < n →
      (k'[r.toNat]'r.isLt).getLsbD j = (s.opmask r).getLsbD j
    (agree 8 → exec (.vpmulhrswXmmMasked p mask dst src1 src2) s = .next t →
      exec (.vpmulhrswXmmMasked p mask dst src1 src2) { s with k := k' } = .next { t with k := k' }) ∧
    (agree 16 → exec (.vpmulhrswYmmMasked p mask dst src1 src2) s = .next t →
      exec (.vpmulhrswYmmMasked p mask dst src1 src2) { s with k := k' } = .next { t with k := k' }) ∧
    (agree 32 → exec (.vpmulhrswZmmMasked p mask dst src1 src2) s = .next t →
      exec (.vpmulhrswZmmMasked p mask dst src1 src2) { s with k := k' } = .next { t with k := k' })

/-! ### Exceptions -/

/-- Step 1 of the exception tables (`60_exceptions.md` section 1, general knowledge there): a form that is not present or not
enabled raises #UD. -/
def Obligations.DisabledFormRaisesUd : Prop :=
  ∀ (i : Instr) (s : State), ModeOk s → ¬FormEnabled s i.form → exec i s = .fault (.invalidOpcode s.pc)

/-- Step 2 of the exception tables (`60_exceptions.md` section 1, general knowledge there): `CR0.TS = 1` raises #NM. -/
def Obligations.TaskSwitchedRaisesNm : Prop :=
  ∀ (i : Instr) (s : State), ModeOk s → FormEnabled s i.form → s.cr0.getLsbD 3 = true →
    exec i s = .fault (.deviceNotAvailable s.pc)

/-- Step 3 of the table of form 1 (`60_exceptions.md` section 1, general knowledge there): a pending x87 exception raises #MF,
whatever the operand. -/
def Obligations.PendingX87RaisesMf : Prop :=
  ∀ (p : Prefixes) (rex : Bool) (dst : BitVec 3) (src : Rm 3) (s : State),
    ModeOk s → FormEnabled s .f1 → s.cr0.getLsbD 3 = false → s.x87.status.getLsbD 7 = true →
      exec (.pmulhrswMm p rex dst src) s = .fault (.x87Error s.pc)

/-- Form 2 with a memory operand that is not 16-byte aligned raises #GP(0) (`20_memory.md` section 3), whatever `MemFault` says
of it: that the alignment #GP comes before `MemFault`'s #SS, #GP and #PF is the spec's own choice (`60_exceptions.md` section 2,
`92_eei_decisions.md` D10), and that it comes before the refusal of an operand that wraps is the model's reading (log 10). -/
def Obligations.MisalignedXmmOperandRaisesGp : Prop :=
  ∀ (p : Prefixes) (rex : Bool) (dst : BitVec 5) (a : MemAddr) (s : State),
    FormReady s .f2 → BasesOk s → (instrAddr s (.pmulhrswXmm p rex dst (.mem a)) p a).toNat % 16 ≠ 0 →
      exec (.pmulhrswXmm p rex dst (.mem a)) s = .fault (.generalProtection 0 s.pc)

/-- Forms 3 and 5 with a misaligned memory operand raise #GP(0) when the parameter `ALIGN128_VEX` is `gp` (`20_memory.md`
section 3, `92_eei_decisions.md` D5, open). Whatever `MemFault` says of the operand, by the spec's own choice of order
(`60_exceptions.md` section 2, D10), and also if it wraps, by the model's reading (log 10). -/
def Obligations.MisalignedVex128RaisesGpIfConfigured : Prop :=
  ∀ (p : Prefixes) (mask : Masking) (dst src1 : BitVec 5) (a : MemAddr) (s : State),
    s.cfg.align128Vex = .gp → BasesOk s →
      (FormReady s .f3 → (instrAddr s (.vpmulhrswXmm p dst src1 (.mem a)) p a).toNat % 16 ≠ 0 →
        exec (.vpmulhrswXmm p dst src1 (.mem a)) s = .fault (.generalProtection 0 s.pc)) ∧
      (FormReady s .f5 → (instrAddr s (.vpmulhrswXmmMasked p mask dst src1 (.mem a)) p a).toNat % 16 ≠ 0 →
        exec (.vpmulhrswXmmMasked p mask dst src1 (.mem a)) s = .fault (.generalProtection 0 s.pc))

/-- What `MemFault` answers for the whole memory operand, of 8, 16, 32 or 64 bytes (R51), is the outcome, whatever the writemask
(`60_exceptions.md` section 1, `20_memory.md` section 6, general knowledge there); and `MemFault` can be any function of the
type that `92_eei_decisions.md` D7 states (that it is given as a table is the model's form of it, log 6). -/
def Obligations.OperandMemFaultIsTheOutcome : Prop :=
  (∀ fn ∈ [(Form.f1, 8), (.f2, 16), (.f3, 16), (.f4, 32), (.f5, 16), (.f6, 32), (.f7, 64)],
    ∀ (i : Instr) (p : Prefixes) (a : MemAddr) (s : State) (e : Exception),
      i.form = fn.1 → memOperand i = some (p, a) → FormReady s i.form → AddressOk s i.form (instrAddr s i p a) →
      s.memFault (operandSeg p a) (instrAddr s i p a) fn.2 .read = some e → exec i s = .fault (s.takeException e)) ∧
  ∀ f : Seg → Word → Nat → AccessKind → Option AccessFault, ∃ table : List AccessRule,
    ∀ (s : State) (x : Seg) (lin : Word) (n : Nat) (kind : AccessKind), s.cfg.accessTable = some table → n ≤ 64 →
      s.memFault x lin n kind = (f x lin n kind).map exceptionOf

/-- #AC(0) is the last check of form 1 (`60_exceptions.md` section 1, general knowledge there). -/
def Obligations.AlignmentCheckOfMmx : Prop :=
  ∀ (p : Prefixes) (rex : Bool) (dst : BitVec 3) (a : MemAddr) (s : State),
    FormReady s .f1 → AddressOk s .f1 (instrAddr s (.pmulhrswMm p rex dst (.mem a)) p a) →
    s.memFault (operandSeg p a) (instrAddr s (.pmulhrswMm p rex dst (.mem a)) p a) 8 .read = none →
    AcViolation s .f1 (instrAddr s (.pmulhrswMm p rex dst (.mem a)) p a) →
      exec (.pmulhrswMm p rex dst (.mem a)) s = .fault (.alignmentCheck 0 s.pc)

/-- #MF and #AC are raised by form 1 only (`60_exceptions.md` section 1, the inventory; general knowledge there). -/
def Obligations.OnlyMmxRaisesMfOrAc : Prop :=
  ∀ (i : Instr) (s : State) (f : Fault), exec i s = .fault f → (faultVector f = 16 ∨ faultVector f = 17) → i.form = .f1

/-- Every fault saves the address of the faulting instruction, in `exec` and in `step` (`60_exceptions.md` section 1, "What each
exception records", general knowledge there). -/
def Obligations.FaultsSaveTheFaultingPc : Prop :=
  (∀ (i : Instr) (s : State) (f : Fault), exec i s = .fault f → faultSavedPc f = s.pc) ∧
  (∀ (s : State) (f : Fault), step s = .fault f → faultSavedPc f = s.pc)

/-- A faithful `MemFault` in `M64`: an access with a byte that is not canonical faults, #SS through SS and #GP through another
segment (`20_memory.md` section 6, general knowledge there). -/
def Obligations.NonCanonicalAccessFaults : Prop :=
  ∀ (s : State) (x : Seg) (lin : Word) (n i : Nat) (kind : AccessKind),
    s.cfg.accessTable = none → s.mode = .m64 → i < n → canonical (lin + BitVec.ofNat 64 i) = false →
      s.memFault x lin n kind = some (if x = .ss then .ss 0 else .gp 0)

/-- A faithful `MemFault` in `M32`: an access with a byte beyond the segment's limit, or a read through a segment that is not
readable, faults in the same way (`20_memory.md` section 6, general knowledge there; that a byte whose offset passes FFFFFFFFH is beyond
every limit is the model's choice, log 28). -/
def Obligations.SegmentLimitAccessFaults : Prop :=
  ∀ (s : State) (x : Seg) (offset : BitVec 32) (n i : Nat) (kind : AccessKind),
    s.cfg.accessTable = none → s.mode = .m32 → i < n →
    ((s.segReg x).limit.toNat < offset.toNat + i ∨ (kind = .read ∧ (s.segReg x).readable = false)) →
      s.memFault x (s.linear x (offset.setWidth 64)) n kind = some (if x = .ss then .ss 0 else .gp 0)

/-- The page faults of a faithful `MemFault` (`20_memory.md` section 6, `60_exceptions.md` section 1, general knowledge there; the
page regions are the model's, log 6). First, what one carries: a byte of the access, in a region of `cfg.pages`; bit 0 present,
bit 1 zero, bit 2 `CPL = 3`, bit 3 reserved, bit 4 fetch, the rest zero (when bit 3 is 1, that every fetch sets bit 4,
and that bits 31:5 are 0 are the model's choices, log 26). Second,
that one is raised: paging on, no segment violation, a byte whose page denies the access. Third, that nothing else is: no
segment violation, and paging off or no such byte. -/
def Obligations.PageFaultCodeAndAddress : Prop :=
  (∀ (s : State) (x : Seg) (lin : Word) (n : Nat) (kind : AccessKind) (code : BitVec 32) (address : Word),
    s.cfg.accessTable = none → s.memFault x lin n kind = some (.pf code address) →
      s.cfg.paging = true ∧ (∃ i < n, address = lin + BitVec.ofNat 64 i) ∧
      (∃ r ∈ s.cfg.pages, r.first ≤ address.toNat ∧ address.toNat ≤ r.last ∧
        code.getLsbD 0 = r.present ∧ code.getLsbD 3 = (r.present && r.reservedBit)) ∧
      code.getLsbD 1 = false ∧ code.getLsbD 2 = decide (s.cpl = 3) ∧ code.getLsbD 4 = decide (kind = .fetch) ∧
      ∀ b, 5 ≤ b → code.getLsbD b = false) ∧
  (∀ (s : State) (x : Seg) (lin : Word) (n i : Nat) (kind : AccessKind),
    ModeOk s → s.cfg.accessTable = none → s.cfg.paging = true → SegmentAllows s x lin n kind → i < n →
    PageDenies s kind (lin + BitVec.ofNat 64 i) →
      ∃ code address, s.memFault x lin n kind = some (.pf code address)) ∧
  ∀ (s : State) (x : Seg) (lin : Word) (n : Nat) (kind : AccessKind),
    ModeOk s → s.cfg.accessTable = none → SegmentAllows s x lin n kind →
    (s.cfg.paging = false ∨ ∀ i < n, ¬PageDenies s kind (lin + BitVec.ofNat 64 i)) → s.memFault x lin n kind = none

/-- The forms are unprivileged (`60_exceptions.md` section 4, general knowledge there): with paging off and `EFLAGS.AC = 0`, a
completing instruction completes alike at every privilege level. -/
def Obligations.PrivilegeLevelIsInvisible : Prop :=
  ∀ (i : Instr) (s t : State) (c : Fin 4),
    s.cfg.paging = false → s.eflags.getLsbD 18 = false → exec i s = .next t →
      exec i { s with cpl := c } = .next { t with cpl := c }

/-! ### Refusals the spec asks for -/

/-- Modes other than `M64` and `M32` are refused (a decision of the spec, `92_eei_decisions.md` D2). -/
def Obligations.OtherModesAreRefused : Prop :=
  ∀ (i : Instr) (s : State), ¬ModeOk s →
    exec i s = .refused (.modeNotAdmitted s.mode) ∧ step s = .refused (.modeNotAdmitted s.mode)

/-- A segment base that is not a multiple of 64 refuses every memory operand (a decision of the spec, `92_eei_decisions.md` D8;
that the base of ANY segment counts is the model's reading, log 9). -/
def Obligations.UnalignedSegmentBaseRefusesMemory : Prop :=
  ∀ (i : Instr) (p : Prefixes) (a : MemAddr) (s : State),
    memOperand i = some (p, a) → FormReady s i.form → ¬BasesOk s → exec i s = .refused .segmentBaseNotAdmitted

/-- A memory operand of 8, 16, 32 or 64 bytes (R51) that wraps past the end of the address space is refused (`20_memory.md`
section 6; its place after the alignment check is the model's reading, log 10). -/
def Obligations.WrappingOperandIsRefused : Prop :=
  ∀ fn ∈ [(Form.f1, 8), (.f2, 16), (.f3, 16), (.f4, 32), (.f5, 16), (.f6, 32), (.f7, 64)],
    ∀ (i : Instr) (p : Prefixes) (a : MemAddr) (s : State),
      i.form = fn.1 → memOperand i = some (p, a) → FormReady s i.form → BasesOk s →
      (NeedsAlign16 s.cfg i.form → (instrAddr s i p a).toNat % 16 = 0) →
      2 ^ s.addrBits < (instrAddr s i p a).toNat + fn.2 → exec i s = .refused .operandWraps

/-- In `M64` an instruction that would complete is refused when the next address is not canonical or lies past the end of the
address space (a decision of the spec, `92_eei_decisions.md` D24; its place after every other check is the model's reading, log 11). -/
def Obligations.NonCanonicalNextPcIsRefused : Prop :=
  ∀ (i : Instr) (s : State), FormReady s i.form → OperandReady s i → ¬PcAfterOk s i.ilen →
    exec i s = .refused .nextPcNotCanonical

/-! ### Addresses -/

/-- The effective address is the sum of base, scaled index and displacement, 8-bit displacements times `N`, modulo 2 to the
address size, RIP-relative from the next instruction (`30_encoding.md` section 4, general knowledge there); and in the linear
address of an operand `N` is 1 for forms 1 to 4 and 16, 32, 64 for forms 5, 6, 7 (section 6 there). -/
def Obligations.EffectiveAddressIsTheSum : Prop :=
  (∀ (s : State) (p : Prefixes) (n ilen : Nat) (a : MemAddr), ModeOk s → a.wf s.mode p = true →
    ((s.effectiveAddr p n ilen a).toNat : Int) = effectiveInt s n ilen a % 2 ^ addrSizeBits s p) ∧
  ∀ fn ∈ [(Form.f1, 1), (.f2, 1), (.f3, 1), (.f4, 1), (.f5, 16), (.f6, 32), (.f7, 64)],
    ∀ (s : State) (p : Prefixes) (ilen : Nat) (a : MemAddr), ModeOk s → a.wf s.mode p = true →
      s.operandAddr fn.1 p ilen a =
        s.linear (operandSeg p a) (BitVec.ofInt 64 (effectiveInt s fn.2 ilen a % 2 ^ addrSizeBits s p))

/-- The linear address is segment base plus effective address modulo 2^A, the bases of ES, CS, SS and DS being 0 in `M64`
(`20_memory.md` section 6, general knowledge there); the segment is that of the override, else SS when the base register is 4
or 5 or the 16-bit sum uses BP, else DS (`30_encoding.md` section 4, general knowledge there). -/
def Obligations.LinearAddressIsBasePlusEffective : Prop :=
  (∀ (s : State) (x : Seg) (ea : Word),
    (s.mode = .m32 → (s.linear x ea).toNat = ((s.segReg x).base.toNat + ea.toNat) % 2 ^ 32) ∧
    (s.mode = .m64 → (x = .fs ∨ x = .gs) →
      (s.linear x ea).toNat = ((s.segReg x).base.toNat + ea.toNat) % 2 ^ 64) ∧
    (s.mode = .m64 → ¬(x = .fs ∨ x = .gs) → s.linear x ea = ea)) ∧
  ∀ (addrSize : Bool) (a : MemAddr),
    (∀ x, operandSeg ⟨some x, addrSize⟩ a = x) ∧
    (UsesStackBase a → operandSeg ⟨none, addrSize⟩ a = .ss) ∧
    (¬UsesStackBase a → operandSeg ⟨none, addrSize⟩ a = .ds)

/-! ### Decoding and encoding -/

/-- Decoding the encoding of a well-formed instruction gives it back, with the bytes after it left over, for all seven forms
and every operand (`30_encoding.md` sections 2 to 7, general knowledge there). -/
def Obligations.DecodeOfEncode : Prop :=
  ∀ (m : Mode) (i : Instr) (rest : List Byte), i.wf m = true → decode m (encode i ++ rest) = .ok (i, rest)

/-- What the decoder reads is well-formed, and the bytes it consumes are `ilen` bytes that encode it: `encode` of it up to the
order of the legacy prefixes, `W` and the other ignored bits (`30_encoding.md` section 7, general knowledge there; which bits
are ignored is D17 and the model's reading of it, log 15). -/
def Obligations.DecodedIsWellFormedAndConsumed : Prop :=
  ∀ (m : Mode) (bs rest : List Byte) (i : Instr), m.admitted = true → decode m bs = .ok (i, rest) →
    i.wf m = true ∧ ∃ used, bs = used ++ rest ∧ used.length = i.ilen ∧ IsEncodingOf m i used

/-- Fifteen bytes are always enough to decide: the 15-byte limit is out of reach (`30_encoding.md` section 7, general knowledge
there). -/
def Obligations.FifteenBytesDecide : Prop :=
  ∀ (m : Mode) (bs : List Byte), 15 ≤ bs.length → decode m bs ≠ .error .more

/-- Words written out from the spec decode to what they stand for (examples of `95_test_vectors.md`, V2 to V5). -/
def Obligations.SpecWordsDecode : Prop :=
  decode .m64 [0x0F#8, 0x38#8, 0x0B#8, 0xC1#8] =
    .ok (.pmulhrswMm ⟨none, false⟩ false 0#3 (.reg 1#3), []) ∧
  decode .m64 [0x66#8, 0x45#8, 0x0F#8, 0x38#8, 0x0B#8, 0xC1#8] =
    .ok (.pmulhrswXmm ⟨none, false⟩ true 8#5 (.reg 9#5), []) ∧
  decode .m64 [0xC4#8, 0xE2#8, 0x69#8, 0x0B#8, 0xCB#8] =
    .ok (.vpmulhrswXmm ⟨none, false⟩ 1#5 2#5 (.reg 3#5), []) ∧
  decode .m64 [0xC4#8, 0x02#8, 0x2D#8, 0x0B#8, 0x4C#8, 0x48#8, 0x40#8] =
    .ok (.vpmulhrswYmm ⟨none, false⟩ 9#5 10#5 (.mem (.sib 8#4 (some (9#4, 1#2)) (.disp8 0x40#8))), []) ∧
  decode .m64 [0x62#8, 0x82#8, 0x0D#8, 0x40#8, 0x0B#8, 0xC9#8] =
    .ok (.vpmulhrswZmmMasked ⟨none, false⟩ .noMask 17#5 30#5 (.reg 25#5), [])

/-- LOCK before any form, in any place among its legacy prefixes, decodes to #UD (`30_encoding.md` sections 3 and 8, general
knowledge there); `StepRunsTheDecodedInstr` says that the step then raises it. -/
def Obligations.LockRaisesUd : Prop :=
  ∀ (m : Mode) (i : Instr) (before later rest : List Byte), i.wf m = true → encode i = before ++ later →
    (∀ x ∈ before, isLegacyPrefix x = true) → decode m (before ++ 0xF0#8 :: (later ++ rest)) = .error .ud

/-- 66H, F2H or F3H before a VEX or EVEX encoding, in any place among its legacy prefixes, decodes to #UD, and so does a REX
byte in `M64` between those prefixes and the C4H or 62H byte, whatever follows (`30_encoding.md` section 5, general knowledge
there); `StepRunsTheDecodedInstr` says that the step then raises it. -/
def Obligations.PrefixBeforeVexRaisesUd : Prop :=
  (∀ (m : Mode) (i : Instr) (before later rest : List Byte) (b : Byte), i.wf m = true → i.form ≠ .f1 → i.form ≠ .f2 →
    encode i = before ++ later → (∀ x ∈ before, isLegacyPrefix x = true) → b ∈ [0x66#8, 0xF2#8, 0xF3#8] →
      decode m (before ++ b :: (later ++ rest)) = .error .ud) ∧
  ∀ (p : Prefixes) (rex b : Byte) (bs : List Byte), rex.extractLsb' 4 4 = 4#4 → (b = 0xC4#8 ∨ b = 0x62#8) →
    decode .m64 (p.bytes ++ rex :: b :: bs) = .error .ud

/-- The encodings near the seven forms that are refused, each by its name (decisions of the spec, the table of
`30_encoding.md` section 8, `92_eei_decisions.md` D15 and D17): F2H or F3H before form 1 or 2; a repeated prefix or two segment
overrides; REX.W; REX.R, or REX.B with a register operand, on form 1 (after ModRM and displacement: the model's choice, log 27);
C5H (log 14); LES and BOUND; the register-extension bits in `M32`; other VEX and EVEX opcodes (that an EVEX opcode byte other
than 0BH is refused whatever its payload is the model's reading, log 14); an EVEX memory operand without SIB and with `X` (its
place is the model's choice, log 27); and first bytes that begin none of the encodings. -/
def Obligations.NeighbouringEncodingsAreRefused : Prop :=
  (∀ (m : Mode) (i : Instr) (before later rest : List Byte) (b : Byte), i.wf m = true → (i.form = .f1 ∨ i.form = .f2) →
    encode i = before ++ later → (∀ x ∈ before, isLegacyPrefix x = true) → (b = 0xF2#8 ∨ b = 0xF3#8) →
    decode m (before ++ b :: (later ++ rest)) = .error (.refuse .repeatBeforeLegacy)) ∧
  (∀ (m : Mode) (b c : Byte) (mid bs : List Byte), isLegacyPrefix b = true → (∀ x ∈ mid, isLegacyPrefix x = true) →
    (b = c ∨ (isSegmentOverride b = true ∧ isSegmentOverride c = true)) →
    decode m (b :: (mid ++ c :: bs)) = .error (.refuse .repeatedPrefix) ∨
      decode m (b :: (mid ++ c :: bs)) = .error (.refuse .twoSegmentOverrides)) ∧
  (∀ (p : Prefixes) (opSize : Bool) (rex : Byte) (bs : List Byte), rex.extractLsb' 4 4 = 4#4 → rex.getLsbD 3 = true →
    decode .m64 (p.bytes ++ ((if opSize then [0x66#8] else []) ++ rex :: 0x0F#8 :: 0x38#8 :: 0x0B#8 :: bs)) =
      .error (.refuse .rexW)) ∧
  (∀ (p : Prefixes) (rex : Byte) (dst : BitVec 3) (src : Rm 3) (rest : List Byte), rex.extractLsb' 4 4 = 4#4 →
    rex.getLsbD 3 = false → src.wf .m64 p (fun _ => true) = true →
    (rex.getLsbD 2 = true ∨ (rex.getLsbD 0 = true ∧ ∃ r, src = .reg r)) →
    decode .m64 (p.bytes ++ (rex :: 0x0F#8 :: 0x38#8 :: 0x0B#8 :: (src.bytes dst ++ rest))) =
      .error (.refuse .rexOnMmxRegister)) ∧
  (∀ (m : Mode) (bs : List Byte), decode m (0xC5#8 :: bs) = .error (.refuse .twoByteVex)) ∧
  (∀ (b1 : Byte) (bs : List Byte), b1.extractLsb' 6 2 ≠ 3#2 →
    decode .m32 (0xC4#8 :: b1 :: bs) = .error (.refuse .les) ∧ decode .m32 (0x62#8 :: b1 :: bs) = .error (.refuse .bound)) ∧
  (∀ (m : Mode) (b1 b2 op : Byte) (bs : List Byte), (m = .m64 ∨ (m = .m32 ∧ b1.extractLsb' 6 2 = 3#2)) →
    (¬(b1.extractLsb' 0 5 = 2#5 ∧ b2.extractLsb' 0 2 = 1#2 ∧ op = 0x0B#8) →
      decode m (0xC4#8 :: b1 :: b2 :: op :: bs) = .error (.refuse .otherVex)) ∧
    (m = .m32 → b1.extractLsb' 0 5 = 2#5 → b2.extractLsb' 0 2 = 1#2 → op = 0x0B#8 →
      (b1.getLsbD 5 = false ∨ b2.getLsbD 6 = false) →
      decode m (0xC4#8 :: b1 :: b2 :: op :: bs) = .error (.refuse .extensionBitInM32))) ∧
  (∀ (m : Mode) (p0 p1 p2 op : Byte) (bs : List Byte), (m = .m64 ∨ (m = .m32 ∧ p0.extractLsb' 6 2 = 3#2)) →
    (op ≠ 0x0B#8 → decode m (0x62#8 :: p0 :: p1 :: p2 :: op :: bs) = .error (.refuse .otherEvex)) ∧
    (op = 0x0B#8 → p0.extractLsb' 2 2 = 0#2 → p1.getLsbD 2 = true → p0.extractLsb' 0 2 ≠ 0#2 →
      (p0.extractLsb' 0 2 ≠ 2#2 ∨ p1.extractLsb' 0 2 ≠ 1#2) →
      decode m (0x62#8 :: p0 :: p1 :: p2 :: op :: bs) = .error (.refuse .otherEvex)) ∧
    (op = 0x0B#8 → p0.extractLsb' 0 4 = 2#4 → p1.extractLsb' 0 3 = 5#3 → p2.extractLsb' 5 2 ≠ 3#2 →
      p2.getLsbD 4 = false → ¬(p2.extractLsb' 0 3 = 0#3 ∧ p2.getLsbD 7 = true) →
      (m = .m32 → p2.getLsbD 3 = true → (p0.getLsbD 5 = false ∨ p0.getLsbD 4 = false ∨ p1.getLsbD 6 = false) →
        decode m (0x62#8 :: p0 :: p1 :: p2 :: op :: bs) = .error (.refuse .extensionBitInM32)) ∧
      (m = .m64 → p0.getLsbD 6 = false → ∀ (reg : BitVec 3) (a : MemAddr), a.wf .m64 ⟨none, false⟩ = true →
        hasSib a = false →
        decode m (0x62#8 :: p0 :: p1 :: p2 :: op :: (a.bytes reg ++ bs)) = .error (.refuse .evexIndexBitUnused)))) ∧
  (∀ (m : Mode) (b : Byte) (bs : List Byte), isLegacyPrefix b = false → (m = .m64 → b.extractLsb' 4 4 ≠ 4#4) →
    b ∉ [0x0F#8, 0x62#8, 0xC4#8, 0xC5#8] → decode m (b :: bs) = .error (.refuse .otherInstruction)) ∧
  (∀ (m : Mode) (b c : Byte) (bs : List Byte), (b ≠ 0x38#8 ∨ (b = 0x38#8 ∧ c ≠ 0x0B#8)) →
    decode m (0x0F#8 :: b :: c :: bs) = .error (.refuse .otherInstruction)) ∧
  ∀ (rex b : Byte) (bs : List Byte), rex.extractLsb' 4 4 = 4#4 → b ∉ [0x0F#8, 0x62#8, 0xC4#8, 0xC5#8] →
    decode .m64 (rex :: b :: bs) = .error (.refuse .otherInstruction)

/-- The `W` bit of VEX and EVEX is ignored, on any bytes (`30_encoding.md` sections 5 and 6, general knowledge there). -/
def Obligations.VexAndEvexWAreIgnored : Prop :=
  ∀ (m : Mode) (b0 b1 b2 : Byte) (bs : List Byte),
    decode m (0xC4#8 :: b0 :: b1 :: bs) = decode m (0xC4#8 :: b0 :: (b1 ^^^ 0x80#8) :: bs) ∧
    decode m (0x62#8 :: b0 :: b1 :: b2 :: bs) = decode m (0x62#8 :: b0 :: (b1 ^^^ 0x80#8) :: b2 :: bs)

/-- The reserved EVEX encodings of this instruction decode to #UD, and in `M32` so does the inverted `V'` bit at 0
(`30_encoding.md` section 6, general knowledge there); `StepRunsTheDecodedInstr` says that the step then raises it. In `M32` also for payloads whose register-extension bits are not
canonical: that these checks come before the refusal of those bits is the model's reading (log 14). -/
def Obligations.ReservedEvexRaisesUd : Prop :=
  ∀ (m : Mode) (p0 p1 p2 : Byte) (bs : List Byte), (m = .m64 ∨ (m = .m32 ∧ p0.extractLsb' 6 2 = 3#2)) →
    (p0.extractLsb' 2 2 ≠ 0#2 ∨ p1.getLsbD 2 = false ∨ p0.extractLsb' 0 2 = 0#2 ∨
      (p0.extractLsb' 0 2 = 2#2 ∧ p1.extractLsb' 0 2 = 1#2 ∧
        (p2.extractLsb' 5 2 = 3#2 ∨ p2.getLsbD 4 = true ∨ (p2.extractLsb' 0 3 = 0#3 ∧ p2.getLsbD 7 = true) ∨
          (m = .m32 ∧ p2.getLsbD 3 = false)))) →
      decode m (0x62#8 :: p0 :: p1 :: p2 :: 0x0B#8 :: bs) = .error .ud

/-! ### Steps and runs -/

/-- What a step does with the decoder's answer on the bytes that can be fetched from `pc` on (`30_encoding.md` section 7): `exec`
of the instruction, nothing added around it; #UD; the refusal, by its name; and where the decoder asks for a byte that cannot
be fetched, the exception of that fetch. (That the bytes are checked one by one is the model's reading, log 8.) -/
def Obligations.StepRunsTheDecodedInstr : Prop :=
  ∀ (s : State), ModeOk s →
    (∀ (i : Instr) (rest : List Byte), decode s.mode (s.fetchWindow maxIlen s.pc).1 = .ok (i, rest) → step s = exec i s) ∧
    (decode s.mode (s.fetchWindow maxIlen s.pc).1 = .error .ud → step s = .fault (.invalidOpcode s.pc)) ∧
    (∀ r : DecodeRefusal, decode s.mode (s.fetchWindow maxIlen s.pc).1 = .error (.refuse r) →
      step s = .refused (.notOneOfTheForms r)) ∧
    (∀ e : Exception, decode s.mode (s.fetchWindow maxIlen s.pc).1 = .error .more →
      (s.fetchWindow maxIlen s.pc).2 = some e → step s = .fault (s.takeException e))

/-- When the encoding of a well-formed instruction stands in memory at `pc` and may be fetched, the step runs that instruction,
whatever bytes follow and whether or not they may be fetched (`30_encoding.md` section 7; the fetch of one byte at a time at
the code segment's base plus `pc` is the model's reading, log 8, and that the bytes of an instruction that straddles the end
of the address space go on at offset 0 is its choice, log 25). -/
def Obligations.StepRunsTheEncodedInstr : Prop :=
  ∀ (s : State) (i : Instr), i.wf s.mode = true → CodeAt s i → step s = exec i s

/-- A fault on fetching a byte that the decoder asks for comes before everything else (`60_exceptions.md` section 2,
`30_encoding.md` section 7, general knowledge there): on the first byte; and on byte `k`, when the `k` bytes before it may be
fetched and do not decide. That each byte is checked by itself, at the code segment's base plus `pc + k`, is the model's reading
(log 8), and that past the end of the address space these are the bytes from offset 0 on is its choice (log 25). -/
def Obligations.FetchFaultComesFirst : Prop :=
  (∀ (s : State) (e : Exception), ModeOk s → s.memFault .cs (codeAddr s 0) 1 .fetch = some e →
    step s = .fault (s.takeException e)) ∧
  ∀ (s : State) (e : Exception) (k : Nat), ModeOk s → k < 15 →
    (∀ j < k, s.memFault .cs (codeAddr s j) 1 .fetch = none) →
    decode s.mode ((List.range k).map fun j => s.mem.read (codeAddr s j).toNat) = .error .more →
    s.memFault .cs (codeAddr s k) 1 .fetch = some e → step s = .fault (s.takeException e)

/-- A step that completes advances `pc` by the length of the well-formed instruction it ran, 4 to 13 bytes
(`10_state.md` section 5, `30_encoding.md` section 7, general knowledge there). -/
def Obligations.StepAdvancesPcByLength : Prop :=
  ∀ s t : State, step s = .next t →
    ∃ i : Instr, i.wf s.mode = true ∧ exec i s = .next t ∧ t.pc = pcAfter s i.ilen ∧ 4 ≤ i.ilen ∧ i.ilen ≤ 13

/-- The frame of a whole step (`10_state.md` section 10, marked derived there): one register of one file and `pc`, with the x87
state where an MMX register is written; all the rest, memory too, as before. -/
def Obligations.StepChangesOneRegister : Prop :=
  ∀ s t : State, step s = .next t →
    SameSystem s t ∧
    ((t.mm = s.mm ∧ t.x87 = s.x87 ∧ ∃ d, ∀ r, r ≠ d → t.vec r = s.vec r) ∨
     (t.v = s.v ∧ ∃ d, ∀ r, r ≠ d → t.mmReg r = s.mmReg r))

/-- Every step keeps the invariant: memory canonical, no vector bit at or above `MAXVL`, `pc` of the mode's width and canonical
(the canonical form and the 512-bit storage are the model's, log 5 and 19). -/
def Obligations.StepKeepsInvariant : Prop :=
  ∀ s t : State, Inv s → step s = .next t → Inv t

/-- The invariant holds right after reset (log 1, 2, 3). -/
def Obligations.ResetHasInvariant : Prop := Inv State.reset

/-- A run that ends successfully leaves memory, the general, opmask, segment and control registers as launched, and has `pc` at
the end address (`70_reset_and_hazards.md` section 5, `20_memory.md` sections 2 and 7). -/
def Obligations.SuccessfulRunChangesNoMemory : Prop :=
  ∀ (pcEnd : Word) (n : Nat) (s t : State), runTo pcEnd n s = .reached t → SameSystem s t ∧ t.pc = pcEnd

/-! ### Reset and launch -/

/-- The values the spec lists for power-up and RESET, for information (`10_state.md` section 11, general knowledge there; the
model takes them as its reset values, log 1). -/
def Obligations.ResetValues : Prop :=
  State.reset.mode = .realAddress ∧ State.reset.pc = 0xFFF0#64 ∧ State.reset.eflags = 2#32 ∧
  State.reset.cr0 = 0x60000010#32 ∧ State.reset.cr4 = 0#32 ∧ State.reset.xcr0 = 1#8 ∧ State.reset.mxcsr = 0x1F80#32 ∧
  State.reset.cpl = 0 ∧ State.reset.x87.tag = 0x5555#16 ∧
  (State.reset.segReg .cs).selector = 0xF000#16 ∧ (State.reset.segReg .cs).base = 0xFFFF0000#64 ∧
  (∀ i, State.reset.vec i = 0) ∧ (∀ i, State.reset.mmReg i = 0) ∧ (∀ i, State.reset.opmask i = 0) ∧
  (∀ i, i ≠ 2#4 → State.reset.gpr i = 0)

/-- With the control registers as after reset every form except form 1 raises #UD (`10_state.md` section 11, general knowledge
there; the reset values are those of log 1). -/
def Obligations.ResetDisablesAllButMmx : Prop :=
  ∀ (i : Instr) (m : Mode), m.admitted = true → i.form ≠ .f1 →
    exec i { State.reset with mode := m } = .fault (.invalidOpcode 0xFFF0#64)

/-- After the set-up of system software every form the processor has is ready (`70_reset_and_hazards.md` section 2, general
knowledge there; the set-up is `State.launch`, log 4). -/
def Obligations.LaunchMakesFormsReady : Prop :=
  ∀ (f : Form) (s : State), formPresent s.cfg f = true → FormReady s.launch f
end

