-- ==== Sys2Proof/Laws/State.lean ====
section
/-! SUPPORT. One lemma for each field and each update of the state, and the register reads after a register write. -/

namespace Sys2Proof.Machine

variable (s : State)

/-! ### `setPc` -/

@[simp] theorem State.setPc_mode (a : Word) : (s.setPc a).mode = s.mode := rfl
@[simp] theorem State.setPc_g (a : Word) : (s.setPc a).g = s.g := rfl
@[simp] theorem State.setPc_segs (a : Word) : (s.setPc a).segs = s.segs := rfl
@[simp] theorem State.setPc_eflags (a : Word) : (s.setPc a).eflags = s.eflags := rfl
@[simp] theorem State.setPc_mm (a : Word) : (s.setPc a).mm = s.mm := rfl
@[simp] theorem State.setPc_x87 (a : Word) : (s.setPc a).x87 = s.x87 := rfl
@[simp] theorem State.setPc_v (a : Word) : (s.setPc a).v = s.v := rfl
@[simp] theorem State.setPc_k (a : Word) : (s.setPc a).k = s.k := rfl
@[simp] theorem State.setPc_mxcsr (a : Word) : (s.setPc a).mxcsr = s.mxcsr := rfl
@[simp] theorem State.setPc_cr0 (a : Word) : (s.setPc a).cr0 = s.cr0 := rfl
@[simp] theorem State.setPc_cr2 (a : Word) : (s.setPc a).cr2 = s.cr2 := rfl
@[simp] theorem State.setPc_cr4 (a : Word) : (s.setPc a).cr4 = s.cr4 := rfl
@[simp] theorem State.setPc_xcr0 (a : Word) : (s.setPc a).xcr0 = s.xcr0 := rfl
@[simp] theorem State.setPc_cpl (a : Word) : (s.setPc a).cpl = s.cpl := rfl
@[simp] theorem State.setPc_cfg (a : Word) : (s.setPc a).cfg = s.cfg := rfl
@[simp] theorem State.setPc_mem (a : Word) : (s.setPc a).mem = s.mem := rfl

/-! ### `setMm` -/

@[simp] theorem State.setMm_mode (i : BitVec 3) (x : BitVec 64) : (s.setMm i x).mode = s.mode := rfl
@[simp] theorem State.setMm_pc (i : BitVec 3) (x : BitVec 64) : (s.setMm i x).pc = s.pc := rfl
@[simp] theorem State.setMm_g (i : BitVec 3) (x : BitVec 64) : (s.setMm i x).g = s.g := rfl
@[simp] theorem State.setMm_segs (i : BitVec 3) (x : BitVec 64) : (s.setMm i x).segs = s.segs := rfl
@[simp] theorem State.setMm_eflags (i : BitVec 3) (x : BitVec 64) : (s.setMm i x).eflags = s.eflags := rfl
@[simp] theorem State.setMm_x87 (i : BitVec 3) (x : BitVec 64) : (s.setMm i x).x87 = s.x87 := rfl
@[simp] theorem State.setMm_v (i : BitVec 3) (x : BitVec 64) : (s.setMm i x).v = s.v := rfl
@[simp] theorem State.setMm_k (i : BitVec 3) (x : BitVec 64) : (s.setMm i x).k = s.k := rfl
@[simp] theorem State.setMm_mxcsr (i : BitVec 3) (x : BitVec 64) : (s.setMm i x).mxcsr = s.mxcsr := rfl
@[simp] theorem State.setMm_cr0 (i : BitVec 3) (x : BitVec 64) : (s.setMm i x).cr0 = s.cr0 := rfl
@[simp] theorem State.setMm_cr2 (i : BitVec 3) (x : BitVec 64) : (s.setMm i x).cr2 = s.cr2 := rfl
@[simp] theorem State.setMm_cr4 (i : BitVec 3) (x : BitVec 64) : (s.setMm i x).cr4 = s.cr4 := rfl
@[simp] theorem State.setMm_xcr0 (i : BitVec 3) (x : BitVec 64) : (s.setMm i x).xcr0 = s.xcr0 := rfl
@[simp] theorem State.setMm_cpl (i : BitVec 3) (x : BitVec 64) : (s.setMm i x).cpl = s.cpl := rfl
@[simp] theorem State.setMm_cfg (i : BitVec 3) (x : BitVec 64) : (s.setMm i x).cfg = s.cfg := rfl
@[simp] theorem State.setMm_mem (i : BitVec 3) (x : BitVec 64) : (s.setMm i x).mem = s.mem := rfl

/-! ### `setVec` -/

@[simp] theorem State.setVec_mode (i : BitVec 5) (x : VReg) : (s.setVec i x).mode = s.mode := rfl
@[simp] theorem State.setVec_pc (i : BitVec 5) (x : VReg) : (s.setVec i x).pc = s.pc := rfl
@[simp] theorem State.setVec_g (i : BitVec 5) (x : VReg) : (s.setVec i x).g = s.g := rfl
@[simp] theorem State.setVec_segs (i : BitVec 5) (x : VReg) : (s.setVec i x).segs = s.segs := rfl
@[simp] theorem State.setVec_eflags (i : BitVec 5) (x : VReg) : (s.setVec i x).eflags = s.eflags := rfl
@[simp] theorem State.setVec_mm (i : BitVec 5) (x : VReg) : (s.setVec i x).mm = s.mm := rfl
@[simp] theorem State.setVec_x87 (i : BitVec 5) (x : VReg) : (s.setVec i x).x87 = s.x87 := rfl
@[simp] theorem State.setVec_k (i : BitVec 5) (x : VReg) : (s.setVec i x).k = s.k := rfl
@[simp] theorem State.setVec_mxcsr (i : BitVec 5) (x : VReg) : (s.setVec i x).mxcsr = s.mxcsr := rfl
@[simp] theorem State.setVec_cr0 (i : BitVec 5) (x : VReg) : (s.setVec i x).cr0 = s.cr0 := rfl
@[simp] theorem State.setVec_cr2 (i : BitVec 5) (x : VReg) : (s.setVec i x).cr2 = s.cr2 := rfl
@[simp] theorem State.setVec_cr4 (i : BitVec 5) (x : VReg) : (s.setVec i x).cr4 = s.cr4 := rfl
@[simp] theorem State.setVec_xcr0 (i : BitVec 5) (x : VReg) : (s.setVec i x).xcr0 = s.xcr0 := rfl
@[simp] theorem State.setVec_cpl (i : BitVec 5) (x : VReg) : (s.setVec i x).cpl = s.cpl := rfl
@[simp] theorem State.setVec_cfg (i : BitVec 5) (x : VReg) : (s.setVec i x).cfg = s.cfg := rfl
@[simp] theorem State.setVec_mem (i : BitVec 5) (x : VReg) : (s.setVec i x).mem = s.mem := rfl

/-! ### `mmxTransition` -/

@[simp] theorem State.mmxTransition_mode (d : BitVec 3) : (s.mmxTransition d).mode = s.mode := rfl
@[simp] theorem State.mmxTransition_pc (d : BitVec 3) : (s.mmxTransition d).pc = s.pc := rfl
@[simp] theorem State.mmxTransition_g (d : BitVec 3) : (s.mmxTransition d).g = s.g := rfl
@[simp] theorem State.mmxTransition_segs (d : BitVec 3) : (s.mmxTransition d).segs = s.segs := rfl
@[simp] theorem State.mmxTransition_eflags (d : BitVec 3) : (s.mmxTransition d).eflags = s.eflags := rfl
@[simp] theorem State.mmxTransition_mm (d : BitVec 3) : (s.mmxTransition d).mm = s.mm := rfl
@[simp] theorem State.mmxTransition_v (d : BitVec 3) : (s.mmxTransition d).v = s.v := rfl
@[simp] theorem State.mmxTransition_k (d : BitVec 3) : (s.mmxTransition d).k = s.k := rfl
@[simp] theorem State.mmxTransition_mxcsr (d : BitVec 3) : (s.mmxTransition d).mxcsr = s.mxcsr := rfl
@[simp] theorem State.mmxTransition_cr0 (d : BitVec 3) : (s.mmxTransition d).cr0 = s.cr0 := rfl
@[simp] theorem State.mmxTransition_cr2 (d : BitVec 3) : (s.mmxTransition d).cr2 = s.cr2 := rfl
@[simp] theorem State.mmxTransition_cr4 (d : BitVec 3) : (s.mmxTransition d).cr4 = s.cr4 := rfl
@[simp] theorem State.mmxTransition_xcr0 (d : BitVec 3) : (s.mmxTransition d).xcr0 = s.xcr0 := rfl
@[simp] theorem State.mmxTransition_cpl (d : BitVec 3) : (s.mmxTransition d).cpl = s.cpl := rfl
@[simp] theorem State.mmxTransition_cfg (d : BitVec 3) : (s.mmxTransition d).cfg = s.cfg := rfl
@[simp] theorem State.mmxTransition_mem (d : BitVec 3) : (s.mmxTransition d).mem = s.mem := rfl

@[simp] theorem State.setPc_pc (a : Word) : (s.setPc a).pc = a := rfl

@[simp] theorem State.setMm_mm (i : BitVec 3) (x : BitVec 64) : (s.setMm i x).mm = s.mm.set i.toNat x i.isLt := rfl

@[simp] theorem State.setVec_v (i : BitVec 5) (x : VReg) : (s.setVec i x).v = s.v.set i.toNat x i.isLt := rfl

@[simp] theorem State.mmxTransition_x87 (d : BitVec 3) : (s.mmxTransition d).x87 =
    { upper := s.x87.upper.set d.toNat 0xFFFF#16 d.isLt, status := s.x87.status &&& ~~~0x3800#16, tag := 0 } := rfl

/-! ### Register reads after a write -/

theorem State.vec_setVec (i j : BitVec 5) (x : VReg) : (s.setVec i x).vec j = if i = j then x else s.vec j := by
  simp [State.vec, Vector.getElem_set, BitVec.toNat_inj]

@[simp] theorem State.vec_setVec_same (i : BitVec 5) (x : VReg) : (s.setVec i x).vec i = x := by
  simp [State.vec_setVec]

theorem State.vec_setVec_of_ne {i j : BitVec 5} (h : i ≠ j) (x : VReg) : (s.setVec i x).vec j = s.vec j := by
  simp [State.vec_setVec, h]

theorem State.mmReg_setMm (i j : BitVec 3) (x : BitVec 64) : (s.setMm i x).mmReg j = if i = j then x else s.mmReg j := by
  simp [State.mmReg, Vector.getElem_set, BitVec.toNat_inj]

@[simp] theorem State.mmReg_setMm_same (i : BitVec 3) (x : BitVec 64) : (s.setMm i x).mmReg i = x := by
  simp [State.mmReg_setMm]

theorem State.mmReg_setMm_of_ne {i j : BitVec 3} (h : i ≠ j) (x : BitVec 64) : (s.setMm i x).mmReg j = s.mmReg j := by
  simp [State.mmReg_setMm, h]

@[simp] theorem State.vec_setPc (a : Word) (i : BitVec 5) : (s.setPc a).vec i = s.vec i := rfl
@[simp] theorem State.vec_setMm (j : BitVec 3) (x : BitVec 64) (i : BitVec 5) : (s.setMm j x).vec i = s.vec i := rfl
@[simp] theorem State.vec_mmxTransition (d : BitVec 3) (i : BitVec 5) : (s.mmxTransition d).vec i = s.vec i := rfl
@[simp] theorem State.mmReg_setPc (a : Word) (i : BitVec 3) : (s.setPc a).mmReg i = s.mmReg i := rfl
@[simp] theorem State.mmReg_setVec (j : BitVec 5) (x : VReg) (i : BitVec 3) : (s.setVec j x).mmReg i = s.mmReg i := rfl
@[simp] theorem State.mmReg_mmxTransition (d i : BitVec 3) : (s.mmxTransition d).mmReg i = s.mmReg i := rfl

/-- A legacy write is a write of the whole register with the bits from 128 up taken from before. -/
theorem State.setXmmKeep_eq (i : BitVec 5) (x : BitVec 128) :
    s.setXmmKeep i x = s.setVec i ((s.vec i).extractLsb' 128 384 ++ x) := rfl

/-- A VEX or EVEX write is a write of the whole register with zeros above. -/
theorem State.setVecZero_eq {w : Nat} (i : BitVec 5) (x : BitVec w) : s.setVecZero i x = s.setVec i (x.setWidth 512) := rfl

end Sys2Proof.Machine
end

