-- ==== Sys2Proof/Laws/Ops.lean ====
section
/-! SUPPORT. For each shared operation, once, everything it can do. -/

namespace Sys2Proof.Machine

/-! ### Outcomes -/

theorem finish_eq_next {r : Except Stop State} {t : State} : finish r = .next t ↔ r = .ok t := by
  rcases r with (_ | _) | _ <;> simp [finish]

theorem finish_eq_fault {r : Except Stop State} {f : Fault} : finish r = .fault f ↔ r = .error (.fault f) := by
  rcases r with (_ | _) | _ <;> simp [finish]

theorem finish_eq_refused {r : Except Stop State} {x : Refusal} :
    finish r = .refused x ↔ r = .error (.refused x) := by
  rcases r with (_ | _) | _ <;> simp [finish]

/-- Every exception saves the address of the instruction it is raised in (R197). -/
@[simp] theorem faultSavedPc_takeException (s : State) (e : Exception) : faultSavedPc (s.takeException e) = s.pc := by
  cases e <;> rfl

/-- A sequence inside an instruction completes when both parts do. -/
theorem bind_eq_ok {α β : Type} {x : Except Stop α} {f : α → Except Stop β} {b : β} :
    (x >>= f) = .ok b ↔ ∃ a, x = .ok a ∧ f a = .ok b := by
  cases x <;> simp [bind, Except.bind]

/-- The same after a check, which has no value. -/
theorem check_bind_eq_ok {β : Type} {x : Except Stop Unit} {f : Unit → Except Stop β} {b : β} :
    (x >>= f) = .ok b ↔ x = .ok () ∧ f () = .ok b := by
  rcases x with _ | ⟨⟨⟩⟩ <;> simp [bind, Except.bind]

/-- A sequence inside an instruction stops when its first part does, or its second. -/
theorem bind_eq_error {α β : Type} {x : Except Stop α} {f : α → Except Stop β} {e : Stop} :
    (x >>= f) = .error e ↔ x = .error e ∨ ∃ a, x = .ok a ∧ f a = .error e := by
  cases x <;> simp [bind, Except.bind]

/-! ### Checks -/

theorem checkUdNm_eq_ok {s : State} {b : Bool} :
    checkUdNm s b = .ok () ↔ s.mode.admitted = true ∧ b = false ∧ s.cr0Ts = false := by
  unfold checkUdNm
  cases s.mode.admitted <;> cases b <;> cases s.cr0Ts <;> simp [raise, refuse]

/-- The three ways `checkUdNm` stops, in their order. -/
theorem checkUdNm_eq_error {s : State} {b : Bool} {e : Stop} :
    checkUdNm s b = .error e ↔
      (s.mode.admitted = false ∧ e = .refused (.modeNotAdmitted s.mode)) ∨
      (s.mode.admitted = true ∧ b = true ∧ e = .fault (s.takeException .ud)) ∨
      (s.mode.admitted = true ∧ b = false ∧ s.cr0Ts = true ∧ e = .fault (s.takeException .nm)) := by
  unfold checkUdNm
  cases s.mode.admitted <;> cases b <;> cases s.cr0Ts <;> simp [raise, refuse, eq_comm]

theorem checkMmx_eq_ok {s : State} :
    checkMmx s = .ok () ↔
      checkUdNm s (!formPresent s.cfg .f1 || s.cr0Em) = .ok () ∧ s.x87Pending = false := by
  unfold checkMmx
  rw [bind_eq_ok]
  constructor
  · rintro ⟨⟨⟩, h, hp⟩
    refine ⟨h, ?_⟩
    cases hx : s.x87Pending <;> simp_all [raise]
  · rintro ⟨h, hp⟩
    exact ⟨(), h, by simp [hp]⟩

/-! ### The advance of pc -/

theorem advance_eq_ok {s t : State} {n : Nat} :
    s.advance n = .ok t ↔ ¬(s.mode = .m64 ∧ (2 ^ 64 ≤ s.pc.toNat + n ∨ canonical (s.nextPc n) = false)) ∧
      t = s.setPc (s.nextPc n) := by
  unfold State.advance
  split
  · rename_i h
    exact ⟨nofun, fun e => absurd h e.1⟩
  · rename_i h
    rw [Except.ok.injEq]
    exact ⟨fun e => ⟨h, e.symm⟩, fun e => e.2.symm⟩

theorem advance_eq_error {s : State} {n : Nat} {e : Stop} :
    s.advance n = .error e ↔
      (s.mode = .m64 ∧ (2 ^ 64 ≤ s.pc.toNat + n ∨ canonical (s.nextPc n) = false)) ∧ e = .refused .nextPcNotCanonical := by
  unfold State.advance
  split
  · rename_i h
    rw [refuse, Except.error.injEq]
    exact ⟨fun e => ⟨h, e.symm⟩, fun e => e.2.symm⟩
  · rename_i h
    exact ⟨nofun, fun e => absurd e.1 h⟩

/-- Writing registers does not move the next instruction. -/
@[simp] theorem nextPc_setVec (s : State) (i : BitVec 5) (x : VReg) (n : Nat) :
    (s.setVec i x).nextPc n = s.nextPc n := rfl

@[simp] theorem nextPc_setMm (s : State) (i : BitVec 3) (x : BitVec 64) (n : Nat) :
    (s.setMm i x).nextPc n = s.nextPc n := rfl

@[simp] theorem nextPc_mmxTransition (s : State) (d : BitVec 3) (n : Nat) :
    (s.mmxTransition d).nextPc n = s.nextPc n := rfl

/-! ### The memory operand -/

/-- When a memory operand is read, and what is read. -/
theorem loadOperand_eq_ok {w : Nat} {s : State} {f : Form} {p : Prefixes} {ilen : Nat} {a : MemAddr} {x : BitVec w} :
    loadOperand w s f p ilen a = .ok x ↔
      s.segBasesAdmitted = true ∧
      (formAlignGp s.cfg f && (s.operandAddr f p ilen a).toNat % 16 != 0) = false ∧
      ¬ 2 ^ s.addrBits < (s.operandAddr f p ilen a).toNat + formBytes f ∧
      s.memFault (operandSeg p a) (s.operandAddr f p ilen a) (formBytes f) .read = none ∧
      (formAlignAc f && s.acActive && (s.operandAddr f p ilen a).toNat % 8 != 0) = false ∧
      x = s.mem.readLe w (s.operandAddr f p ilen a).toNat (formBytes f) := by
  unfold loadOperand
  cases h1 : s.segBasesAdmitted
  · simp [refuse]
  cases h2 : (formAlignGp s.cfg f && (s.operandAddr f p ilen a).toNat % 16 != 0)
  swap
  · simp [raise, h2]
  by_cases h3 : 2 ^ s.addrBits < (s.operandAddr f p ilen a).toNat + formBytes f
  · simp [refuse, h2, h3]
  cases h4 : s.memFault (operandSeg p a) (s.operandAddr f p ilen a) (formBytes f) .read with
  | some e => simp [raise, h2, h3, h4]
  | none =>
    cases h5 : (formAlignAc f && s.acActive && (s.operandAddr f p ilen a).toNat % 8 != 0)
    · simp [h2, h3, h4, h5, eq_comm]
    · simp [raise, h2, h3, h4, h5]

/-- A memory operand stops the instruction in one of five ways: two refusals, or an exception of this instruction. -/
theorem loadOperand_error {w : Nat} {s : State} {f : Form} {p : Prefixes} {ilen : Nat} {a : MemAddr} {e : Stop}
    (h : loadOperand w s f p ilen a = .error e) :
    e = .refused .segmentBaseNotAdmitted ∨ e = .refused .operandWraps ∨
      e = .fault (s.takeException (.gp 0)) ∨ (f = .f1 ∧ e = .fault (s.takeException (.ac 0))) ∨
      ∃ x, s.memFault (operandSeg p a) (s.operandAddr f p ilen a) (formBytes f) .read = some x ∧
        e = .fault (s.takeException x) := by
  unfold loadOperand at h
  dsimp only at h
  split at h
  · simp [refuse] at h; simp [h]
  · split at h
    · simp [raise] at h; simp [h]
    · split at h
      · simp [refuse] at h; simp [h]
      · split at h
        · rename_i x hx
          simp [raise] at h
          exact .inr (.inr (.inr (.inr ⟨x, hx, h.symm⟩)))
        · split at h
          · rename_i hac
            simp [raise] at h
            refine .inr (.inr (.inr (.inl ⟨?_, h.symm⟩)))
            cases f <;> simp_all [formAlignAc]
          · simp at h

/-- A `MemFault` given as a table is that table. -/
theorem memFault_of_table {s : State} {t : List AccessRule} (h : s.cfg.accessTable = some t) (x : Seg) (lin : Word) (n : Nat)
    (kind : AccessKind) : s.memFault x lin n kind = (tableMemFault t x lin n kind).map exceptionOf := by
  rw [State.memFault, h]

/-- Without a table `MemFault` is the faithful one. -/
theorem memFault_of_none {s : State} (h : s.cfg.accessTable = none) (x : Seg) (lin : Word) (n : Nat) (kind : AccessKind) :
    s.memFault x lin n kind = s.faithfulMemFault x lin n kind := by
  rw [State.memFault, h]

/-- What a faithful `MemFault` answers: a segment violation first, else a page fault of one of the bytes, with paging on. -/
theorem faithfulMemFault_eq_some {s : State} {x : Seg} {lin : Word} {n : Nat} {kind : AccessKind} {e : Exception}
    (h : s.faithfulMemFault x lin n kind = some e) :
    (s.segmentViolation x lin n kind = true ∧ e = if x = .ss then .ss 0 else .gp 0) ∨
    (s.segmentViolation x lin n kind = false ∧ s.cfg.paging = true ∧
      ∃ i < n, s.pageFaultAt kind (lin + BitVec.ofNat 64 i) = some e) := by
  unfold State.faithfulMemFault at h
  cases hv : s.segmentViolation x lin n kind
  · simp only [hv, Bool.false_eq_true, if_false] at h
    cases hp : s.cfg.paging
    · simp [hp] at h
    · simp only [hp, if_true] at h
      obtain ⟨i, hi, he⟩ := List.exists_of_findSome?_eq_some h
      exact .inr ⟨rfl, rfl, i, List.mem_range.1 hi, he⟩
  · simp only [hv, if_true] at h
    exact .inl ⟨rfl, (Option.some.inj h).symm⟩

/-- When a faithful `MemFault` answers no exception. -/
theorem faithfulMemFault_eq_none {s : State} {x : Seg} {lin : Word} {n : Nat} {kind : AccessKind} :
    s.faithfulMemFault x lin n kind = none ↔
      s.segmentViolation x lin n kind = false ∧
      (s.cfg.paging = true → ∀ i < n, s.pageFaultAt kind (lin + BitVec.ofNat 64 i) = none) := by
  unfold State.faithfulMemFault
  cases s.segmentViolation x lin n kind <;> cases s.cfg.paging <;> simp

/-- `MemFault` asks for #SS, #GP or #PF and for no other exception (D7). -/
theorem memFault_kinds {s : State} {x : Seg} {lin : Word} {n : Nat} {kind : AccessKind} {e : Exception}
    (h : s.memFault x lin n kind = some e) : e = .ss 0 ∨ e = .gp 0 ∨ ∃ code address, e = .pf code address := by
  unfold State.memFault at h
  split at h
  · obtain ⟨f, -, rfl⟩ := Option.map_eq_some_iff.1 h
    cases f <;> simp [exceptionOf]
  · rcases faithfulMemFault_eq_some h with ⟨-, rfl⟩ | ⟨-, -, i, -, hp⟩
    · split <;> simp
    · unfold State.pageFaultAt at hp
      split at hp
      · simp at hp
      · split at hp
        · exact .inr (.inr ⟨_, _, (Option.some.inj hp).symm⟩)
        · simp at hp

end Sys2Proof.Machine
end

