-- ==== Sys2Proof/Laws/Exec.lean ====
section
/-! SUPPORT. What an instruction has done when it answers a next state: its checks passed, its operand was read, and the
state is the old one with one register (and, for form 1, the x87 state) and `pc` written. -/

namespace Sys2Proof.Machine

theorem execPmulhrswMm_eq_next {p : Prefixes} {rex : Bool} {dst : BitVec 3} {src : Rm 3} {s t : State} :
    execPmulhrswMm p rex dst src s = .next t ↔
      checkMmx s = .ok () ∧ ∃ x, mmOperand s p (legacyIlen p false rex src) src = .ok x ∧
        ((s.setMm dst (pmulhrs 4 (s.mmReg dst) x)).mmxTransition dst).advance (legacyIlen p false rex src) = .ok t := by
  rw [execPmulhrswMm, finish_eq_next, check_bind_eq_ok, bind_eq_ok]

theorem execPmulhrswXmm_eq_next {p : Prefixes} {rex : Bool} {dst : BitVec 5} {src : Rm 5} {s t : State} :
    execPmulhrswXmm p rex dst src s = .next t ↔
      checkSse s = .ok () ∧ ∃ x, vecOperand 128 s .f2 p (legacyIlen p true rex src) src = .ok x ∧
        (s.setXmmKeep dst (pmulhrs 8 (s.vecLow 128 dst) x)).advance (legacyIlen p true rex src) = .ok t := by
  rw [execPmulhrswXmm, finish_eq_next, check_bind_eq_ok, bind_eq_ok]

theorem vexPmulhrsw_eq_ok {w : Nat} {f : Form} {p : Prefixes} {dst src1 : BitVec 5} {src2 : Rm 5} {s t : State} :
    vexPmulhrsw w f p dst src1 src2 s = .ok t ↔
      checkVex s f = .ok () ∧ ∃ y, vecOperand w s f p (vexIlen p src2) src2 = .ok y ∧
        (s.setVecZero dst (pmulhrs (formLanes f) (s.vecLow w src1) y)).advance (vexIlen p src2) = .ok t := by
  rw [vexPmulhrsw, check_bind_eq_ok, bind_eq_ok]

theorem evexPmulhrsw_eq_ok {w : Nat} {f : Form} {p : Prefixes} {mask : Masking} {dst src1 : BitVec 5} {src2 : Rm 5}
    {s t : State} :
    evexPmulhrsw w f p mask dst src1 src2 s = .ok t ↔
      checkEvex s f = .ok () ∧ ∃ y, vecOperand w s f p (evexIlen p src2) src2 = .ok y ∧
        (s.setVecZero dst (packLanes w (maskedLane s mask (s.vecLow w dst) (s.vecLow w src1) y)
          (formLanes f))).advance (evexIlen p src2) = .ok t := by
  rw [evexPmulhrsw, check_bind_eq_ok, bind_eq_ok]

/-- What a step answers: `exec` of the fetched instruction, in an admitted mode. -/
theorem step_of_fetch {s : State} {i : Instr} (hm : s.mode.admitted = true) (h : s.fetchInstr = .ok i) :
    step s = exec i s := by
  simp [step, hm, h]

/-- A step whose fetch stops stops in the same way, in an admitted mode. -/
theorem step_of_fetch_error {s : State} {e : Stop} (hm : s.mode.admitted = true) (h : s.fetchInstr = .error e) :
    step s = finish (.error e) := by
  cases e <;> simp [step, hm, h, finish]

/-- A step that answers a next state ran an instruction. -/
theorem step_eq_next {s t : State} (h : step s = .next t) :
    s.mode.admitted = true ∧ ∃ i, s.fetchInstr = .ok i ∧ exec i s = .next t := by
  unfold step at h
  split at h
  · rename_i hm
    split at h
    · rename_i i hi
      exact ⟨hm, i, hi, h⟩
    · simp at h
    · simp at h
  · simp at h

end Sys2Proof.Machine
end

