-- ==== Sys2Proof/Laws/Lanes.lean ====
section
/-! SUPPORT. What packing lanes gives: lane by lane, and 0 above. -/

namespace Sys2Proof.Machine

/-- Bit `b` of lane `j` is bit `16j + b` of the operand. -/
theorem lane_getLsbD {w : Nat} (x : BitVec w) (j b : Nat) :
    (lane x j).getLsbD b = (decide (b < 16) && x.getLsbD (16 * j + b)) := by
  simp [lane, BitVec.getLsbD_extractLsb']

/-- Every bit of a packed value: bit `i % 16` of lane `i / 16`, and 0 from lane `n` on. -/
theorem packLanes_getLsbD (w : Nat) (f : Nat → Lane) (n i : Nat) :
    (packLanes w f n).getLsbD i = (decide (i < w) && decide (i / 16 < n) && (f (i / 16)).getLsbD (i % 16)) := by
  induction n with
  | zero => simp [packLanes]
  | succ n ih =>
    rw [packLanes, BitVec.getLsbD_or, ih, BitVec.getLsbD_shiftLeft, BitVec.getLsbD_setWidth]
    by_cases hw : i < w
    · rcases Nat.lt_trichotomy (i / 16) n with h | h | h
      · have h1 : i < 16 * n := by omega
        simp [hw, h, h1, Nat.lt_succ_of_lt h]
      · have h1 : ¬ i < 16 * n := by omega
        have h2 : i - 16 * n = i % 16 := by omega
        have h3 : i % 16 < w := by omega
        simp [hw, h1, h2, h, h3]
      · have h1 : ¬ i < 16 * n := by omega
        have h2 : ¬ i / 16 < n := by omega
        have h3 : ¬ i / 16 < n + 1 := by omega
        have h4 : (f n).getLsbD (i - 16 * n) = false := BitVec.getLsbD_of_ge _ _ (by omega)
        simp [h2, h3, h4]
    · simp [hw]

/-- The lanes of a packed value. -/
theorem lane_packLanes {w : Nat} (f : Nat → Lane) {n j : Nat} (hj : j < n) (hw : 16 * n ≤ w) :
    lane (packLanes w f n) j = f j := by
  apply BitVec.eq_of_getLsbD_eq
  intro b hb
  have h1 : (16 * j + b) / 16 = j := by omega
  have h2 : (16 * j + b) % 16 = b := by omega
  have h3 : 16 * j + b < w := by omega
  rw [lane_getLsbD, packLanes_getLsbD, h1, h2]
  simp [hb, hj, h3]

/-- A packed value of `n` lanes is below `2^(16n)`. -/
theorem packLanes_toNat_lt (w : Nat) (f : Nat → Lane) (n : Nat) : (packLanes w f n).toNat < 2 ^ (16 * n) := by
  apply Nat.lt_pow_two_of_testBit
  intro i hi
  have h : ¬ i / 16 < n := by omega
  have := packLanes_getLsbD w f n i
  simp only [h, decide_false, Bool.and_false, Bool.false_and] at this
  exact this

end Sys2Proof.Machine
end

