-- ==== Sys2Proof/Laws/Memory.lean ====
section
/-! SUPPORT. Memory: a read after a write, the canonical form kept by every operation, and the bytes of a wide read. -/

namespace Sys2Proof.Machine

/-- The canonical form, one cell at a time: the head is in range and not 0, every later address is above it. -/
theorem Memory.wf_cons (a : Nat) (x : Byte) (m : Memory) :
    Memory.wf ((a, x) :: m) = true ↔
      a < 2 ^ 64 ∧ x ≠ 0#8 ∧ (∀ b ∈ m, a < b.1) ∧ Memory.wf m = true := by
  induction m generalizing a x with
  | nil => simp [Memory.wf]
  | cons c m ih =>
    obtain ⟨b, y⟩ := c
    constructor
    · intro h
      simp only [Memory.wf, Bool.and_eq_true, decide_eq_true_eq, bne_iff_ne, ne_eq] at h
      obtain ⟨⟨⟨h1, h2⟩, h3⟩, h4⟩ := h
      have hw : Memory.wf ((b, y) :: m) = true := by
        simp only [Memory.wf, Bool.and_eq_true, decide_eq_true_eq, bne_iff_ne, ne_eq]; exact h4
      have := (ih b y).1 hw
      refine ⟨h1, h2, ?_, hw⟩
      intro c hc
      rcases List.mem_cons.1 hc with rfl | hc
      · exact h3
      · exact Nat.lt_trans h3 (this.2.2.1 c hc)
    · rintro ⟨h1, h2, h3, h4⟩
      rw [Memory.wf]
      simpa [h2, h4, h3 (b, y) (by simp)] using h1

/-- An address below every listed one reads as an unlisted byte. -/
theorem Memory.read_of_lt {m : Memory} {a : Nat} (h : ∀ c ∈ m, a < c.1) : m.read a = 0#8 := by
  induction m with
  | nil => rfl
  | cons c m ih =>
    have h1 := h c (by simp)
    rw [Memory.read, if_neg (by omega), ih (fun d hd => h d (by simp [hd]))]

/-- Every address in memory after a write is one from before, or the written one. -/
theorem Memory.mem_write {m : Memory} {a : Nat} {x : Byte} {c : Host.Cell} (h : c ∈ m.write a x) :
    c ∈ m ∨ c = (a, x) := by
  induction m with
  | nil => simp only [Memory.write] at h; split at h <;> simp_all
  | cons d m ih =>
    simp only [Memory.write] at h
    split at h
    · split at h <;> simp_all
      tauto
    · split at h
      · split at h <;> simp_all
        tauto
      · rcases List.mem_cons.1 h with h | h
        · simp [h]
        · rcases ih h with h | h <;> simp [h]

/-- A write keeps the canonical form. -/
theorem Memory.wf_write {m : Memory} {a : Nat} (x : Byte) (ha : a < 2 ^ 64) (h : Memory.wf m = true) :
    Memory.wf (m.write a x) = true := by
  induction m with
  | nil =>
    by_cases hx : x = 0#8
    · simp [Memory.write, hx, Memory.wf]
    · simpa [Memory.write, hx, Memory.wf] using ha
  | cons c m ih =>
    obtain ⟨b, y⟩ := c
    obtain ⟨h1, h2, h3, h4⟩ := (Memory.wf_cons b y m).1 h
    simp only [Memory.write]
    split
    · rename_i hab
      split
      · exact h
      · rename_i hx
        refine (Memory.wf_cons _ _ _).2 ⟨ha, hx, ?_, h⟩
        intro c hc
        rcases List.mem_cons.1 hc with rfl | hc
        · exact hab
        · exact Nat.lt_trans hab (h3 c hc)
    · split
      · rename_i hab
        subst hab
        split
        · exact h4
        · rename_i hx
          exact (Memory.wf_cons _ _ _).2 ⟨ha, hx, h3, h4⟩
      · refine (Memory.wf_cons _ _ _).2 ⟨h1, h2, ?_, ih h4⟩
        intro c hc
        rcases Memory.mem_write hc with hc | rfl
        · exact h3 c hc
        · show b < a
          omega

/-- A read after a write: the written byte at its address, every other byte as before. -/
theorem Memory.read_write {m : Memory} (a : Nat) (x : Byte) (c : Nat) (h : Memory.wf m = true) :
    (m.write a x).read c = if c = a then x else m.read c := by
  induction m with
  | nil =>
    by_cases hx : x = 0#8
    · simp [Memory.write, hx, Memory.read]
    · simp [Memory.write, hx, Memory.read]
  | cons d m ih =>
    obtain ⟨b, y⟩ := d
    obtain ⟨h1, h2, h3, h4⟩ := (Memory.wf_cons b y m).1 h
    simp only [Memory.write]
    split
    · rename_i hab
      split
      · rename_i hx
        split
        · rename_i hc
          subst hc
          rw [Memory.read_of_lt, hx]
          intro e he
          rcases List.mem_cons.1 he with rfl | he
          · exact hab
          · exact Nat.lt_trans hab (h3 e he)
        · rfl
      · rw [Memory.read]
    · split
      · rename_i hab
        subst hab
        split
        · rename_i hx
          by_cases hc : c = a
          · subst hc
            rw [if_pos rfl, Memory.read_of_lt h3, hx]
          · rw [if_neg hc, Memory.read, if_neg hc]
        · simp only [Memory.read]
          split <;> rfl
      · rename_i hab
        rw [Memory.read, Memory.read, ih h4]
        by_cases hcb : c = b
        · have hca : c ≠ a := by omega
          simp [hcb, hcb ▸ hca]
        · simp [hcb]

/-- Placing code keeps the canonical form: addresses are 64-bit words. -/
theorem State.placeCode_wf (s : State) (a : Word) (bytes : List Byte) {m : Memory} (h : Memory.wf m = true) :
    Memory.wf (s.placeCode a bytes m) = true := by
  induction bytes generalizing a m with
  | nil => exact h
  | cons b bytes ih =>
    exact ih _ (Memory.wf_write b (s.fetchAddr a).isLt h)

/-- Bit `i` of a wide read is bit `i % 8` of byte `i / 8` (R50). -/
theorem Memory.readLe_getLsbD (w : Nat) (m : Memory) (a n i : Nat) :
    (Memory.readLe w m a n).getLsbD i
      = (decide (i < w) && decide (i / 8 < n) && (m.read (a + i / 8)).getLsbD (i % 8)) := by
  induction n generalizing a i with
  | zero => simp [Memory.readLe]
  | succ n ih =>
    rw [Memory.readLe, BitVec.getLsbD_or, BitVec.getLsbD_setWidth, BitVec.getLsbD_shiftLeft, ih]
    by_cases h : i < 8
    · have h1 : i / 8 = 0 := by omega
      have h2 : i % 8 = i := by omega
      simp [h, h1, h2]
    · have h1 : (m.read a).getLsbD i = false := BitVec.getLsbD_of_ge _ _ (by omega)
      have h2 : (i - 8) / 8 = i / 8 - 1 := by omega
      have h3 : (i - 8) % 8 = i % 8 := by omega
      have h4 : a + 1 + (i / 8 - 1) = a + i / 8 := by omega
      have h5 : (i / 8 - 1 < n) = (i / 8 < n + 1) := by apply propext; omega
      rw [h1, h2, h3, h4]
      by_cases hw : i < w
      · have h6 : i - 8 < w := by omega
        simp [h, hw, h6, h5]
      · simp [hw]

end Sys2Proof.Machine
end

