-- ==== Sys2Proof/Laws/PerInstr.lean ====
section
/-! SUPPORT. Two families of facts about each instruction as syntax (R106): the length of the encoding is `ilen`, and it lies
between 4 and 13. -/

namespace Sys2Proof.Laws

theorem prefixes_len_le (p : Prefixes) : p.len ≤ 2 := by
  unfold Prefixes.len
  split <;> split <;> omega

theorem prefixes_bytes_length (p : Prefixes) : p.bytes.length = p.len := by
  obtain ⟨seg, a⟩ := p
  cases seg <;> cases a <;> rfl

theorem memAddr_len_le (a : MemAddr) : a.len ≤ 5 := by
  rcases a with ⟨_, _ | _ | _⟩ | _ | ⟨_, _, _ | _ | _⟩ | _ | ⟨_, _ | _ | _⟩ | _ <;> simp [MemAddr.len, Disp.len, Disp16.len]

theorem memAddr_bytes_length (reg : BitVec 3) (a : MemAddr) : (a.bytes reg).length = 1 + a.len := by
  rcases a with ⟨_, _ | _ | _⟩ | _ | ⟨_, _, _ | _ | _⟩ | _ | ⟨_, _ | _ | _⟩ | _ <;>
    simp [MemAddr.len, MemAddr.bytes, Disp.len, Disp16.len, Disp.bytes, Disp16.bytes, le16, le32]

theorem rm_len_bounds {n : Nat} (r : Rm n) : 1 ≤ r.len ∧ r.len ≤ 6 := by
  cases r with
  | reg r => simp [Rm.len]
  | mem a =>
    have := memAddr_len_le a
    simp only [Rm.len]
    omega

theorem rm_bytes_length {n : Nat} (reg : BitVec 3) (r : Rm n) : (r.bytes reg).length = r.len := by
  cases r with
  | reg r => rfl
  | mem a => exact memAddr_bytes_length reg a

theorem legacyIlen_bounds {n : Nat} (p : Prefixes) (op rex : Bool) (r : Rm n) :
    4 ≤ legacyIlen p op rex r ∧ legacyIlen p op rex r ≤ 13 := by
  have h1 := prefixes_len_le p
  have h2 := rm_len_bounds r
  unfold legacyIlen
  cases op <;> cases rex <;> simp <;> omega

theorem vexIlen_bounds {n : Nat} (p : Prefixes) (r : Rm n) : 4 ≤ vexIlen p r ∧ vexIlen p r ≤ 13 := by
  have h1 := prefixes_len_le p
  have h2 := rm_len_bounds r
  unfold vexIlen
  omega

theorem evexIlen_bounds {n : Nat} (p : Prefixes) (r : Rm n) : 4 ≤ evexIlen p r ∧ evexIlen p r ≤ 13 := by
  have h1 := prefixes_len_le p
  have h2 := rm_len_bounds r
  unfold evexIlen
  omega

theorem encodeLegacy_length {n : Nat} (p : Prefixes) (op rex r : Bool) (reg : BitVec 3) (src : Rm n) :
    (encodeLegacy p op rex r reg src).length = legacyIlen p op rex src := by
  unfold encodeLegacy legacyIlen
  cases op <;> cases rex <;> simp [prefixes_bytes_length, rm_bytes_length] <;> omega

theorem encodeVex_length (p : Prefixes) (l : Bool) (d s1 : BitVec 5) (src : Rm 5) :
    (encodeVex p l d s1 src).length = vexIlen p src := by
  simp [encodeVex, vexIlen, prefixes_bytes_length, rm_bytes_length]
  omega

theorem encodeEvex_length (p : Prefixes) (ll : BitVec 2) (m : Masking) (d s1 : BitVec 5) (src : Rm 5) :
    (encodeEvex p ll m d s1 src).length = evexIlen p src := by
  simp [encodeEvex, evexIlen, prefixes_bytes_length, rm_bytes_length]
  omega

/-- The length lies between 4 and 13 (R106). -/
def IlenRange.Statement (i : Instr) : Prop := 4 ≤ i.ilen ∧ i.ilen ≤ 13

theorem IlenRange.pmulhrswMm (p : Prefixes) (rex : Bool) (dst : BitVec 3) (src : Rm 3) :
    IlenRange.Statement (.pmulhrswMm p rex dst src) := legacyIlen_bounds p false rex src

theorem IlenRange.pmulhrswXmm (p : Prefixes) (rex : Bool) (dst : BitVec 5) (src : Rm 5) :
    IlenRange.Statement (.pmulhrswXmm p rex dst src) := legacyIlen_bounds p true rex src

theorem IlenRange.vpmulhrswXmm (p : Prefixes) (dst src1 : BitVec 5) (src2 : Rm 5) :
    IlenRange.Statement (.vpmulhrswXmm p dst src1 src2) := vexIlen_bounds p src2

theorem IlenRange.vpmulhrswYmm (p : Prefixes) (dst src1 : BitVec 5) (src2 : Rm 5) :
    IlenRange.Statement (.vpmulhrswYmm p dst src1 src2) := vexIlen_bounds p src2

theorem IlenRange.vpmulhrswXmmMasked (p : Prefixes) (mask : Masking) (dst src1 : BitVec 5) (src2 : Rm 5) :
    IlenRange.Statement (.vpmulhrswXmmMasked p mask dst src1 src2) := evexIlen_bounds p src2

theorem IlenRange.vpmulhrswYmmMasked (p : Prefixes) (mask : Masking) (dst src1 : BitVec 5) (src2 : Rm 5) :
    IlenRange.Statement (.vpmulhrswYmmMasked p mask dst src1 src2) := evexIlen_bounds p src2

theorem IlenRange.vpmulhrswZmmMasked (p : Prefixes) (mask : Masking) (dst src1 : BitVec 5) (src2 : Rm 5) :
    IlenRange.Statement (.vpmulhrswZmmMasked p mask dst src1 src2) := evexIlen_bounds p src2

/-- The encoding has `ilen` bytes (R106). -/
def EncodeLength.Statement (i : Instr) : Prop := (encode i).length = i.ilen

theorem EncodeLength.pmulhrswMm (p : Prefixes) (rex : Bool) (dst : BitVec 3) (src : Rm 3) :
    EncodeLength.Statement (.pmulhrswMm p rex dst src) := encodeLegacy_length p false rex false dst src

theorem EncodeLength.pmulhrswXmm (p : Prefixes) (rex : Bool) (dst : BitVec 5) (src : Rm 5) :
    EncodeLength.Statement (.pmulhrswXmm p rex dst src) := encodeLegacy_length p true rex _ _ src

theorem EncodeLength.vpmulhrswXmm (p : Prefixes) (dst src1 : BitVec 5) (src2 : Rm 5) :
    EncodeLength.Statement (.vpmulhrswXmm p dst src1 src2) := encodeVex_length p false dst src1 src2

theorem EncodeLength.vpmulhrswYmm (p : Prefixes) (dst src1 : BitVec 5) (src2 : Rm 5) :
    EncodeLength.Statement (.vpmulhrswYmm p dst src1 src2) := encodeVex_length p true dst src1 src2

theorem EncodeLength.vpmulhrswXmmMasked (p : Prefixes) (mask : Masking) (dst src1 : BitVec 5) (src2 : Rm 5) :
    EncodeLength.Statement (.vpmulhrswXmmMasked p mask dst src1 src2) := encodeEvex_length p _ mask dst src1 src2

theorem EncodeLength.vpmulhrswYmmMasked (p : Prefixes) (mask : Masking) (dst src1 : BitVec 5) (src2 : Rm 5) :
    EncodeLength.Statement (.vpmulhrswYmmMasked p mask dst src1 src2) := encodeEvex_length p _ mask dst src1 src2

theorem EncodeLength.vpmulhrswZmmMasked (p : Prefixes) (mask : Masking) (dst src1 : BitVec 5) (src2 : Rm 5) :
    EncodeLength.Statement (.vpmulhrswZmmMasked p mask dst src1 src2) := encodeEvex_length p _ mask dst src1 src2

end Sys2Proof.Laws
end

