-- ==== Sys2Proof/Tests/Slice0.lean ====
section
/-! SUPPORT. Tests of the model, by `decide`: expected values are those of `95_test_vectors.md` (V1 to V6) and of the encoding
tables, not the model's; then, for every statement with hypotheses, a concrete state and operands that meet all of them. -/

namespace Sys2Proof.Tests

open Sys2Proof.Machine

set_option maxRecDepth 20000
set_option exponentiation.threshold 600

/-! ### Ill-formed terms are refused (WellFormed) -/

def noPrefix : Prefixes := ⟨none, false⟩

def addr32 : Prefixes := ⟨none, true⟩

theorem test_wf_mode : (Instr.pmulhrswMm noPrefix false 0 (.reg 1)).wf .protected16 = false := by decide

theorem test_wf_rex_in_m32 : (Instr.pmulhrswMm noPrefix true 0 (.reg 1)).wf .m32 = false := by decide

theorem test_wf_rex_missing : (Instr.pmulhrswXmm noPrefix false 8 (.reg 1)).wf .m64 = false := by decide

theorem test_wf_gpr_in_m32 : (Instr.vpmulhrswXmm noPrefix 0 1 (.mem (.sib 8 none .none))).wf .m32 = false := by decide

theorem test_wf_base_needs_sib : (Instr.vpmulhrswXmm noPrefix 0 1 (.mem (.base 12 .none))).wf .m64 = false := by decide

theorem test_wf_base_needs_disp : (Instr.vpmulhrswXmm noPrefix 0 1 (.mem (.base 13 .none))).wf .m64 = false := by decide

theorem test_wf_sib_base_needs_disp :
    (Instr.vpmulhrswXmm noPrefix 0 1 (.mem (.sib 5 none .none))).wf .m64 = false := by decide

theorem test_wf_index_four :
    (Instr.vpmulhrswXmm noPrefix 0 1 (.mem (.sib 0 (some (4, 0)) .none))).wf .m64 = false := by decide

theorem test_wf_16bit_without_prefix :
    (Instr.vpmulhrswXmm noPrefix 0 1 (.mem (.base16 .bxsi .none))).wf .m32 = false := by decide

theorem test_wf_16bit_in_m64 : (Instr.vpmulhrswXmm addr32 0 1 (.mem (.base16 .bxsi .none))).wf .m64 = false := by decide

theorem test_wf_16bit_bp_needs_disp :
    (Instr.vpmulhrswXmm addr32 0 1 (.mem (.base16 .bp .none))).wf .m32 = false := by decide

theorem test_wf_vex_register : (Instr.vpmulhrswXmm noPrefix 16 1 (.reg 0)).wf .m64 = false := by decide

theorem test_wf_vex_source : (Instr.vpmulhrswYmm noPrefix 0 8 (.reg 0)).wf .m32 = false := by decide

theorem test_wf_evex_register_in_m32 :
    (Instr.vpmulhrswZmmMasked noPrefix .noMask 0 1 (.reg 8)).wf .m32 = false := by decide

theorem test_wf_mask_zero : (Instr.vpmulhrswZmmMasked noPrefix (.merging 0) 0 1 (.reg 2)).wf .m64 = false := by decide

/-! ### Decoding: words written out field by field -/

/-- V2.1: `0F 38 0B`, ModRM 11 000 001. -/
theorem test_decode_pmulhrswMm : decode .m64 [0x0F#8, 0x38#8, 0x0B#8, 0b11000001#8] =
    .ok (.pmulhrswMm noPrefix false 0 (.reg 1), []) := by decide

/-- V5: REX 0100 W=0 R=0 X=0 B=1 extends the base to 9, not the MMX register; ModRM 00 010 001. -/
theorem test_decode_pmulhrswMm_base9 : decode .m64 [0b01000001#8, 0x0F#8, 0x38#8, 0x0B#8, 0b00010001#8] =
    .ok (.pmulhrswMm noPrefix true 2 (.mem (.base 9 .none)), []) := by decide

/-- V2.7: 66H, REX 0100 W=0 R=1 X=0 B=1, ModRM 11 000 001. -/
theorem test_decode_pmulhrswXmm : decode .m64 [0x66#8, 0b01000101#8, 0x0F#8, 0x38#8, 0x0B#8, 0b11000001#8] =
    .ok (.pmulhrswXmm noPrefix true 8 (.reg 9), []) := by decide

/-- V5: ModRM 01 001 100, SIB 10 001 000, disp8 10H. -/
theorem test_decode_pmulhrswXmm_sib :
    decode .m64 [0x66#8, 0x0F#8, 0x38#8, 0x0B#8, 0b01001100#8, 0b10001000#8, 0x10#8] =
      .ok (.pmulhrswXmm noPrefix false 1 (.mem (.sib 0 (some (1, 2)) (.disp8 0x10))), []) := by decide

/-- V5: `M32`, 67H: 16-bit addressing, ModRM 01 111 110, `[bp+4]`. -/
theorem test_decode_pmulhrswXmm_16bit :
    decode .m32 [0x67#8, 0x66#8, 0x0F#8, 0x38#8, 0x0B#8, 0b01111110#8, 0x04#8] =
      .ok (.pmulhrswXmm addr32 false 7 (.mem (.base16 .bp (.disp8 4))), []) := by decide

/-- V3.1: C4H; inverted R X B 111, mmmmm 00010; W 0, inverted vvvv 1101, L 0, pp 01; ModRM 11 001 011. -/
theorem test_decode_vpmulhrswXmm : decode .m64 [0xC4#8, 0b11100010#8, 0b01101001#8, 0x0B#8, 0b11001011#8] =
    .ok (.vpmulhrswXmm noPrefix 1 2 (.reg 3), []) := by decide

/-- V3.7: inverted R X B 000; inverted vvvv 0101, L 1; ModRM 01 001 100, SIB 01 001 000, disp8 40H. -/
theorem test_decode_vpmulhrswYmm :
    decode .m64 [0xC4#8, 0b00000010#8, 0b00101101#8, 0x0B#8, 0b01001100#8, 0b01001000#8, 0x40#8] =
      .ok (.vpmulhrswYmm noPrefix 9 10 (.mem (.sib 8 (some (9, 1)) (.disp8 0x40))), []) := by decide

/-- V4.14: z 1, L'L 00, b 0, inverted V' 1, aaa 111; ModRM 01 001 000, disp8 01H. -/
theorem test_decode_vpmulhrswXmmMasked :
    decode .m64 [0x62#8, 0b11110010#8, 0b01101101#8, 0b10001111#8, 0x0B#8, 0b01001000#8, 0x01#8] =
      .ok (.vpmulhrswXmmMasked noPrefix (.zeroing 7) 1 2 (.mem (.base 0 (.disp8 1))), []) := by decide

/-- V4.8: z 0, L'L 01, b 0, inverted V' 1, aaa 010. -/
theorem test_decode_vpmulhrswYmmMasked :
    decode .m64 [0x62#8, 0b11110010#8, 0b01101101#8, 0b00101010#8, 0x0B#8, 0b01001000#8, 0x01#8] =
      .ok (.vpmulhrswYmmMasked noPrefix (.merging 2) 1 2 (.mem (.base 0 (.disp8 1))), []) := by decide

/-- V4.15: inverted R X B R' 1000, inverted vvvv 0001, L'L 10, inverted V' 0, aaa 000; ModRM 11 001 001. -/
theorem test_decode_vpmulhrswZmmMasked :
    decode .m64 [0x62#8, 0b10000010#8, 0b00001101#8, 0b01000000#8, 0x0B#8, 0b11001001#8] =
      .ok (.vpmulhrswZmmMasked noPrefix .noMask 17 30 (.reg 25), []) := by decide

/-- V4.5, V4.6, V4.7: reserved fields raise #UD. -/
theorem test_decode_reserved :
    decode .m64 [0x62#8, 0xF2#8, 0x6D#8, 0x88#8, 0x0B#8, 0xCB#8] = .error .ud ∧
    decode .m64 [0x62#8, 0xF2#8, 0x6D#8, 0x18#8, 0x0B#8, 0xCB#8] = .error .ud ∧
    decode .m64 [0x62#8, 0xF2#8, 0x6D#8, 0x68#8, 0x0B#8, 0xCB#8] = .error .ud := by decide

/-- V3.15, V3.18 and V5: neighbouring encodings are refused. -/
theorem test_decode_neighbours :
    decode .m64 [0xC5#8, 0xE9#8, 0x0B#8, 0xCB#8] = .error (.refuse .twoByteVex) ∧
    decode .m32 [0xC4#8, 0x22#8, 0x69#8, 0x0B#8, 0xC9#8] = .error (.refuse .les) ∧
    decode .m64 [0x44#8, 0x0F#8, 0x38#8, 0x0B#8, 0xC1#8] = .error (.refuse .rexOnMmxRegister) ∧
    decode .m64 [0x0F#8, 0x38#8, 0x0A#8, 0xC1#8] = .error (.refuse .otherInstruction) := by decide

/-- The table's row 1 with ModRM 00 000 000, in the table's numbering and in the other. -/
theorem test_table_word :
    decodeTableWord 32 0x0F380B00 = some (.pmulhrswMm noPrefix false 0 (.mem (.base 0 .none))) ∧
    decodeTableWord 32 0x000B380F = some (.pmulhrswMm noPrefix false 0 (.mem (.base 0 .none))) := by decide

/-! ### States and outcomes of the tests -/

/-- A launch state (R230, R231): the registers and the memory of V2.1, V2.6, V2.8 and V4.2. -/
def launched : State :=
  { State.reset.launch with
    pc := 0x1000
    g := (Vector.replicate 16 0).set 0 0x3000
    mm := Vector.replicate 8 0x7FFF800040000001
    v := (((Vector.replicate 32 0).set 1 0x80007FFF6000A0004000C00000010000).set 2
      0xFFFF0000000000000000800080007FFFC0004000400000010000).set 3 0x7FFF80007FFF0003FFFF000100017FFF
    k := (Vector.replicate 8 0).set 7 0xFFFFFFFFFFFFFFA5
    mem := [(0x3000, 0x34), (0x3001, 0x12), (0x3002, 0xFF), (0x3003, 0x7F), (0x3004, 0x03), (0x3007, 0x40), (0x3009, 0x60),
      (0x300B, 0x60), (0x300C, 0xFF), (0x300D, 0x7F), (0x300F, 0x80)] }

/-- The same in `M32`, with flat segments. -/
def launched32 : State :=
  { launched with
    mode := .m32
    segs := Vector.replicate 6 ⟨0, 0, 0xFFFFFFFF, true⟩ }

/-- `s` with register 0 at `a`. -/
def withG0 (s : State) (a : Word) : State := { s with g := s.g.set 0 a }

/-- `s` with `bytes` where the next instruction is fetched. -/
def withBytes (s : State) (bytes : List Byte) : State := { s with mem := s.placeCode s.pc bytes s.mem }

/-- What `f` says of the next state, if there is one. -/
def after {α : Type} (o : Host.Outcome State Fault Refusal) (f : State → α) : Option α :=
  match o with
  | .next t => some (f t)
  | .fault _ => none
  | .refused _ => none

/-- The fault, if that is the outcome. -/
def faultOf : Host.Outcome State Fault Refusal → Option Fault
  | .fault f => some f
  | _ => none

/-- The refusal, if that is the outcome. -/
def refusalOf : Host.Outcome State Fault Refusal → Option Refusal
  | .refused r => some r
  | _ => none

theorem fault_of_faultOf {o : Host.Outcome State Fault Refusal} {f : Fault} (h : faultOf o = some f) : o = .fault f := by
  cases o <;> simp_all [faultOf]

theorem next_of_after {o : Host.Outcome State Fault Refusal} (h : after o (fun _ => ()) = some ()) :
    ∃ t, o = .next t := by
  cases o <;> simp_all [after]

/-! ### One step of each form -/

/-- V2.1. -/
theorem test_pmulhrswMm : after (step (withBytes launched [0x0F#8, 0x38#8, 0x0B#8, 0xC1#8]))
    (fun t => (t.mmReg 0, t.pc, t.x87.tag)) = some (0x7FFE800020000000, 0x1004, 0) := by decide

/-- V2.4: #AC(0). -/
theorem test_pmulhrswMm_ac :
    faultOf (exec (.pmulhrswMm noPrefix false 0 (.mem (.base 0 (.disp8 4))))
      { launched with cr0 := launched.cr0 ||| 0x40000, eflags := 0x40002, cpl := 3 }) =
      some (.alignmentCheck 0 0x1000) := by decide

/-- V2.8. -/
theorem test_pmulhrswXmm : after (step (withBytes launched [0x66#8, 0x0F#8, 0x38#8, 0x0B#8, 0x08#8]))
    (fun t => (t.vec 1, t.pc)) = some (0x80007FFE4800B8002000FFFF00010000, 0x1005) := by decide

/-- V2.6: the bits from 128 up are kept (here the destination is register 2, the function being commutative). -/
theorem test_pmulhrswXmm_keeps :
    after (exec (.pmulhrswXmm noPrefix false 2 (.reg 3)) launched) (fun t => t.vec 2) =
      some 0xFFFF0000000000000000800180007FFEFFFF0000000100000000 := by decide

/-- V3.1: the bits from 128 up are zeroed. -/
theorem test_vpmulhrswXmm : after (step (withBytes launched [0xC4#8, 0xE2#8, 0x69#8, 0x0B#8, 0xCB#8]))
    (fun t => (t.vec 1, t.pc)) = some (0x800180007FFEFFFF0000000100000000, 0x1005) := by decide

/-- V3.5: a misaligned operand, both values of `ALIGN128_VEX`. -/
theorem test_vpmulhrswXmm_misaligned :
    faultOf (exec (.vpmulhrswXmm noPrefix 3 1 (.mem (.base 0 (.disp8 1)))) launched) =
      some (.generalProtection 0 0x1000) ∧
    after (exec (.vpmulhrswXmm noPrefix 3 1 (.mem (.base 0 (.disp8 1))))
      { launched with cfg := { resetConfig with align128Vex := .none } }) (fun t => t.pc) = some 0x1006 := by decide

/-- V3.8: lane 10 of the result is made of lane 10 of both sources. -/
theorem test_vpmulhrswYmm :
    after (exec (.vpmulhrswYmm noPrefix 15 15 (.reg 15)) (launched.setVec 15 (0x7FFF#512 <<< 160))) (fun t => t.vec 15) =
      some (0x7FFE#512 <<< 160) := by decide

/-- V4.2 (zeroing). -/
theorem test_vpmulhrswXmmMasked :
    after (exec (.vpmulhrswXmmMasked noPrefix (.zeroing 7) 1 2 (.reg 3)) launched) (fun t => (t.vec 1, t.pc)) =
      some (0x800100007FFE00000000000100000000, 0x1006) := by decide

/-- V4.3 (merging). -/
theorem test_vpmulhrswXmmMasked_merging :
    after (exec (.vpmulhrswXmmMasked noPrefix (.merging 7) 1 2 (.reg 3))
      (launched.setVec 1 0xFFFFEEEEEEEEEEEEEEEEEEEEEEEEEEEEEEEEEEEE)) (fun t => t.vec 1) =
      some 0x8001EEEE7FFEEEEEEEEE0001EEEE0000 := by decide

/-- The unmasked form 6 against V3.6's halving: 4000H times `j`. -/
theorem test_vpmulhrswYmmMasked :
    after (exec (.vpmulhrswYmmMasked noPrefix .noMask 1 4 (.reg 5))
      ((launched.setVec 4 (0x4000#512 <<< 240)).setVec 5 (15#512 <<< 240))) (fun t => t.vec 1) =
      some (8#512 <<< 240) := by decide

/-- V4.16: register 31 in every place, lanes 0 and 31 selected. -/
theorem test_vpmulhrswZmmMasked :
    after (exec (.vpmulhrswZmmMasked noPrefix (.zeroing 7) 31 31 (.reg 31))
      (({ launched with k := Vector.replicate 8 0x80000001 }).setVec 31 (0x8000#512 <<< 496 ||| 0x80008000#512)))
      (fun t => t.vec 31) = some (0x8000#512 <<< 496 ||| 0x8000#512) := by decide

/-- V4.12: `disp8 = -1` is 64 bytes down. -/
theorem test_disp8_scaled :
    (withG0 launched 0x8000).operandAddr .f7 noPrefix 7 (.base 0 (.disp8 0xFF)) = 0x7FC0 := by decide

/-- A table row placed by the host runs as the first instruction after reset. -/
theorem test_withFetchWord :
    after (step (State.reset.withFetchWord 40 0xC4E2690BCB)) (fun t => t.pc) = some 0xFFF5 := by decide

/-- V6: #UD before #NM, #NM before #GP, #GP before #PF. -/
theorem test_priority :
    faultOf (exec (.pmulhrswXmm noPrefix false 1 (.reg 2)) { launched with cr0 := 8, cr4 := 0 }) =
      some (.invalidOpcode 0x1000) ∧
    faultOf (exec (.pmulhrswXmm noPrefix false 1 (.mem (.base 0 (.disp8 1)))) { launched with cr0 := 8 }) =
      some (.deviceNotAvailable 0x1000) ∧
    faultOf (exec (.pmulhrswXmm noPrefix false 1 (.mem (.base 0 (.disp8 1))))
      { launched with cfg := { resetConfig with paging := true, pages := [⟨0, 0xFFFF, false, false, false, false, []⟩] } }) =
      some (.generalProtection 0 0x1000) := by decide

/-! ### Witnesses: states and operands that meet all hypotheses of a statement -/

/-- Every form is ready after a launch. -/
theorem witness_ready (f : Form) : FormReady launched f ∧ FormReady launched32 f := by
  cases f <;> (refine ⟨⟨?_, ?_, ?_, ?_⟩, ⟨?_, ?_, ?_, ?_⟩⟩ <;> (try simp only [FormEnabled]) <;> decide)

theorem witness_bases : BasesOk launched ∧ BasesOk launched32 := by
  constructor <;> (intro x; cases x <;> decide)

theorem bases_withG0 {s : State} (a : Word) (h : BasesOk s) : BasesOk (withG0 s a) := h

/-- What makes a memory operand readable, in terms that can be evaluated. -/
def readableOperand (s : State) (f : Form) (p : Prefixes) (ilen : Nat) (a : MemAddr) : Bool :=
  let lin := s.operandAddr f p ilen a
  lin.toNat % 16 == 0 && lin.toNat + operandBytes f ≤ 2 ^ s.addrBits &&
    s.memFault (operandSeg p a) lin (operandBytes f) .read == none && !s.acActive

theorem operandOk_of {s : State} {f : Form} {p : Prefixes} {ilen : Nat} {a : MemAddr} (hb : BasesOk s)
    (h : readableOperand s f p ilen a = true) : OperandOk s f p ilen a := by
  simp only [readableOperand, Bool.and_eq_true, beq_iff_eq, decide_eq_true_eq, Bool.not_eq_true'] at h
  refine ⟨⟨hb, fun _ => h.1.1.1, h.1.1.2⟩, h.1.2, ?_⟩
  rintro ⟨-, h1, h2, h3, -⟩
  have hac : s.acActive = true := by rw [State.acActive, State.cr0Am, State.eflagsAc, h1, h2, h3]; rfl
  rw [hac] at h
  cases h.2

/-- `[rax]`, no prefix. -/
abbrev atG0 : Rm 5 := .mem (.base 0 .none)

/-- The hypotheses of the result and completion statements, with memory operands at 3000H, in both modes, and with register
operands. -/
theorem witness_PmulhrswMmResult :
    (FormReady launched .f1 ∧ OperandReady launched (.pmulhrswMm noPrefix false 0 (.mem (.base 0 .none))) ∧
      PcAfterOk launched 4) ∧
    (FormReady launched32 .f1 ∧ OperandReady launched32 (.pmulhrswMm noPrefix false 0 (.mem (.base 0 .none))) ∧
      PcAfterOk launched32 4) ∧
    OperandReady launched (.pmulhrswMm noPrefix false 7 (.reg 7)) :=
  ⟨⟨(witness_ready .f1).1, operandOk_of witness_bases.1 (by decide), fun _ => by decide⟩,
    ⟨(witness_ready .f1).2, operandOk_of witness_bases.2 (by decide), fun _ => by decide⟩, trivial⟩

theorem witness_PmulhrswXmmResult :
    (FormReady launched .f2 ∧ OperandReady launched (.pmulhrswXmm noPrefix false 1 atG0) ∧ PcAfterOk launched 5) ∧
    (FormReady launched32 .f2 ∧ OperandReady launched32 (.pmulhrswXmm noPrefix false 1 atG0) ∧ PcAfterOk launched32 5) ∧
    OperandReady launched (.pmulhrswXmm noPrefix false 1 (.reg 1)) :=
  ⟨⟨(witness_ready .f2).1, operandOk_of witness_bases.1 (by decide), fun _ => by decide⟩,
    ⟨(witness_ready .f2).2, operandOk_of witness_bases.2 (by decide), fun _ => by decide⟩, trivial⟩

theorem witness_VpmulhrswXmmResult :
    FormReady launched .f3 ∧ OperandReady launched (.vpmulhrswXmm noPrefix 1 2 atG0) ∧ PcAfterOk launched 5 ∧
    OperandReady launched (.vpmulhrswXmm noPrefix 1 2 (.reg 1)) :=
  ⟨(witness_ready .f3).1, operandOk_of witness_bases.1 (by decide), fun _ => by decide, trivial⟩

theorem witness_VpmulhrswYmmResult :
    FormReady launched .f4 ∧ OperandReady launched (.vpmulhrswYmm noPrefix 1 2 atG0) ∧ PcAfterOk launched 5 ∧
    OperandReady launched (.vpmulhrswYmm noPrefix 1 2 (.reg 1)) :=
  ⟨(witness_ready .f4).1, operandOk_of witness_bases.1 (by decide), fun _ => by decide, trivial⟩

theorem witness_VpmulhrswXmmMaskedResult :
    FormReady launched .f5 ∧ OperandReady launched (.vpmulhrswXmmMasked noPrefix (.merging 7) 1 2 atG0) ∧
    PcAfterOk launched 6 ∧ OperandReady launched (.vpmulhrswXmmMasked noPrefix .noMask 1 2 (.reg 1)) :=
  ⟨(witness_ready .f5).1, operandOk_of witness_bases.1 (by decide), fun _ => by decide, trivial⟩

theorem witness_VpmulhrswYmmMaskedResult :
    FormReady launched .f6 ∧ OperandReady launched (.vpmulhrswYmmMasked noPrefix (.zeroing 7) 1 2 atG0) ∧
    PcAfterOk launched 6 ∧ OperandReady launched (.vpmulhrswYmmMasked noPrefix .noMask 1 2 (.reg 1)) :=
  ⟨(witness_ready .f6).1, operandOk_of witness_bases.1 (by decide), fun _ => by decide, trivial⟩

theorem witness_VpmulhrswZmmMaskedResult :
    FormReady launched .f7 ∧ OperandReady launched (.vpmulhrswZmmMasked noPrefix (.zeroing 7) 31 2 atG0) ∧
    PcAfterOk launched 6 ∧ OperandReady launched (.vpmulhrswZmmMasked noPrefix .noMask 1 31 (.reg 31)) :=
  ⟨(witness_ready .f7).1, operandOk_of witness_bases.1 (by decide), fun _ => by decide, trivial⟩

/-- The last 64 bytes of the address space can be read: the boundary of "does not wrap". -/
theorem witness_operand_at_the_top :
    OperandReady (withG0 launched (-64)) (.vpmulhrswZmmMasked noPrefix .noMask 1 2 atG0) :=
  operandOk_of (bases_withG0 _ witness_bases.1) (by decide)

/-- Each clause of `MaskedLaneIs`, at the ends of the lane range: K7 is FFFFFFFFFFFFFFA5H, K1 is 0. -/
theorem witness_MaskedLaneIs :
    maskBit launched .noMask 0 ∧ maskBit launched (.merging 7) 0 ∧ maskBit launched (.zeroing 7) 7 ∧
    maskBit launched (.zeroing 7) 31 ∧
    (¬maskBit launched (.merging 7) 1 ∧ ∃ k, Masking.merging 7 = .merging k) ∧
    (¬maskBit launched (.zeroing 1) 31 ∧ ∃ k, Masking.zeroing 1 = .zeroing k) := by
  refine ⟨trivial, ?_, ?_, ?_, ⟨?_, 7, rfl⟩, ⟨?_, 1, rfl⟩⟩ <;> simp only [maskBit] <;> decide

theorem witness_PackedFunctionIsLanewise : 4 ∈ [4, 8, 16, 32] ∧ 3 < 4 ∧ 32 ∈ [4, 8, 16, 32] ∧ 31 < 32 := by decide

theorem witness_MemoryLanesAreLittleEndian : 8 * 64 ≤ 512 ∧ 2 * 31 + 1 < 64 := by decide

/-- The hypotheses of the frames, and of the statements on the masks. -/
theorem witness_frames :
    (∃ t, exec (.pmulhrswMm noPrefix false 0 (.mem (.base 0 .none))) launched = .next t) ∧
    (∃ t, exec (.pmulhrswXmm noPrefix false 1 atG0) launched = .next t) ∧
    (∃ t, exec (.vpmulhrswXmm noPrefix 1 2 atG0) launched = .next t) ∧
    (∃ t, exec (.vpmulhrswYmm noPrefix 1 2 atG0) launched = .next t) ∧
    (∃ t, exec (.vpmulhrswXmmMasked noPrefix (.merging 7) 1 2 atG0) launched = .next t) ∧
    (∃ t, exec (.vpmulhrswYmmMasked noPrefix (.merging 7) 1 2 atG0) launched = .next t) ∧
    (∃ t, exec (.vpmulhrswZmmMasked noPrefix (.merging 7) 1 2 atG0) launched = .next t) := by
  refine ⟨?_, ?_, ?_, ?_, ?_, ?_, ?_⟩ <;> exact next_of_after (by decide)

/-- `launched` with the low 8 bits of every opmask register set. -/
def allSet : State := { launched with k := Vector.replicate 8 0xFF }

/-- All mask bits set; a register, and memory at one address through `disp8 = 1` scaled by `KL` and through `disp32`. -/
theorem witness_UnmaskedEvexEqualsVex :
    (∀ j < 8, maskBit allSet (.merging 1) j) ∧ (∀ j < 16, maskBit allSet .noMask j) ∧
    instrAddr allSet (.vpmulhrswXmmMasked noPrefix (.merging 1) 1 2 (.mem (.base 0 (.disp8 1)))) noPrefix (.base 0 (.disp8 1)) =
      instrAddr allSet (.vpmulhrswXmm noPrefix 1 2 (.mem (.base 0 (.disp32 16)))) noPrefix (.base 0 (.disp32 16)) ∧
    (∃ t, exec (.vpmulhrswXmmMasked noPrefix (.merging 1) 1 2 (.mem (.base 0 (.disp8 1)))) allSet = .next t) ∧
    (∃ u, exec (.vpmulhrswXmm noPrefix 1 2 (.mem (.base 0 (.disp32 16)))) allSet = .next u) ∧
    (∃ t, exec (.vpmulhrswYmmMasked noPrefix .noMask 1 2 (.reg 3)) allSet = .next t) ∧
    (∃ u, exec (.vpmulhrswYmm noPrefix 1 2 (.reg 3)) allSet = .next u) := by
  refine ⟨?_, fun _ _ => trivial, by decide, next_of_after (by decide), next_of_after (by decide), next_of_after (by decide),
    next_of_after (by decide)⟩
  simp only [maskBit]
  decide

/-- Opmask registers that agree with those of `launched` on the first 32 bits, and on no more; the executions are those of
`witness_frames`. -/
theorem witness_MaskBitsAboveLanesAreIgnored :
    (∀ (r : BitVec 3) (j : Nat), j < 32 →
      (((Vector.replicate 8 0).set 7 0x00000000FFFFFFA5 : Vector (BitVec 64) 8)[r.toNat]'r.isLt).getLsbD j =
        (launched.opmask r).getLsbD j) ∧
    (((Vector.replicate 8 0).set 7 0x00000000FFFFFFA5 : Vector (BitVec 64) 8)[7]).getLsbD 32 ≠
      (launched.opmask 7).getLsbD 32 := by
  decide

/-- A form that is switched off: form 1 by `CR0.EM`, form 7 by one bit of `XCR0`, form 4 by `MAXVL`. -/
theorem witness_DisabledFormRaisesUd :
    (ModeOk { launched with cr0 := 4 } ∧ ¬FormEnabled { launched with cr0 := 4 } .f1) ∧
    (ModeOk { launched with xcr0 := 0x67 } ∧ ¬FormEnabled { launched with xcr0 := 0x67 } .f7) ∧
    (ModeOk { launched with cfg := { resetConfig with maxvl := .v128 } } ∧
      ¬FormEnabled { launched with cfg := { resetConfig with maxvl := .v128 } } .f4) ∧
    ({ launched with cfg := { resetConfig with maxvl := .v256 } } : State).cfg.maxvl ≠ .v512 := by
  simp only [FormEnabled]; decide

theorem witness_TaskSwitchedRaisesNm (f : Form) :
    ModeOk { launched with cr0 := 8 } ∧ FormEnabled { launched with cr0 := 8 } f ∧
      ({ launched with cr0 := 8 } : State).cr0.getLsbD 3 = true := by
  cases f <;> simp only [FormEnabled] <;> decide

/-- `launched` with an x87 exception pending. -/
def pending : State := { launched with x87 := { launched.x87 with status := 0x80 } }

theorem witness_PendingX87RaisesMf :
    ModeOk pending ∧ FormEnabled pending .f1 ∧ pending.cr0.getLsbD 3 = false ∧ pending.x87.status.getLsbD 7 = true := by
  simp only [FormEnabled]; decide

/-- One byte above and one byte below a multiple of 16. -/
theorem witness_Misaligned :
    (FormReady launched .f2 ∧ BasesOk launched ∧
      (instrAddr launched (.pmulhrswXmm noPrefix false 1 (.mem (.base 0 (.disp8 1)))) noPrefix
        (.base 0 (.disp8 1))).toNat % 16 = 1 ∧
      launched.memFault (operandSeg noPrefix (.base 0 (.disp8 1))) (instrAddr launched
        (.pmulhrswXmm noPrefix false 1 (.mem (.base 0 (.disp8 1)))) noPrefix (.base 0 (.disp8 1))) 16 .read = none) ∧
    (instrAddr launched (.pmulhrswXmm noPrefix false 1 (.mem (.base 0 (.disp8 0xFF)))) noPrefix
      (.base 0 (.disp8 0xFF))).toNat % 16 = 15 ∧
    launched.cfg.align128Vex = .gp ∧
    (FormReady launched .f3 ∧ (instrAddr launched (.vpmulhrswXmm noPrefix 1 2 (.mem (.base 0 (.disp8 1)))) noPrefix
      (.base 0 (.disp8 1))).toNat % 16 = 1) ∧
    (FormReady launched .f5 ∧
      (instrAddr launched (.vpmulhrswXmmMasked noPrefix .noMask 1 2 (.mem (.base 0 (.disp32 1)))) noPrefix
        (.base 0 (.disp32 1))).toNat % 16 = 1) :=
  ⟨⟨(witness_ready .f2).1, witness_bases.1, by decide, by decide⟩, by decide, by decide, ⟨(witness_ready .f3).1, by decide⟩,
    ⟨(witness_ready .f5).1, by decide⟩⟩

/-- `launched` with paging on and no page at `first` to `last`. -/
def paged (first last : Nat) : State :=
  { launched with cfg := { resetConfig with paging := true, pages := [⟨first, last, false, false, false, false, []⟩] } }

theorem ready_paged : FormReady (paged 0x303F 0x303F) .f7 := by
  refine ⟨?_, ?_, ?_, ?_⟩ <;> (try simp only [FormEnabled]) <;> decide

/-- The last byte alone of a 64-byte operand is in a page that is not present, all lanes masked off (V4.27, D16). -/
theorem witness_OperandMemFaultIsTheOutcome :
    memOperand (.vpmulhrswZmmMasked noPrefix (.merging 1) 1 2 atG0) = some (noPrefix, .base 0 .none) ∧
    FormReady (paged 0x303F 0x303F) .f7 ∧
    AddressOk (paged 0x303F 0x303F) .f7
      (instrAddr (paged 0x303F 0x303F) (.vpmulhrswZmmMasked noPrefix (.merging 1) 1 2 atG0) noPrefix (.base 0 .none)) ∧
    (paged 0x303F 0x303F).memFault (operandSeg noPrefix (.base 0 .none))
      (instrAddr (paged 0x303F 0x303F) (.vpmulhrswZmmMasked noPrefix (.merging 1) 1 2 atG0) noPrefix (.base 0 .none))
      64 .read = some (.pf 0 0x303F) :=
  ⟨rfl, ready_paged, ⟨witness_bases.1, fun _ => by decide, by decide⟩, by decide⟩

/-- A `MemFault` as a table: an 8-byte read of the page 3000H faults though a fetch there does not, every
other access through SS is #SS, every other one of 64 bytes #GP. -/
def exampleTable : List AccessRule :=
  [⟨none, 0x3000, 0x3FFF, some 8, some .read, some (.pf 1 0x3000)⟩, ⟨none, 0x3000, 0x3FFF, none, some .fetch, none⟩,
    ⟨some .ss, 0, 2 ^ 64, none, none, some .ss⟩, ⟨none, 0, 2 ^ 64, some 64, none, some .gp⟩]

/-- `launched` with this `MemFault`. -/
def tabled : State :=
  { launched with cfg := { resetConfig with accessTable := some exampleTable } }

/-- A table can say what no choice of limits and page regions says, and is what `MemFault` answers. -/
theorem test_access_table :
    tabled.memFault .ds 0x3000 8 .read = some (.pf 1 0x3000) ∧ tabled.memFault .ss 0x3000 1 .fetch = none ∧
    tabled.memFault .ss 0x4000 8 .read = some (.ss 0) ∧ tabled.memFault .ds 0x4000 64 .read = some (.gp 0) ∧
    faultOf (exec (.pmulhrswMm noPrefix false 0 (.mem (.base 0 .none))) tabled) = some (.pageFault 1 0x3000 0x1000) := by
  decide

/-- `launched` with alignment checking active. -/
def checking : State := { launched with cr0 := 0x40000, eflags := 0x40002, cpl := 3 }

theorem ready_checking : FormReady checking .f1 := by
  refine ⟨?_, ?_, ?_, ?_⟩ <;> (try simp only [FormEnabled]) <;> decide

theorem witness_AlignmentCheckOfMmx :
    FormReady checking .f1 ∧
    AddressOk checking .f1 (instrAddr checking (.pmulhrswMm noPrefix false 0 (.mem (.base 0 (.disp8 1)))) noPrefix
      (.base 0 (.disp8 1))) ∧
    checking.memFault (operandSeg noPrefix (.base 0 (.disp8 1)))
      (instrAddr checking (.pmulhrswMm noPrefix false 0 (.mem (.base 0 (.disp8 1)))) noPrefix (.base 0 (.disp8 1)))
      8 .read = none ∧
    AcViolation checking .f1 (instrAddr checking (.pmulhrswMm noPrefix false 0 (.mem (.base 0 (.disp8 1)))) noPrefix
      (.base 0 (.disp8 1))) := by
  refine ⟨ready_checking, ⟨witness_bases.1, fun h => ?_, by decide⟩, by decide, ?_⟩
  · rcases h with h | ⟨h | h, -⟩ <;> cases h
  · simp only [AcViolation]; decide

theorem witness_OnlyMmxRaisesMfOrAc :
    (exec (.pmulhrswMm noPrefix false 0 (.reg 1)) pending = .fault (.x87Error 0x1000) ∧
      faultVector (.x87Error 0x1000) = 16) ∧
    (exec (.pmulhrswMm noPrefix false 0 (.mem (.base 0 (.disp8 1)))) checking = .fault (.alignmentCheck 0 0x1000) ∧
      faultVector (.alignmentCheck 0 0x1000) = 17) :=
  ⟨⟨fault_of_faultOf (by decide), rfl⟩, ⟨fault_of_faultOf (by decide), rfl⟩⟩

theorem witness_FaultsSaveTheFaultingPc :
    exec (.pmulhrswMm noPrefix false 0 (.reg 1)) pending = .fault (.x87Error 0x1000) ∧
    step (withBytes launched [0xF0#8, 0x0F#8, 0x38#8, 0x0B#8]) = .fault (.invalidOpcode 0x1000) :=
  ⟨fault_of_faultOf (by decide), fault_of_faultOf (by decide)⟩

/-- The last byte of an access is the first one that is not canonical; through SS and through another segment. -/
theorem witness_NonCanonicalAccessFaults :
    launched.cfg.accessTable = none ∧ launched.mode = .m64 ∧ 7 < 8 ∧ canonical ((0x00007FFFFFFFFFF9#64) + BitVec.ofNat 64 7) = false ∧
    launched.memFault .ss 0x00007FFFFFFFFFF9 8 .read = some (.ss 0) ∧
    launched.memFault .ds 0x00007FFFFFFFFFF9 8 .read = some (.gp 0) := by
  decide

/-- `launched32` with every segment of limit FFFH and not readable. -/
def limited (readable : Bool) : State := { launched32 with segs := Vector.replicate 6 ⟨0, 0, 0xFFF, readable⟩ }

/-- One byte beyond the limit; a read through a segment that is not readable. -/
theorem witness_SegmentLimitAccessFaults :
    (limited true).cfg.accessTable = none ∧ (limited false).cfg.accessTable = none ∧
    ((limited true).mode = .m32 ∧ 7 < 8 ∧ ((limited true).segReg .ds).limit.toNat < (0xFF9#32).toNat + 7) ∧
    ((limited false).mode = .m32 ∧ 0 < 8 ∧ ((limited false).segReg .ss).readable = false) := by
  decide

/-- A page fault on the first byte of a page, for a read and at CPL 3 for a fetch. -/
theorem witness_PageFaultCodeAndAddress :
    (paged 0x3004 0x3FFF).cfg.accessTable = none ∧
    (paged 0x3004 0x3FFF).memFault .ds 0x3000 8 .read = some (.pf 0 0x3004) ∧
    ({ paged 0x3004 0x3FFF with cpl := 3 } : State).memFault .cs 0x3000 8 .fetch = some (.pf 0x14 0x3004) := by
  decide

/-- `launched` at privilege level `c` with paging on and one page region, 3004H to 3FFFH. -/
def onePage (c : Fin 4) (present reservedBit supervisorOnly noExecute : Bool) (noRead : List (Fin 4)) : State :=
  { launched with
    cpl := c
    cfg := { resetConfig with
      paging := true
      pages := [⟨0x3004, 0x3FFF, present, reservedBit, supervisorOnly, noExecute, noRead⟩] } }

theorem segmentAllows_onePage (c : Fin 4) (a b d e : Bool) (l : List (Fin 4)) (kind : AccessKind) :
    SegmentAllows (onePage c a b d e l) .ds 0x3000 8 kind :=
  ⟨fun _ => (by decide : ∀ i < 8, canonical (0x3000#64 + BitVec.ofNat 64 i) = true), nofun⟩

theorem pageDenies_onePage {c : Fin 4} {a b d e : Bool} {l : List (Fin 4)} {kind : AccessKind}
    (h : a = false ∨ b = true ∨ (d = true ∧ c = 3) ∨ (kind = .read ∧ c ∈ l) ∨ (kind = .fetch ∧ e = true)) :
    PageDenies (onePage c a b d e l) kind (0x3000#64 + BitVec.ofNat 64 4) :=
  ⟨[], _, [], rfl, nofun,
    (by decide : 0x3004 ≤ (0x3000#64 + BitVec.ofNat 64 4).toNat ∧ (0x3000#64 + BitVec.ofNat 64 4).toNat ≤ 0x3FFF), h⟩

/-- Each way in which the page of the fifth byte denies an access that the segment allows. -/
theorem witness_PageFaultIsRaised :
    PageDenies (onePage 0 false false false false []) .read (0x3000#64 + BitVec.ofNat 64 4) ∧
    PageDenies (onePage 0 true true false false []) .read (0x3000#64 + BitVec.ofNat 64 4) ∧
    PageDenies (onePage 3 true false true false []) .read (0x3000#64 + BitVec.ofNat 64 4) ∧
    PageDenies (onePage 1 true false false false [1]) .read (0x3000#64 + BitVec.ofNat 64 4) ∧
    PageDenies (onePage 0 true false false true []) .fetch (0x3000#64 + BitVec.ofNat 64 4) ∧
    ModeOk (onePage 0 true false false true []) ∧ (onePage 0 true false false true []).cfg.accessTable = none ∧
    (onePage 0 true false false true []).cfg.paging = true ∧
    SegmentAllows (onePage 0 true false false true []) .ds 0x3000 8 .fetch :=
  ⟨pageDenies_onePage (by decide), pageDenies_onePage (by decide), pageDenies_onePage (by decide),
    pageDenies_onePage (by decide), pageDenies_onePage (by decide), by decide, by decide, by decide,
    segmentAllows_onePage ..⟩

/-- No byte is denied where the region is below the access, and where paging is off. -/
theorem witness_NoPageFault :
    SegmentAllows (onePage 0 false false false false []) .ds 0x3000 4 .read ∧
    (∀ i < 4, ¬PageDenies (onePage 0 false false false false []) .read (0x3000#64 + BitVec.ofNat 64 i)) ∧
    launched.cfg.paging = false := by
  refine ⟨⟨fun _ i hi => (segmentAllows_onePage 0 false false false false [] .read).1 rfl i (by omega), nofun⟩, ?_, by decide⟩
  rintro i hi ⟨before, r, later, hp, -, hr, -⟩
  have hmem : r ∈ (onePage 0 false false false false []).cfg.pages := by simp [hp]
  obtain rfl : r = ⟨0x3004, 0x3FFF, false, false, false, false, []⟩ := List.mem_singleton.1 hmem
  have := hr.1
  simp only [BitVec.toNat_add, BitVec.toNat_ofNat] at this
  omega

theorem witness_PrivilegeLevelIsInvisible :
    launched.cfg.paging = false ∧ launched.eflags.getLsbD 18 = false ∧
    ∃ t, exec (.pmulhrswXmm noPrefix false 1 atG0) launched = .next t :=
  ⟨by decide, by decide, next_of_after (by decide)⟩

theorem witness_OtherModesAreRefused : ¬ModeOk State.reset := by decide

/-- FS with a base that is a multiple of 32 only. -/
theorem witness_UnalignedSegmentBase :
    memOperand (.pmulhrswXmm noPrefix false 1 atG0) = some (noPrefix, .base 0 .none) ∧
    FormReady { launched with segs := launched.segs.set 4 { resetSeg with base := 0x20 } } .f2 ∧
    ¬BasesOk { launched with segs := launched.segs.set 4 { resetSeg with base := 0x20 } } := by
  refine ⟨rfl, ⟨?_, ?_, ?_, ?_⟩, fun h => absurd (h .fs) (by decide)⟩ <;> (try simp only [FormEnabled]) <;> decide

/-- A 32-byte operand one byte too high, in each mode. -/
theorem witness_WrappingOperandIsRefused :
    (FormReady (withG0 launched (-31)) .f4 ∧ BasesOk (withG0 launched (-31)) ∧
      2 ^ (withG0 launched (-31)).addrBits <
        (instrAddr (withG0 launched (-31)) (.vpmulhrswYmm noPrefix 1 2 atG0) noPrefix (.base 0 .none)).toNat + 32) ∧
    (FormReady (withG0 launched32 0xFFFFFFE1) .f4 ∧ BasesOk (withG0 launched32 0xFFFFFFE1) ∧
      2 ^ (withG0 launched32 0xFFFFFFE1).addrBits <
        (instrAddr (withG0 launched32 0xFFFFFFE1) (.vpmulhrswYmm noPrefix 1 2 atG0) noPrefix (.base 0 .none)).toNat + 32) ∧
    ¬NeedsAlign16 launched.cfg .f4 := by
  refine ⟨⟨(witness_ready .f4).1, bases_withG0 _ witness_bases.1, by decide⟩,
    ⟨(witness_ready .f4).2, bases_withG0 _ witness_bases.2, by decide⟩, ?_⟩
  rintro (h | ⟨h | h, -⟩) <;> cases h

/-- Four bytes below the first address that is not canonical. -/
theorem witness_NonCanonicalNextPcIsRefused :
    FormReady { launched with pc := 0x7FFFFFFFFFFC } .f1 ∧
    OperandReady { launched with pc := 0x7FFFFFFFFFFC } (.pmulhrswMm noPrefix false 0 (.reg 1)) ∧
    ¬PcAfterOk { launched with pc := 0x7FFFFFFFFFFC } (Instr.ilen (.pmulhrswMm noPrefix false 0 (.reg 1))) := by
  refine ⟨⟨?_, ?_, ?_, ?_⟩, trivial, fun h => absurd (h rfl) (by decide)⟩ <;> (try simp only [FormEnabled]) <;> decide

/-- An instruction that ends with the last byte of the address space has no next address in `M64`, and in `M32` it has one. -/
theorem witness_pc_at_the_end :
    ¬PcAfterOk { launched with pc := -4 } (Instr.ilen (.pmulhrswMm noPrefix false 0 (.reg 1))) ∧
    refusalOf (exec (.pmulhrswMm noPrefix false 0 (.reg 1)) { launched with pc := -4 }) = some .nextPcNotCanonical ∧
    after (exec (.pmulhrswMm noPrefix false 0 (.reg 1)) { launched32 with pc := 0xFFFFFFFC }) (fun t => t.pc) = some 0 :=
  ⟨fun h => absurd (h rfl) (by decide), by decide, by decide⟩

/-- Every addressing form is well-formed in a mode. -/
theorem witness_EffectiveAddressIsTheSum :
    ModeOk launched ∧ ModeOk launched32 ∧
    (MemAddr.base 0 (.disp8 1)).wf launched.mode noPrefix = true ∧
    (MemAddr.dispOnly 1).wf launched.mode addr32 = true ∧ (MemAddr.dispOnly 1).wf launched32.mode noPrefix = true ∧
    (MemAddr.sib 15 (some (12, 3)) (.disp32 1)).wf launched.mode noPrefix = true ∧
    (MemAddr.sibNoBase none 1).wf launched32.mode noPrefix = true ∧
    (MemAddr.base16 .bp (.disp8 1)).wf launched32.mode addr32 = true ∧
    (MemAddr.dispOnly16 1).wf launched32.mode addr32 = true := by decide

/-- Both modes; an address of each kind that uses SS, and one of each kind that does not (12 and 13 are not 4 and 5). -/
theorem witness_LinearAddressIsBasePlusEffective :
    launched32.mode = .m32 ∧ launched.mode = .m64 ∧ UsesStackBase (.base 5 (.disp8 0)) ∧ UsesStackBase (.sib 4 none .none) ∧
    UsesStackBase (.base16 .bp (.disp8 4)) ∧ ¬UsesStackBase (.base 13 (.disp8 0)) ∧ ¬UsesStackBase (.sibNoBase none 0) ∧
    ¬UsesStackBase (.base16 .bx .none) := by
  refine ⟨rfl, rfl, .inl ⟨_, _, rfl, .inr rfl⟩, .inr (.inl ⟨_, _, _, rfl, .inl rfl⟩), .inr (.inr ⟨_, _, rfl, .inr (.inr rfl)⟩),
    ?_, ?_, ?_⟩ <;> simp [UsesStackBase]

/-- V5: the segments of `[rsp]`, `[rbp+0]`, `[r13+0]`, `[r12]` and, in `M32`, `[bp+4]`. -/
theorem test_segments :
    operandSeg noPrefix (.sib 4 none .none) = .ss ∧ operandSeg noPrefix (.base 5 (.disp8 0)) = .ss ∧
    operandSeg noPrefix (.base 13 (.disp8 0)) = .ds ∧ operandSeg noPrefix (.sib 12 none .none) = .ds ∧
    operandSeg addr32 (.base16 .bp (.disp8 4)) = .ss ∧ operandSeg ⟨some .gs, false⟩ (.base 5 (.disp8 0)) = .gs := by
  decide

/-- A well-formed instruction of every form, the EVEX ones also in `M32`; and what the statements on prefixes ask of it. -/
theorem witness_DecodeOfEncode :
    (Instr.pmulhrswMm noPrefix true 7 (.mem (.base 9 .none))).wf .m64 = true ∧
    (Instr.pmulhrswXmm addr32 false 7 (.mem (.base16 .bx (.disp16 1)))).wf .m32 = true ∧
    (Instr.vpmulhrswXmm noPrefix 15 8 (.reg 15)).wf .m64 = true ∧
    (Instr.vpmulhrswYmm ⟨some .gs, true⟩ 7 7 (.mem (.dispOnly16 5))).wf .m32 = true ∧
    (Instr.vpmulhrswXmmMasked noPrefix (.merging 1) 16 31 (.reg 24)).wf .m64 = true ∧
    (Instr.vpmulhrswYmmMasked noPrefix (.zeroing 7) 7 7 (.reg 7)).wf .m32 = true ∧
    (Instr.vpmulhrswZmmMasked noPrefix .noMask 31 16 (.mem (.sib 12 (some (15, 3)) (.disp8 0x80)))).wf .m64 = true := by
  decide

/-- A prefix between the two of the encoding, and after both; a REX byte at both ends of its range. -/
theorem witness_PrefixBeforeVexRaisesUd :
    (Instr.vpmulhrswXmm ⟨some .gs, true⟩ 15 8 (.reg 15)).wf .m64 = true ∧
    (Instr.vpmulhrswXmm ⟨some .gs, true⟩ 15 8 (.reg 15)).form ≠ .f1 ∧
    (Instr.vpmulhrswXmm ⟨some .gs, true⟩ 15 8 (.reg 15)).form ≠ .f2 ∧
    encode (.vpmulhrswXmm ⟨some .gs, true⟩ 15 8 (.reg 15)) =
      [0x65#8] ++ [0x67#8, 0xC4#8, 0x42#8, 0x39#8, 0x0B#8, 0xFF#8] ∧
    (∀ x ∈ [0x65#8, 0x67#8], isLegacyPrefix x = true) ∧
    0x66#8 ∈ [0x66#8, 0xF2#8, 0xF3#8] ∧ (0x40#8).extractLsb' 4 4 = 4#4 ∧ (0x4F#8).extractLsb' 4 4 = 4#4 := by
  decide

/-- Each clause of the refused encodings, on bytes at the ends of its condition. -/
theorem witness_NeighbouringEncodingsAreRefused :
    ((Instr.pmulhrswMm noPrefix true 7 (.mem (.base 9 .none))).wf .m64 = true ∧
      (Instr.pmulhrswMm noPrefix true 7 (.mem (.base 9 .none))).form = .f1) ∧
    (isLegacyPrefix 0x66#8 = true ∧ ∀ x ∈ [0x67#8], isLegacyPrefix x = true) ∧
    (isSegmentOverride 0x26#8 = true ∧ isSegmentOverride 0x65#8 = true) ∧
    ((0x48#8).extractLsb' 4 4 = 4#4 ∧ (0x48#8).getLsbD 3 = true) ∧
    ((0x44#8).extractLsb' 4 4 = 4#4 ∧ (0x44#8).getLsbD 3 = false ∧ (0x44#8).getLsbD 2 = true ∧ (0x41#8).getLsbD 0 = true ∧
      (Rm.reg 1#3).wf .m64 noPrefix (fun _ => true) = true) ∧
    ((0xBF#8).extractLsb' 6 2 ≠ 3#2 ∧ (0xC2#8).extractLsb' 6 2 = 3#2) ∧
    (¬((0xE1#8).extractLsb' 0 5 = 2#5) ∧ (0xC2#8).extractLsb' 0 5 = 2#5 ∧ (0x69#8).extractLsb' 0 2 = 1#2 ∧
      (0xC2#8).getLsbD 5 = false ∧ (0x29#8).getLsbD 6 = false) ∧
    ((0xF1#8).extractLsb' 2 2 = 0#2 ∧ (0x6D#8).getLsbD 2 = true ∧ (0xF1#8).extractLsb' 0 2 ≠ 0#2 ∧
      (0xF1#8).extractLsb' 0 2 ≠ 2#2) ∧
    ((0xE2#8).extractLsb' 0 4 = 2#4 ∧ (0x6D#8).extractLsb' 0 3 = 5#3 ∧ (0x48#8).extractLsb' 5 2 ≠ 3#2 ∧
      (0x48#8).getLsbD 4 = false ∧ (0x48#8).getLsbD 3 = true ∧ (0xE2#8).getLsbD 4 = false ∧ (0xB2#8).getLsbD 6 = false ∧
      (MemAddr.dispOnly 0).wf .m64 noPrefix = true ∧ hasSib (.dispOnly 0) = false) ∧
    (isLegacyPrefix 0x90#8 = false ∧ (0x90#8).extractLsb' 4 4 ≠ 4#4 ∧ 0x90#8 ∉ [0x0F#8, 0x62#8, 0xC4#8, 0xC5#8]) ∧
    0x0A#8 ≠ 0x0B#8 := by
  decide

/-- Two encodings of one instruction: the prefixes in either order, `W` and the unused X bit set. -/
theorem test_ignored_bits :
    IsEncodingOf .m64 (.vpmulhrswXmm ⟨some .gs, true⟩ 1 2 (.reg 3)) [0x67#8, 0x65#8, 0xC4#8, 0xA2#8, 0xE9#8, 0x0B#8, 0xCB#8] ∧
    decode .m64 [0x67#8, 0x65#8, 0xC4#8, 0xA2#8, 0xE9#8, 0x0B#8, 0xCB#8] =
      .ok (.vpmulhrswXmm ⟨some .gs, true⟩ 1 2 (.reg 3), []) :=
  ⟨⟨[0x67#8, 0x65#8], [0xC4#8, 0xA2#8, 0xE9#8, 0x0B#8, 0xCB#8], rfl, List.Perm.swap .., by decide⟩, by decide⟩

theorem witness_DecodedIsWellFormedAndConsumed :
    Mode.admitted .m64 = true ∧
    decode .m64 [0x62#8, 0xE2#8, 0x6D#8, 0x08#8, 0x0B#8, 0xC3#8, 0x90#8] =
      .ok (.vpmulhrswXmmMasked noPrefix .noMask 16 2 (.reg 3), [0x90#8]) := by
  decide

theorem witness_FifteenBytesDecide : 15 ≤ (List.replicate 15 0x66#8).length := by decide

/-- Each disjunct of the reserved encodings, with the mode's condition: payload F2H 6DH 48H with one field changed. -/
theorem witness_ReservedEvexRaisesUd :
    (0xF6#8).extractLsb' 2 2 ≠ 0#2 ∧ (0x69#8).getLsbD 2 = false ∧ (0xF0#8).extractLsb' 0 2 = 0#2 ∧
    (0xF2#8).extractLsb' 0 2 = 2#2 ∧ (0x6D#8).extractLsb' 0 2 = 1#2 ∧ (0x68#8).extractLsb' 5 2 = 3#2 ∧
    (0x58#8).getLsbD 4 = true ∧ ((0xC8#8).extractLsb' 0 3 = 0#3 ∧ (0xC8#8).getLsbD 7 = true) ∧
    ((0xF2#8).extractLsb' 6 2 = 3#2 ∧ (0x41#8).getLsbD 3 = false) := by
  decide

/-- `launched` about to run V3.1, no byte after it fetchable. -/
def atCode : State := withBytes (paged 0x1005 0x1FFF) [0xC4#8, 0xE2#8, 0x69#8, 0x0B#8, 0xCB#8]

theorem witness_StepRunsTheDecodedInstr :
    ModeOk atCode ∧ decode atCode.mode (atCode.fetchWindow maxIlen atCode.pc).1 =
      .ok (.vpmulhrswXmm noPrefix 1 2 (.reg 3), []) := by
  decide

/-- `launched` about to run V3.1, whose last byte is in a page that is not present. -/
def cutOff : State := withBytes (paged 0x1004 0x1FFF) [0xC4#8, 0xE2#8, 0x69#8, 0x0B#8]

/-- The decoder's other answers: LOCK is #UD, C5H is refused, and a form cut off by a page that is not present asks for more. -/
theorem witness_step_of_other_answers :
    decode .m64 ((withBytes launched [0xF0#8, 0x0F#8, 0x38#8, 0x0B#8]).fetchWindow maxIlen launched.pc).1 = .error .ud ∧
    decode .m64 ((withBytes launched [0xC5#8]).fetchWindow maxIlen launched.pc).1 = .error (.refuse .twoByteVex) ∧
    decode .m64 (cutOff.fetchWindow maxIlen cutOff.pc).1 = .error .more ∧
    (cutOff.fetchWindow maxIlen cutOff.pc).2 = some (.pf 0x10 0x1004) := by
  decide

theorem witness_StepRunsTheEncodedInstr :
    (Instr.vpmulhrswXmm noPrefix 1 2 (.reg 3)).wf atCode.mode = true ∧
    CodeAt atCode (.vpmulhrswXmm noPrefix 1 2 (.reg 3)) := by
  refine ⟨by decide, ?_⟩
  show ∀ k (h : k < 5), _
  decide

/-- The first byte, and the last byte of five. -/
theorem witness_FetchFaultComesFirst :
    (ModeOk (paged 0x1000 0x1000) ∧
      (paged 0x1000 0x1000).memFault .cs (codeAddr (paged 0x1000 0x1000) 0) 1 .fetch = some (.pf 0x10 0x1000)) ∧
    ModeOk cutOff ∧ (∀ j < 4, cutOff.memFault .cs (codeAddr cutOff j) 1 .fetch = none) ∧
    decode cutOff.mode ((List.range 4).map fun j => cutOff.mem.read (codeAddr cutOff j).toNat) = .error .more ∧
    cutOff.memFault .cs (codeAddr cutOff 4) 1 .fetch = some (.pf 0x10 0x1004) := by
  decide

/-- V6: an exception on fetching comes before anything else, here before the #UD of a form that is not enabled. -/
theorem test_fetch_fault :
    faultOf (step { cutOff with xcr0 := 1 }) = some (.pageFault 0x10 0x1004 0x1000) ∧
    faultOf (step (withBytes launched [0xF0#8, 0x0F#8, 0x38#8, 0x0B#8])) = some (.invalidOpcode 0x1000) ∧
    refusalOf (step (withBytes launched [0xC5#8])) = some (.notOneOfTheForms .twoByteVex) := by
  decide

/-- The invariant holds in `atCode`, and its step completes: of the statements on a step. -/
theorem witness_StepKeepsInvariant : Inv atCode ∧ ∃ t, step atCode = .next t := by
  refine ⟨⟨by decide, ?_, by unfold PcLegal; decide⟩, next_of_after (by decide)⟩
  unfold VectorsExist
  decide

/-- A run of two instructions that reaches its end (P1 with register operands): `0F 38 0B C1`, `0F 38 0B C0`. -/
theorem witness_SuccessfulRunChangesNoMemory :
    ∃ t, runTo 0x1008 2 (withBytes launched [0x0F#8, 0x38#8, 0x0B#8, 0xC1#8, 0x0F#8, 0x38#8, 0x0B#8, 0xC0#8]) =
      .reached t := by
  have h : (match runTo 0x1008 2 (withBytes launched
      [0x0F#8, 0x38#8, 0x0B#8, 0xC1#8, 0x0F#8, 0x38#8, 0x0B#8, 0xC0#8]) with
    | .reached _ => true
    | _ => false) = true := by decide
  split at h
  · exact ⟨_, ‹_›⟩
  · cases h

theorem witness_ResetDisablesAllButMmx :
    Mode.admitted .m32 = true ∧ (Instr.pmulhrswXmm noPrefix false 1 (.reg 2)).form ≠ .f1 := by decide

theorem witness_LaunchMakesFormsReady : formPresent State.reset.cfg .f7 = true := by decide

end Sys2Proof.Tests
end

section
/-! SUPPORT. What the sufficient conditions of Safety.lean give: the checks of a ready form pass, `pc` advances, a readable
operand is read. Each ties a word of the statements to the operation of the model it speaks about. -/

namespace Sys2Proof.Machine

/-! ### The next instruction's address -/

/-- The model's wrapped sum is the spec's sum modulo `2^A` (R28, R60). -/
theorem nextPc_eq_pcAfter (s : State) (n : Nat) : s.nextPc n = pcAfter s n := by
  unfold State.nextPc State.wrapAddr pcAfter State.addrBits
  apply BitVec.eq_of_toNat_eq
  split
  · simp only [BitVec.toNat_setWidth, BitVec.toNat_add, BitVec.toNat_ofNat]
    omega
  · simp only [BitVec.toNat_add, BitVec.toNat_ofNat]
    omega

/-- An instruction whose next pc is legal advances to it, from the state `s'` that its register writes have left. -/
theorem advance_of_pcAfterOk {s s' : State} {n : Nat} (hmode : s'.mode = s.mode) (hpc : s'.pc = s.pc)
    (h : PcAfterOk s n) : s'.advance n = .ok (s'.setPc (pcAfter s n)) := by
  have hsame : s'.nextPc n = pcAfter s n := by
    rw [nextPc_eq_pcAfter, pcAfter, pcAfter, State.addrBits, State.addrBits, hmode, hpc]
  rw [advance_eq_ok, hsame, hmode, hpc]
  refine ⟨?_, rfl⟩
  rintro ⟨hm, hbig | hcanon⟩
  · exact absurd (h hm).1 (by omega)
  · simp [(h hm).2] at hcanon

/-! ### Checks before the operand -/

theorem admitted_of_modeOk {s : State} (h : ModeOk s) : s.mode.admitted = true := by
  rcases h with h | h <;> rw [h] <;> rfl

/-- Steps 1 to 3 of R195 pass for a ready form 1. -/
theorem checkMmx_of_ready {s : State} (h : FormReady s .f1) : checkMmx s = .ok () := by
  obtain ⟨hmode, ⟨hssse3, hem⟩, hts, hx87⟩ := h
  have hud : (!formPresent s.cfg .f1 || s.cr0Em) = false := by
    rw [formPresent, State.cr0Em, hssse3, hem]; rfl
  exact checkMmx_eq_ok.2 ⟨checkUdNm_eq_ok.2 ⟨admitted_of_modeOk hmode, hud, hts⟩, hx87 rfl⟩

/-- Steps 1 and 2 of R194 pass for a ready form 2. -/
theorem checkSse_of_ready {s : State} (h : FormReady s .f2) : checkSse s = .ok () := by
  obtain ⟨hmode, ⟨hssse3, hem, hosfxsr⟩, hts, -⟩ := h
  have hud : (!formPresent s.cfg .f2 || s.cr0Em || !s.cr4Osfxsr) = false := by
    rw [formPresent, State.cr0Em, State.cr4Osfxsr, hssse3, hem, hosfxsr]; rfl
  exact checkUdNm_eq_ok.2 ⟨admitted_of_modeOk hmode, hud, hts⟩

/-! ### Checks of the memory operand -/

theorem segBasesAdmitted_iff_basesOk {s : State} : s.segBasesAdmitted = true ↔ BasesOk s := by
  simp only [State.segBasesAdmitted, List.all_cons, List.all_nil, Bool.and_true, Bool.and_eq_true, beq_iff_eq]
  constructor
  · rintro ⟨hes, hcs, hss, hds, hfs, hgs⟩ x
    cases x <;> assumption
  · exact fun h => ⟨h _, h _, h _, h _, h _, h _⟩

theorem formAlignGp_iff_needsAlign16 {c : Config} {f : Form} : formAlignGp c f = true ↔ NeedsAlign16 c f := by
  cases f <;> simp [formAlignGp, NeedsAlign16]

theorem formBytes_eq_operandBytes (f : Form) : formBytes f = operandBytes f := by
  cases f <;> rfl

theorem formAlignAc_iff {f : Form} : formAlignAc f = true ↔ f = .f1 := by
  cases f <;> simp [formAlignAc]

theorem acCheck_iff_acViolation {s : State} {f : Form} {lin : Word} :
    (formAlignAc f && s.acActive && lin.toNat % 8 != 0) = true ↔ AcViolation s f lin := by
  simp only [AcViolation, State.acActive, State.cr0Am, State.eflagsAc, Bool.and_eq_true, formAlignAc_iff, beq_iff_eq,
    bne_iff_ne, and_assoc]

/-- A readable memory operand is read: its bytes, least significant first. -/
theorem loadOperand_of_operandOk (w : Nat) {s : State} {f : Form} {p : Prefixes} {ilen : Nat} {a : MemAddr}
    (h : OperandOk s f p ilen a) :
    loadOperand w s f p ilen a = .ok (s.mem.readLe w (s.operandAddr f p ilen a).toNat (operandBytes f)) := by
  obtain ⟨⟨hbases, halign, hwrap⟩, hfault, hac⟩ := h
  rw [loadOperand_eq_ok, formBytes_eq_operandBytes]
  refine ⟨segBasesAdmitted_iff_basesOk.2 hbases, ?_, by omega, hfault, ?_, rfl⟩
  · cases hgp : formAlignGp s.cfg f with
    | false => rfl
    | true => simp [halign (formAlignGp_iff_needsAlign16.1 hgp)]
  · rwa [← Bool.not_eq_true, acCheck_iff_acViolation]

theorem operandOk_of_ready {s : State} {i : Instr} {p : Prefixes} {a : MemAddr} (h : OperandReady s i)
    (hmem : memOperand i = some (p, a)) : OperandOk s i.form p i.ilen a := by
  rw [OperandReady, hmem] at h
  exact h

/-- A misaligned operand of a form that needs alignment raises #GP(0), whatever the later checks would say (R53, R54). -/
theorem loadOperand_of_misaligned (w : Nat) {s : State} {f : Form} {p : Prefixes} {ilen : Nat} {a : MemAddr}
    (hbases : BasesOk s) (hneeds : NeedsAlign16 s.cfg f) (hmis : (s.operandAddr f p ilen a).toNat % 16 ≠ 0) :
    loadOperand w s f p ilen a = .error (.fault (s.takeException (.gp 0))) := by
  simp [loadOperand, segBasesAdmitted_iff_basesOk.2 hbases, formAlignGp_iff_needsAlign16.2 hneeds, hmis, raise]

end Sys2Proof.Machine
end

section
/-! SUPPORT. The lanes of what the forms read and write: packed results, the low part of a wide register, the bytes of a
memory operand, the r/m operand of each class of form. -/

namespace Sys2Proof.Machine

/-! ### Lanes of composed values -/

theorem lane_pmulhrs {w n j : Nat} (x y : BitVec w) (hj : j < n) (hw : 16 * n ≤ w) :
    lane (pmulhrs n x y) j = mulhrs16 (lane x j) (lane y j) :=
  lane_packLanes _ hj hw

/-- A lane that lies whole in the low `v` bits is not changed by cutting or widening to `v` bits. -/
theorem lane_setWidth {w v j : Nat} (x : BitVec w) (hj : 16 * j + 16 ≤ v) : lane (x.setWidth v) j = lane x j := by
  apply BitVec.eq_of_getLsbD_eq
  intro b hb
  have hv : 16 * j + b < v := by omega
  simp [lane_getLsbD, hv]

theorem lane_append_low {v w j : Nat} (hi : BitVec v) (lo : BitVec w) (hj : 16 * j + 16 ≤ w) :
    lane (hi ++ lo) j = lane lo j := by
  apply BitVec.eq_of_getLsbD_eq
  intro b hb
  have hw : 16 * j + b < w := by omega
  simp [lane_getLsbD, BitVec.getLsbD_append, hw]

/-- Replacing the low `w` bits keeps every bit above them. -/
theorem getLsbD_keepHigh {v w b : Nat} (x : BitVec (v + w)) (lo : BitVec w) (hb : w ≤ b) :
    (x.extractLsb' w v ++ lo).getLsbD b = x.getLsbD b := by
  have hlow : ¬ b < w := by omega
  have hback : w + (b - w) = b := by omega
  rw [BitVec.getLsbD_append, if_neg hlow, BitVec.getLsbD_extractLsb', hback]
  by_cases htop : b < v + w
  · have hin : b - w < v := by omega
    simp [hin]
  · rw [BitVec.getLsbD_of_ge x b (by omega), Bool.and_false]

/-- Lane `j` of a wide read is its bytes `2j` and `2j + 1`, the lower address the less significant (R50). -/
theorem lane_readLe {w n j : Nat} (m : Memory) (a : Nat) (hw : 8 * n ≤ w) (hj : 2 * j + 1 < n) :
    lane (m.readLe w a n) j = m.read (a + 2 * j + 1) ++ m.read (a + 2 * j) := by
  apply BitVec.eq_of_getLsbD_eq
  intro b hb
  have hbit : 16 * j + b < w := by omega
  rw [lane_getLsbD, Memory.readLe_getLsbD, BitVec.getLsbD_append]
  by_cases hlow : b < 8
  · have hq : (16 * j + b) / 8 = 2 * j := by omega
    have hr : (16 * j + b) % 8 = b := by omega
    have hbyte : 2 * j < n := by omega
    simp [hb, hbit, hbyte, hlow, hq, hr]
  · have hq : (16 * j + b) / 8 = 2 * j + 1 := by omega
    have hr : (16 * j + b) % 8 = b - 8 := by omega
    simp [hb, hbit, hj, hlow, hq, hr, Nat.add_assoc]

/-! ### The r/m operand, lane by lane -/

theorem two_mul_lanes_eq_bytes (f : Form) : 2 * formLanes f = operandBytes f := by
  cases f <;> rfl

/-- A readable memory operand is read as the lanes its bytes make up. -/
theorem loadOperand_lanes {w : Nat} {s : State} {f : Form} {p : Prefixes} {ilen : Nat} {a : MemAddr}
    (hw : 16 * formLanes f ≤ w) (h : OperandOk s f p ilen a) :
    ∃ x, loadOperand w s f p ilen a = .ok x ∧ ∀ j < formLanes f,
      lane x j = byteAt s (s.operandAddr f p ilen a) (2 * j + 1) ++ byteAt s (s.operandAddr f p ilen a) (2 * j) := by
  have hbytes := two_mul_lanes_eq_bytes f
  refine ⟨_, loadOperand_of_operandOk w h, fun j hj => ?_⟩
  exact lane_readLe _ _ (by omega) (by omega)

/-- The operand of form 1, if ready, is read, and its lanes are those R92 and R50 give. -/
theorem mmOperand_lanes {s : State} {p : Prefixes} {rex : Bool} {dst : BitVec 3} {src : Rm 3}
    (h : OperandReady s (.pmulhrswMm p rex dst src)) :
    ∃ x, mmOperand s p (legacyIlen p false rex src) src = .ok x ∧
      ∀ j < 4, lane x j = mmSourceLane s p (legacyIlen p false rex src) src j := by
  cases src with
  | reg r => exact ⟨_, rfl, fun _ _ => rfl⟩
  | mem a => exact loadOperand_lanes (f := .f1) (by decide) (operandOk_of_ready h rfl)

/-- The operand of forms 2 to 7, if it is a register or can be read, is read, and its lanes are those R93, R99, R103 and R50
give. -/
theorem vecOperand_lanes {w : Nat} {s : State} {f : Form} {p : Prefixes} {ilen : Nat} {src : Rm 5}
    (hw : 16 * formLanes f ≤ w) (h : ∀ a, src = .mem a → OperandOk s f p ilen a) :
    ∃ x, vecOperand w s f p ilen src = .ok x ∧ ∀ j < formLanes f, lane x j = vecSourceLane s f p ilen src j := by
  cases src with
  | reg r => exact ⟨_, rfl, fun j hj => lane_setWidth _ (by omega)⟩
  | mem a => exact loadOperand_lanes hw (h a rfl)

/-! ### A legacy vector write -/

theorem lane_vec_setXmmKeep {s : State} {i : BitVec 5} {x : BitVec 128} {j : Nat} (hj : j < 8) :
    lane ((s.setXmmKeep i x).vec i) j = lane x j := by
  rw [State.setXmmKeep_eq, State.vec_setVec_same]
  exact lane_append_low _ x (by omega)

/-- The bits from 128 up are kept (R146). -/
theorem getLsbD_vec_setXmmKeep {s : State} {i : BitVec 5} {x : BitVec 128} {b : Nat} (hb : 128 ≤ b) :
    ((s.setXmmKeep i x).vec i).getLsbD b = (s.vec i).getLsbD b := by
  rw [State.setXmmKeep_eq, State.vec_setVec_same]
  exact getLsbD_keepHigh (v := 384) (w := 128) (s.vec i) x hb

end Sys2Proof.Machine
end

section
/-! The statements of `40_pmulhrsw_legacy.md`: the lane function, its packing, forms 1 and 2. -/

namespace Sys2Proof.Machine

/-- Settles O1: the three machine steps of `mulhrs16` are the three arithmetic ones, the modulus of each being the width it is
computed in. -/
theorem mulhrs16FollowsPseudocode : Obligations.Mulhrs16FollowsPseudocode := by
  intro a b
  have hp32 : (BitVec.ofInt 32 (a.toInt * b.toInt)).toNat = ((a.toInt * b.toInt) % 2 ^ 32).toNat :=
    BitVec.toNat_ofInt ..
  simp only [mulhrs16, BitVec.extractLsb'_toNat, BitVec.toNat_add, BitVec.toNat_ushiftRight, BitVec.toNat_ofNat, hp32,
    Nat.shiftRight_eq_div_pow, pow_one]

/-- Settles O6, from what packing gives lane by lane. -/
theorem packedFunctionIsLanewise : Obligations.PackedFunctionIsLanewise :=
  fun _ _ x y _ hj => lane_pmulhrs x y hj le_rfl

/-- Settles O8: the checks pass, the operand is read, `pc` advances; the next state is the one so reached. -/
theorem pmulhrswMmResult : Obligations.PmulhrswMmResult := by
  intro p rex dst src s hready hoperand hpc
  obtain ⟨x, hx, hlanes⟩ := mmOperand_lanes hoperand
  have hadvance := advance_of_pcAfterOk (s' := (s.setMm dst (pmulhrs 4 (s.mmReg dst) x)).mmxTransition dst) rfl rfl hpc
  refine ⟨_, execPmulhrswMm_eq_next.2 ⟨checkMmx_of_ready hready, x, hx, hadvance⟩, State.setPc_pc .., fun j hj => ?_⟩
  · rw [State.mmReg_setPc, State.mmReg_mmxTransition, State.mmReg_setMm_same, lane_pmulhrs _ _ hj (by decide),
      hlanes j hj]
    rfl

/-- Form 2 completes with the lanes of R146 (first part of O9). -/
theorem execPmulhrswXmm_completes {p : Prefixes} {rex : Bool} {dst : BitVec 5} {src : Rm 5} {s : State}
    (hready : FormReady s .f2) (hoperand : OperandReady s (.pmulhrswXmm p rex dst src))
    (hpc : PcAfterOk s (legacyIlen p true rex src)) :
    ∃ x, execPmulhrswXmm p rex dst src s =
        .next ((s.setXmmKeep dst (pmulhrs 8 (s.vecLow 128 dst) x)).setPc (pcAfter s (legacyIlen p true rex src))) ∧
      ∀ j < 8, lane x j = vecSourceLane s .f2 p (legacyIlen p true rex src) src j := by
  have hmem : ∀ a, src = .mem a → OperandOk s .f2 p (legacyIlen p true rex src) a := by
    rintro a rfl
    exact operandOk_of_ready hoperand rfl
  obtain ⟨x, hx, hlanes⟩ := vecOperand_lanes (w := 128) (by decide) hmem
  have hadvance := advance_of_pcAfterOk (s' := s.setXmmKeep dst (pmulhrs 8 (s.vecLow 128 dst) x)) rfl rfl hpc
  exact ⟨x, execPmulhrswXmm_eq_next.2 ⟨checkSse_of_ready hready, x, hx, hadvance⟩, hlanes⟩

/-- A misaligned memory operand of form 2 raises #GP(0) (R53). -/
theorem execPmulhrswXmm_of_misaligned {p : Prefixes} {rex : Bool} {dst : BitVec 5} {a : MemAddr} {s : State}
    (hready : FormReady s .f2) (hbases : BasesOk s)
    (hmis : (s.operandAddr .f2 p (legacyIlen p true rex (.mem a : Rm 5)) a).toNat % 16 ≠ 0) :
    execPmulhrswXmm p rex dst (.mem a) s = .fault (.generalProtection 0 s.pc) := by
  have hload := loadOperand_of_misaligned 128 hbases (.inl rfl) hmis
  exact finish_eq_fault.2 (bind_eq_error.2 (.inr ⟨(), checkSse_of_ready hready, bind_eq_error.2 (.inl hload)⟩))

/-- Settles O9, from the two outcomes of form 2 above and what a legacy vector write leaves in the register. -/
theorem pmulhrswXmmResult : Obligations.PmulhrswXmmResult := by
  refine ⟨fun p rex dst src s hready hoperand hpc => ?_, fun p rex dst a s hready hbases hmis _ _ => ?_⟩
  · obtain ⟨x, hexec, hlanes⟩ := execPmulhrswXmm_completes hready hoperand hpc
    refine ⟨_, hexec, rfl, fun j hj => ?_, fun b hb => ?_⟩
    · rw [State.vec_setPc, lane_vec_setXmmKeep hj, lane_pmulhrs _ _ hj (by decide), hlanes j hj, State.vecLow,
        lane_setWidth _ (by omega)]
      rfl
    · rw [State.vec_setPc, getLsbD_vec_setXmmKeep hb]
  · exact execPmulhrswXmm_of_misaligned hready hbases hmis

end Sys2Proof.Machine
end

section
/-! SUPPORT. The checks of forms 3 and 4: what presence on the processor and the AVX state say, when `checkVex` passes and when
it raises #UD; and what a VEX write leaves in the register. -/

namespace Sys2Proof.Machine

/-! ### Presence and enabled state -/

theorem maxvlBits_ge_256_iff {m : MaxVL} : 256 ≤ maxvlBits m ↔ m ≠ .v128 := by
  cases m <;> simp [maxvlBits]

theorem maxvlBits_ge_512_iff {m : MaxVL} : 512 ≤ maxvlBits m ↔ m = .v512 := by
  cases m <;> simp [maxvlBits]

/-- An enabled form is one the processor has (the CPUID flags and the width of step 1 of R194 to R196). -/
theorem formPresent_of_enabled {s : State} {f : Form} (h : FormEnabled s f) : formPresent s.cfg f = true := by
  cases f with
  | f1 | f2 | f3 => exact h.1
  | f4 | f5 | f6 | f7 =>
    simp only [FormEnabled] at h
    simp [formPresent, maxvlBits_ge_256_iff, maxvlBits_ge_512_iff, h]

/-- The field `XCR0[2:1]` is 11 exactly when both its bits are set (R31). -/
theorem xcr0Avx_iff {s : State} :
    s.xcr0Avx = true ↔ s.xcr0.getLsbD 1 = true ∧ s.xcr0.getLsbD 2 = true := by
  rw [State.xcr0Avx, beq_iff_eq]
  constructor
  · intro h
    have hbit : ∀ i < 2, s.xcr0.getLsbD (1 + i) = (3#2).getLsbD i := fun i hi => by simp [← h, hi]
    exact ⟨hbit 0 (by decide), hbit 1 (by decide)⟩
  · rintro ⟨hsse, havx⟩
    apply BitVec.eq_of_getLsbD_eq
    intro i hi
    interval_cases i
    · simpa using hsse
    · simpa using havx

theorem avxEnabled_iff {s : State} : AvxEnabled s ↔ s.cr4Osxsave = true ∧ s.xcr0Avx = true := by
  rw [xcr0Avx_iff, State.cr4Osxsave]

/-! ### The checks of forms 3 and 4 -/

/-- Steps 1 and 2 of R194 pass for a ready form 3 or 4. -/
theorem checkVex_of_ready {s : State} {f : Form} (hf : f = .f3 ∨ f = .f4) (h : FormReady s f) : checkVex s f = .ok () := by
  obtain ⟨hmode, henabled, hts, -⟩ := h
  have havx : AvxEnabled s := by
    rcases hf with rfl | rfl
    · exact henabled.2
    · exact henabled.2.2
  obtain ⟨hosxsave, hxcr0⟩ := avxEnabled_iff.1 havx
  have hud : (!formPresent s.cfg f || !s.cr4Osxsave || !s.xcr0Avx) = false := by
    rw [formPresent_of_enabled henabled, hosxsave, hxcr0]; rfl
  exact checkUdNm_eq_ok.2 ⟨admitted_of_modeOk hmode, hud, hts⟩

/-- A form the processor does not have raises #UD before any other check (step 1 of R194). -/
theorem checkVex_of_not_present {s : State} {f : Form} (hmode : ModeOk s) (h : formPresent s.cfg f = false) :
    checkVex s f = .error (.fault (s.takeException .ud)) := by
  have hud : (!formPresent s.cfg f || !s.cr4Osxsave || !s.xcr0Avx) = true := by
    rw [h]; rfl
  exact checkUdNm_eq_error.2 (.inr (.inl ⟨admitted_of_modeOk hmode, hud, rfl⟩))

/-! ### A VEX or EVEX vector write -/

theorem lane_vec_setVecZero {w j : Nat} {s : State} {i : BitVec 5} {x : BitVec w} (hj : j < 32) :
    lane ((s.setVecZero i x).vec i) j = lane x j := by
  rw [State.setVecZero_eq, State.vec_setVec_same]
  exact lane_setWidth x (by omega)

/-- The bits from the operand width up are 0 (R160, R161, R170). -/
theorem getLsbD_vec_setVecZero {w b : Nat} {s : State} {i : BitVec 5} {x : BitVec w} (hb : w ≤ b) :
    ((s.setVecZero i x).vec i).getLsbD b = false := by
  rw [State.setVecZero_eq, State.vec_setVec_same, BitVec.getLsbD_setWidth, BitVec.getLsbD_of_ge x b hb, Bool.and_false]

end Sys2Proof.Machine
end

section
/-! The statements of `41_vpmulhrsw_vex.md`: forms 3 and 4. -/

namespace Sys2Proof.Machine

/-- What forms 3 and 4 share: a ready form whose operand is a register or can be read completes, with the lanes of R160 and R161
and zeros above. -/
theorem vexPmulhrsw_completes {w : Nat} {f : Form} {p : Prefixes} {dst src1 : BitVec 5} {src2 : Rm 5} {s : State}
    (hf : f = .f3 ∨ f = .f4) (hw : 16 * formLanes f = w) (hready : FormReady s f)
    (hmem : ∀ a, src2 = .mem a → OperandOk s f p (vexIlen p src2) a) (hpc : PcAfterOk s (vexIlen p src2)) :
    ∃ t, vexPmulhrsw w f p dst src1 src2 s = .ok t ∧ t.pc = pcAfter s (vexIlen p src2) ∧
      (∀ j < formLanes f,
        lane (t.vec dst) j = mulhrs16 (lane (s.vec src1) j) (vecSourceLane s f p (vexIlen p src2) src2 j)) ∧
      ∀ b, w ≤ b → (t.vec dst).getLsbD b = false := by
  have hlanes32 : formLanes f ≤ 32 := by
    rcases hf with rfl | rfl <;> decide
  obtain ⟨y, hy, hlanes⟩ := vecOperand_lanes hw.le hmem
  have hadvance := advance_of_pcAfterOk
    (s' := s.setVecZero dst (pmulhrs (formLanes f) (s.vecLow w src1) y)) rfl rfl hpc
  refine ⟨_, vexPmulhrsw_eq_ok.2 ⟨checkVex_of_ready hf hready, y, hy, hadvance⟩, rfl, fun j hj => ?_, fun b hb => ?_⟩
  · rw [State.vec_setPc, lane_vec_setVecZero (by omega), lane_pmulhrs _ _ hj hw.le, hlanes j hj, State.vecLow,
      lane_setWidth _ (by omega)]
  · rw [State.vec_setPc, getLsbD_vec_setVecZero hb]

/-- Settles O10: form 3 is the shared VEX operation on eight lanes. -/
theorem vpmulhrswXmmResult : Obligations.VpmulhrswXmmResult := by
  intro p dst src1 src2 s hready hoperand hpc
  have hmem : ∀ a, src2 = .mem a → OperandOk s .f3 p (vexIlen p src2) a := by
    rintro a rfl
    exact operandOk_of_ready hoperand rfl
  obtain ⟨t, hexec, hresult⟩ := vexPmulhrsw_completes (w := 128) (.inl rfl) rfl hready hmem hpc
  exact ⟨t, finish_eq_next.2 hexec, hresult⟩

/-- Form 4 does not exist on a processor whose vector registers are 128 bits wide (second part of O11). -/
theorem execVpmulhrswYmm_of_maxvl128 {p : Prefixes} {dst src1 : BitVec 5} {src2 : Rm 5} {s : State} (hmode : ModeOk s)
    (hmaxvl : s.cfg.maxvl = .v128) : execVpmulhrswYmm p dst src1 src2 s = .fault (.invalidOpcode s.pc) := by
  have habsent : formPresent s.cfg .f4 = false := by
    simp [formPresent, maxvlBits_ge_256_iff, hmaxvl]
  exact finish_eq_fault.2 (bind_eq_error.2 (.inl (checkVex_of_not_present hmode habsent)))

/-- Settles O11: form 4 is the shared VEX operation on sixteen lanes; with `MAXVL = 128` it is not present. -/
theorem vpmulhrswYmmResult : Obligations.VpmulhrswYmmResult := by
  refine ⟨fun p dst src1 src2 s hready hoperand hpc => ?_, fun p dst src1 src2 s hmode hmaxvl => ?_⟩
  · have hmem : ∀ a, src2 = .mem a → OperandOk s .f4 p (vexIlen p src2) a := by
      rintro a rfl
      exact operandOk_of_ready hoperand rfl
    obtain ⟨t, hexec, hresult⟩ := vexPmulhrsw_completes (w := 256) (.inr rfl) rfl hready hmem hpc
    exact ⟨t, finish_eq_next.2 hexec, hresult⟩
  · exact execVpmulhrswYmm_of_maxvl128 hmode hmaxvl

end Sys2Proof.Machine
end

section
/-! SUPPORT. The checks of forms 5 to 7: what the AVX-512 state says, when `checkEvex` passes and when it raises #UD; and what a
lane under a writemask holds. -/

namespace Sys2Proof.Machine

/-! ### Enabled state -/

/-- A field of a register is all ones exactly when each of its bits is set. -/
theorem extractLsb'_eq_allOnes_iff {w : Nat} (x : BitVec w) (start n : Nat) :
    x.extractLsb' start n = BitVec.allOnes n ↔ ∀ i < n, x.getLsbD (start + i) = true := by
  constructor
  · intro h i hi
    have hbit := congrArg (·.getLsbD i) h
    simpa [hi] using hbit
  · intro h
    apply BitVec.eq_of_getLsbD_eq
    intro i hi
    simp [hi, h i hi]

/-- The field `XCR0[7:5]` is 111 exactly when its three bits are set (R31). -/
theorem xcr0Avx512_iff {s : State} :
    s.xcr0Avx512 = true ↔ s.xcr0.getLsbD 5 = true ∧ s.xcr0.getLsbD 6 = true ∧ s.xcr0.getLsbD 7 = true := by
  have hones : 7#3 = BitVec.allOnes 3 := rfl
  rw [State.xcr0Avx512, beq_iff_eq, hones, extractLsb'_eq_allOnes_iff]
  constructor
  · exact fun h => ⟨h 0 (by decide), h 1 (by decide), h 2 (by decide)⟩
  · rintro ⟨hopmask, hzmm, hhi16⟩ i hi
    interval_cases i
    · exact hopmask
    · exact hzmm
    · exact hhi16

theorem avx512Enabled_iff {s : State} :
    Avx512Enabled s ↔ s.cr4Osxsave = true ∧ s.xcr0Avx = true ∧ s.xcr0Avx512 = true := by
  rw [xcr0Avx512_iff, Avx512Enabled, avxEnabled_iff, and_assoc]

/-- An enabled EVEX form has the AVX-512 state enabled (R196). -/
theorem avx512Enabled_of_enabled {s : State} {f : Form} (hf : f = .f5 ∨ f = .f6 ∨ f = .f7) (h : FormEnabled s f) :
    Avx512Enabled s := by
  rcases hf with rfl | rfl | rfl
  · exact h.2.2.2.2
  · exact h.2.2.2.2
  · exact h.2.2.2

/-! ### The checks of forms 5 to 7 -/

/-- Steps 1 and 2 of R196 pass for a ready form 5, 6 or 7. -/
theorem checkEvex_of_ready {s : State} {f : Form} (hf : f = .f5 ∨ f = .f6 ∨ f = .f7) (h : FormReady s f) :
    checkEvex s f = .ok () := by
  obtain ⟨hmode, henabled, hts, -⟩ := h
  obtain ⟨hosxsave, havx, havx512⟩ := avx512Enabled_iff.1 (avx512Enabled_of_enabled hf henabled)
  have hud : (!formPresent s.cfg f || !s.cr4Osxsave || !s.xcr0Avx || !s.xcr0Avx512) = false := by
    rw [formPresent_of_enabled henabled, hosxsave, havx, havx512]; rfl
  exact checkUdNm_eq_ok.2 ⟨admitted_of_modeOk hmode, hud, hts⟩

/-- A form the processor does not have raises #UD before any other check (step 1 of R196). -/
theorem checkEvex_of_not_present {s : State} {f : Form} (hmode : ModeOk s) (h : formPresent s.cfg f = false) :
    checkEvex s f = .error (.fault (s.takeException .ud)) := by
  have hud : (!formPresent s.cfg f || !s.cr4Osxsave || !s.xcr0Avx || !s.xcr0Avx512) = true := by
    rw [h]; rfl
  exact checkUdNm_eq_error.2 (.inr (.inl ⟨admitted_of_modeOk hmode, hud, rfl⟩))

/-! ### A lane under the writemask -/

/-- Where the mask bit is set, or there is no writemask, the lane is computed (R170). -/
theorem maskedLane_of_maskBit {w : Nat} {s : State} {mask : Masking} {j : Nat} (old x y : BitVec w)
    (h : maskBit s mask j) : maskedLane s mask old x y j = mulhrs16 (lane x j) (lane y j) := by
  cases mask with
  | noMask => rfl
  | merging k => exact if_pos h
  | zeroing k => exact if_pos h

/-- Merging keeps the lane whose mask bit is clear (R170). -/
theorem maskedLane_merging_of_not_maskBit {w : Nat} {s : State} {k : BitVec 3} {j : Nat} (old x y : BitVec w)
    (h : ¬maskBit s (.merging k) j) : maskedLane s (.merging k) old x y j = lane old j :=
  if_neg h

/-- Zeroing clears the lane whose mask bit is clear (R170). -/
theorem maskedLane_zeroing_of_not_maskBit {w : Nat} {s : State} {k : BitVec 3} {j : Nat} (old x y : BitVec w)
    (h : ¬maskBit s (.zeroing k) j) : maskedLane s (.zeroing k) old x y j = 0 :=
  if_neg h

/-- The model's lane is the one R170 asks for. -/
theorem maskedLaneIs_maskedLane {w : Nat} (s : State) (mask : Masking) (old x y : BitVec w) (j : Nat) :
    MaskedLaneIs s mask j (lane old j) (lane x j) (lane y j) (maskedLane s mask old x y j) := by
  refine ⟨maskedLane_of_maskBit old x y, ?_, ?_⟩
  · rintro hclear ⟨k, rfl⟩
    exact maskedLane_merging_of_not_maskBit old x y hclear
  · rintro hclear ⟨k, rfl⟩
    exact maskedLane_zeroing_of_not_maskBit old x y hclear

end Sys2Proof.Machine
end

section
/-! The statements of `42_vpmulhrsw_evex.md`: forms 5 to 7. -/

namespace Sys2Proof.Machine

/-- What forms 5 to 7 share: a ready form whose operand is a register or can be read completes, with the lanes of R170 and zeros
above. -/
theorem evexPmulhrsw_completes {w : Nat} {f : Form} {p : Prefixes} {mask : Masking} {dst src1 : BitVec 5} {src2 : Rm 5}
    {s : State} (hf : f = .f5 ∨ f = .f6 ∨ f = .f7) (hw : 16 * formLanes f = w) (hready : FormReady s f)
    (hmem : ∀ a, src2 = .mem a → OperandOk s f p (evexIlen p src2) a) (hpc : PcAfterOk s (evexIlen p src2)) :
    ∃ t, evexPmulhrsw w f p mask dst src1 src2 s = .ok t ∧ t.pc = pcAfter s (evexIlen p src2) ∧
      (∀ j < formLanes f, MaskedLaneIs s mask j (lane (s.vec dst) j) (lane (s.vec src1) j)
        (vecSourceLane s f p (evexIlen p src2) src2 j) (lane (t.vec dst) j)) ∧
      ∀ b, w ≤ b → (t.vec dst).getLsbD b = false := by
  have hlanes32 : formLanes f ≤ 32 := by
    rcases hf with rfl | rfl | rfl <;> decide
  obtain ⟨y, hy, hlanes⟩ := vecOperand_lanes hw.le hmem
  have hadvance := advance_of_pcAfterOk
    (s' := s.setVecZero dst (packLanes w (maskedLane s mask (s.vecLow w dst) (s.vecLow w src1) y) (formLanes f)))
    rfl rfl hpc
  refine ⟨_, evexPmulhrsw_eq_ok.2 ⟨checkEvex_of_ready hf hready, y, hy, hadvance⟩, rfl, fun j hj => ?_, fun b hb => ?_⟩
  · have hlow : ∀ i, lane (s.vecLow w i) j = lane (s.vec i) j := fun i => lane_setWidth _ (by omega)
    rw [State.vec_setPc, lane_vec_setVecZero (by omega), lane_packLanes _ hj hw.le, ← hlanes j hj, ← hlow dst, ← hlow src1]
    exact maskedLaneIs_maskedLane ..
  · rw [State.vec_setPc, getLsbD_vec_setVecZero hb]

/-- Settles O12: form 5 is the shared EVEX operation on eight lanes. -/
theorem vpmulhrswXmmMaskedResult : Obligations.VpmulhrswXmmMaskedResult := by
  intro p mask dst src1 src2 s hready hoperand hpc
  have hmem : ∀ a, src2 = .mem a → OperandOk s .f5 p (evexIlen p src2) a := by
    rintro a rfl
    exact operandOk_of_ready hoperand rfl
  obtain ⟨t, hexec, hresult⟩ := evexPmulhrsw_completes (w := 128) (.inl rfl) rfl hready hmem hpc
  exact ⟨t, finish_eq_next.2 hexec, hresult⟩

/-- Settles O13: form 6 is the shared EVEX operation on sixteen lanes. -/
theorem vpmulhrswYmmMaskedResult : Obligations.VpmulhrswYmmMaskedResult := by
  intro p mask dst src1 src2 s hready hoperand hpc
  have hmem : ∀ a, src2 = .mem a → OperandOk s .f6 p (evexIlen p src2) a := by
    rintro a rfl
    exact operandOk_of_ready hoperand rfl
  obtain ⟨t, hexec, hresult⟩ := evexPmulhrsw_completes (w := 256) (.inr (.inl rfl)) rfl hready hmem hpc
  exact ⟨t, finish_eq_next.2 hexec, hresult⟩

/-- Form 7 does not exist on a processor whose vector registers are narrower than 512 bits (second part of O14). -/
theorem execVpmulhrswZmmMasked_of_maxvl_ne_512 {p : Prefixes} {mask : Masking} {dst src1 : BitVec 5} {src2 : Rm 5}
    {s : State} (hmode : ModeOk s) (hmaxvl : s.cfg.maxvl ≠ .v512) :
    execVpmulhrswZmmMasked p mask dst src1 src2 s = .fault (.invalidOpcode s.pc) := by
  have habsent : formPresent s.cfg .f7 = false := by
    simp [formPresent, maxvlBits_ge_512_iff, hmaxvl]
  exact finish_eq_fault.2 (bind_eq_error.2 (.inl (checkEvex_of_not_present hmode habsent)))

/-- Settles O14: form 7 is the shared EVEX operation on thirty-two lanes; with `MAXVL` below 512 it is not present. -/
theorem vpmulhrswZmmMaskedResult : Obligations.VpmulhrswZmmMaskedResult := by
  refine ⟨fun p mask dst src1 src2 s hready hoperand hpc => ?_, fun p mask dst src1 src2 s hmode hmaxvl => ?_⟩
  · have hmem : ∀ a, src2 = .mem a → OperandOk s .f7 p (evexIlen p src2) a := by
      rintro a rfl
      exact operandOk_of_ready hoperand rfl
    obtain ⟨t, hexec, hpcAfter, hlanes, -⟩ := evexPmulhrsw_completes (w := 512) (.inr (.inr rfl)) rfl hready hmem hpc
    exact ⟨t, finish_eq_next.2 hexec, hpcAfter, hlanes⟩
  · exact execVpmulhrswZmmMasked_of_maxvl_ne_512 hmode hmaxvl

end Sys2Proof.Machine
end

section
/-! SUPPORT. Every instruction in one shape: the checks of its form, its last operand, one register write, the advance of `pc`. -/

namespace Sys2Proof.Machine

/-! ### The four parts of an instruction -/

/-- The checks a form makes before its operand is read (R194 to R196). -/
def formCheck (s : State) : Form → Except Stop Unit
  | .f1 => checkMmx s
  | .f2 => checkSse s
  | .f3 => checkVex s .f3
  | .f4 => checkVex s .f4
  | .f5 => checkEvex s .f5
  | .f6 => checkEvex s .f6
  | .f7 => checkEvex s .f7

/-- The last operand of an instruction, as wide as its form (R92, R93, R99, R103). -/
def lastOperand (s : State) : (i : Instr) → Except Stop (BitVec (formVl i.form))
  | .pmulhrswMm p rex _ src => mmOperand s p (legacyIlen p false rex src) src
  | .pmulhrswXmm p rex _ src => vecOperand 128 s .f2 p (legacyIlen p true rex src) src
  | .vpmulhrswXmm p _ _ src2 => vecOperand 128 s .f3 p (vexIlen p src2) src2
  | .vpmulhrswYmm p _ _ src2 => vecOperand 256 s .f4 p (vexIlen p src2) src2
  | .vpmulhrswXmmMasked p _ _ _ src2 => vecOperand 128 s .f5 p (evexIlen p src2) src2
  | .vpmulhrswYmmMasked p _ _ _ src2 => vecOperand 256 s .f6 p (evexIlen p src2) src2
  | .vpmulhrswZmmMasked p _ _ _ src2 => vecOperand 512 s .f7 p (evexIlen p src2) src2

/-- The state with the result of an instruction written, its last operand being `y`; `pc` is still the old one. -/
def written (s : State) : (i : Instr) → BitVec (formVl i.form) → State
  | .pmulhrswMm _ _ dst _, y => (s.setMm dst (pmulhrs 4 (s.mmReg dst) y)).mmxTransition dst
  | .pmulhrswXmm _ _ dst _, y => s.setXmmKeep dst (pmulhrs 8 (s.vecLow 128 dst) y)
  | .vpmulhrswXmm _ dst src1 _, y => s.setVecZero dst (pmulhrs (formLanes .f3) (s.vecLow 128 src1) y)
  | .vpmulhrswYmm _ dst src1 _, y => s.setVecZero dst (pmulhrs (formLanes .f4) (s.vecLow 256 src1) y)
  | .vpmulhrswXmmMasked _ mask dst src1 _, y => s.setVecZero dst
      (packLanes 128 (maskedLane s mask (s.vecLow 128 dst) (s.vecLow 128 src1) y) (formLanes .f5))
  | .vpmulhrswYmmMasked _ mask dst src1 _, y => s.setVecZero dst
      (packLanes 256 (maskedLane s mask (s.vecLow 256 dst) (s.vecLow 256 src1) y) (formLanes .f6))
  | .vpmulhrswZmmMasked _ mask dst src1 _, y => s.setVecZero dst
      (packLanes 512 (maskedLane s mask (s.vecLow 512 dst) (s.vecLow 512 src1) y) (formLanes .f7))

/-- The four parts make up `exec`. -/
theorem exec_eq (i : Instr) (s : State) :
    exec i s = finish (do
      formCheck s i.form
      let y ← lastOperand s i
      (written s i y).advance i.ilen) := by
  cases i <;> rfl

/-! ### The last operand -/

theorem lastOperand_of_mem {i : Instr} {p : Prefixes} {a : MemAddr} (s : State) (h : memOperand i = some (p, a)) :
    lastOperand s i = loadOperand (formVl i.form) s i.form p i.ilen a := by
  rcases i with ⟨_, _, _, _ | _⟩ | ⟨_, _, _, _ | _⟩ | ⟨_, _, _, _ | _⟩ | ⟨_, _, _, _ | _⟩ | ⟨_, _, _, _, _ | _⟩ |
    ⟨_, _, _, _, _ | _⟩ | ⟨_, _, _, _, _ | _⟩ <;> cases h <;> rfl

theorem lastOperand_of_reg {i : Instr} (s : State) (h : memOperand i = none) : ∃ y, lastOperand s i = .ok y := by
  rcases i with ⟨_, _, _, _ | _⟩ | ⟨_, _, _, _ | _⟩ | ⟨_, _, _, _ | _⟩ | ⟨_, _, _, _ | _⟩ | ⟨_, _, _, _, _ | _⟩ |
    ⟨_, _, _, _, _ | _⟩ | ⟨_, _, _, _, _ | _⟩ <;> first | exact ⟨_, rfl⟩ | cases h

/-- An operand that stops an instruction is a memory operand. -/
theorem lastOperand_eq_error {i : Instr} {s : State} {e : Stop} (h : lastOperand s i = .error e) :
    ∃ p a, memOperand i = some (p, a) ∧ loadOperand (formVl i.form) s i.form p i.ilen a = .error e := by
  cases hmem : memOperand i with
  | none =>
    obtain ⟨y, hy⟩ := lastOperand_of_reg s hmem
    rw [hy] at h
    cases h
  | some pa => exact ⟨pa.1, pa.2, rfl, lastOperand_of_mem s hmem ▸ h⟩

/-! ### The register write -/

/-- The write of an instruction is one MMX register with the x87 state, or one vector register. -/
theorem written_cases (s : State) (i : Instr) (y : BitVec (formVl i.form)) :
    (∃ d x, written s i y = (s.setMm d x).mmxTransition d) ∨ ∃ d x, written s i y = s.setVec d x := by
  cases i with
  | pmulhrswMm => exact .inl ⟨_, _, rfl⟩
  | _ => exact .inr ⟨_, _, rfl⟩

@[simp] theorem written_mode (s : State) (i : Instr) (y : BitVec (formVl i.form)) : (written s i y).mode = s.mode := by
  cases i <;> rfl

@[simp] theorem written_pc (s : State) (i : Instr) (y : BitVec (formVl i.form)) : (written s i y).pc = s.pc := by
  cases i <;> rfl

/-- The write does not move the next instruction. -/
@[simp] theorem nextPc_written (s : State) (i : Instr) (y : BitVec (formVl i.form)) (n : Nat) :
    (written s i y).nextPc n = pcAfter s n := by
  rw [← nextPc_eq_pcAfter]
  cases i <;> rfl

/-! ### The checks of a form -/

/-- The #UD conditions a form tests: step 1 of R194 to R196. -/
def formUd (s : State) : Form → Bool
  | .f1 => !formPresent s.cfg .f1 || s.cr0Em
  | .f2 => !formPresent s.cfg .f2 || s.cr0Em || !s.cr4Osfxsr
  | .f3 => !formPresent s.cfg .f3 || !s.cr4Osxsave || !s.xcr0Avx
  | .f4 => !formPresent s.cfg .f4 || !s.cr4Osxsave || !s.xcr0Avx
  | .f5 => !formPresent s.cfg .f5 || !s.cr4Osxsave || !s.xcr0Avx || !s.xcr0Avx512
  | .f6 => !formPresent s.cfg .f6 || !s.cr4Osxsave || !s.xcr0Avx || !s.xcr0Avx512
  | .f7 => !formPresent s.cfg .f7 || !s.cr4Osxsave || !s.xcr0Avx || !s.xcr0Avx512

/-- Every form makes the #UD and #NM checks; form 1 then tests for a pending x87 exception. -/
theorem formCheck_eq (s : State) (f : Form) :
    formCheck s f = (do
      checkUdNm s (formUd s f)
      if f = .f1 ∧ s.x87Pending = true then raise s .mf else .ok ()) := by
  have hok : ∀ x : Except Stop Unit, (x >>= fun _ => .ok ()) = x := fun x => by rcases x with _ | ⟨⟨⟩⟩ <;> rfl
  cases f with
  | f1 => simp [formCheck, checkMmx, formUd]
  | _ => rw [if_neg (by simp)]; exact (hok _).symm

theorem modeOk_iff_admitted {s : State} : ModeOk s ↔ s.mode.admitted = true := by
  refine ⟨admitted_of_modeOk, fun h => ?_⟩
  cases hm : s.mode with
  | m64 => exact .inl hm
  | m32 => exact .inr hm
  | _ => simp [hm, Mode.admitted] at h

/-- The #UD conditions of a form are those the spec lists. -/
theorem formUd_eq_false_iff {s : State} {f : Form} : formUd s f = false ↔ FormEnabled s f := by
  cases f with
  | f1 => simp [formUd, FormEnabled, formPresent, State.cr0Em]
  | f2 => simp [formUd, FormEnabled, formPresent, State.cr0Em, State.cr4Osfxsr, and_assoc]
  | f3 | f4 =>
    simp only [FormEnabled, avxEnabled_iff]
    simp [formUd, formPresent, maxvlBits_ge_256_iff, and_assoc]
  | f5 | f6 | f7 =>
    simp only [FormEnabled, avx512Enabled_iff]
    simp [formUd, formPresent, maxvlBits_ge_512_iff, and_assoc]

theorem formUd_eq_true_iff {s : State} {f : Form} : formUd s f = true ↔ ¬FormEnabled s f := by
  rw [← formUd_eq_false_iff, Bool.not_eq_false]

/-- The checks pass for the ready forms and no others. -/
theorem formCheck_eq_ok {s : State} {f : Form} : formCheck s f = .ok () ↔ FormReady s f := by
  rw [formCheck_eq, check_bind_eq_ok, checkUdNm_eq_ok, formUd_eq_false_iff, ← modeOk_iff_admitted, FormReady, and_assoc,
    and_assoc, State.cr0Ts, State.x87Pending]
  split <;> simp_all [raise]

/-- A check that passes hands over to what follows it. -/
theorem check_bind_eq_error {β : Type} {x : Except Stop Unit} {f : Unit → Except Stop β} {e : Stop} :
    (x >>= f) = .error e ↔ x = .error e ∨ x = .ok () ∧ f () = .error e := by
  rcases x with _ | ⟨⟨⟩⟩ <;> simp [bind, Except.bind]

/-- The four ways the checks of a form stop an instruction, in their order. -/
theorem formCheck_eq_error {s : State} {f : Form} {e : Stop} :
    formCheck s f = .error e ↔
      (¬ModeOk s ∧ e = .refused (.modeNotAdmitted s.mode)) ∨
      (ModeOk s ∧ ¬FormEnabled s f ∧ e = .fault (s.takeException .ud)) ∨
      (ModeOk s ∧ FormEnabled s f ∧ s.cr0.getLsbD 3 = true ∧ e = .fault (s.takeException .nm)) ∨
      (ModeOk s ∧ FormEnabled s f ∧ s.cr0.getLsbD 3 = false ∧ f = .f1 ∧ s.x87.status.getLsbD 7 = true ∧
        e = .fault (s.takeException .mf)) := by
  rw [formCheck_eq, check_bind_eq_error, checkUdNm_eq_error, checkUdNm_eq_ok, formUd_eq_false_iff, formUd_eq_true_iff,
    ← Bool.not_eq_true, ← modeOk_iff_admitted, State.cr0Ts, State.x87Pending, or_assoc, or_assoc, and_assoc, and_assoc]
  by_cases h : f = .f1 ∧ s.x87.status.getLsbD 7 = true
  · obtain ⟨rfl, hpending⟩ := h
    rw [if_pos ⟨rfl, hpending⟩, raise, Except.error.injEq, eq_comm (b := e)]
    simp only [hpending, true_and]
  · have hno : ∀ q : Prop, ¬(f = .f1 ∧ s.x87.status.getLsbD 7 = true ∧ q) := fun q hq => h ⟨hq.1, hq.2.1⟩
    simp only [if_neg h, hno, and_false, reduceCtorEq]

/-! ### Outcomes of an instruction -/

/-- An instruction completes when its form is ready, its operand is read and `pc` can advance. -/
theorem exec_eq_next {i : Instr} {s t : State} :
    exec i s = .next t ↔
      FormReady s i.form ∧ ∃ y, lastOperand s i = .ok y ∧ (written s i y).advance i.ilen = .ok t := by
  rw [exec_eq, finish_eq_next, check_bind_eq_ok, bind_eq_ok, formCheck_eq_ok]

/-- An instruction whose checks stop stops in the same way. -/
theorem exec_of_formCheck_error {i : Instr} {s : State} {e : Stop} (h : formCheck s i.form = .error e) :
    exec i s = finish (.error e) := by
  rw [exec_eq, h]
  rfl

/-- A ready instruction whose memory operand stops it stops in the same way. -/
theorem exec_of_loadOperand_error {i : Instr} {p : Prefixes} {a : MemAddr} {s : State} {e : Stop}
    (hready : FormReady s i.form) (hmem : memOperand i = some (p, a))
    (h : loadOperand (formVl i.form) s i.form p i.ilen a = .error e) : exec i s = finish (.error e) := by
  rw [exec_eq, formCheck_eq_ok.2 hready, lastOperand_of_mem s hmem, h]
  rfl

/-- An instruction that does not complete was stopped by its checks, by its memory operand, or because the next `pc` is not one
it may be set to. -/
theorem exec_eq_fault {i : Instr} {s : State} {f : Fault} (h : exec i s = .fault f) :
    formCheck s i.form = .error (.fault f) ∨
      ∃ p a, memOperand i = some (p, a) ∧ loadOperand (formVl i.form) s i.form p i.ilen a = .error (.fault f) := by
  rw [exec_eq, finish_eq_fault, bind_eq_error] at h
  rcases h with hcheck | ⟨-, -, h⟩
  · exact .inl hcheck
  rcases bind_eq_error.1 h with hoperand | ⟨y, -, hadvance⟩
  · exact .inr (lastOperand_eq_error hoperand)
  · cases (advance_eq_error.1 hadvance).2

end Sys2Proof.Machine
end

section
/-! SUPPORT. How a memory operand stops an instruction, in the words of Safety.lean, and which exceptions an instruction and a
step can raise. -/

namespace Sys2Proof.Machine

/-! ### The ways a memory operand stops an instruction, in their order -/

section
variable (w : Nat) {s : State} {f : Form} {p : Prefixes} {ilen : Nat} {a : MemAddr}

theorem loadOperand_of_not_basesOk (h : ¬BasesOk s) :
    loadOperand w s f p ilen a = .error (.refused .segmentBaseNotAdmitted) := by
  rw [← segBasesAdmitted_iff_basesOk, Bool.not_eq_true] at h
  simp [loadOperand, h, refuse]

/-- The alignment check passes where the form needs no alignment or has it. -/
theorem alignCheck_eq_false {c : Config} {lin : Word} (h : NeedsAlign16 c f → lin.toNat % 16 = 0) :
    (formAlignGp c f && lin.toNat % 16 != 0) = false := by
  cases hgp : formAlignGp c f with
  | false => rfl
  | true => simp [h (formAlignGp_iff_needsAlign16.1 hgp)]

theorem loadOperand_of_wraps (hbases : BasesOk s)
    (halign : NeedsAlign16 s.cfg f → (s.operandAddr f p ilen a).toNat % 16 = 0)
    (hwrap : 2 ^ s.addrBits < (s.operandAddr f p ilen a).toNat + operandBytes f) :
    loadOperand w s f p ilen a = .error (.refused .operandWraps) := by
  rw [← formBytes_eq_operandBytes] at hwrap
  simp only [loadOperand, segBasesAdmitted_iff_basesOk.2 hbases, alignCheck_eq_false halign, if_pos hwrap]
  rfl

/-- At an address that passes the checks before it, `MemFault` decides, and then the alignment check of form 1. -/
theorem loadOperand_of_addressOk (h : AddressOk s f (s.operandAddr f p ilen a)) :
    loadOperand w s f p ilen a =
      match s.memFault (operandSeg p a) (s.operandAddr f p ilen a) (operandBytes f) .read with
      | some e => raise s e
      | none =>
        if formAlignAc f && s.acActive && (s.operandAddr f p ilen a).toNat % 8 != 0 then raise s (.ac 0)
        else .ok (s.mem.readLe w (s.operandAddr f p ilen a).toNat (operandBytes f)) := by
  obtain ⟨hbases, halign, hwrap⟩ := h
  simp only [loadOperand, segBasesAdmitted_iff_basesOk.2 hbases, alignCheck_eq_false halign, formBytes_eq_operandBytes,
    if_neg (Nat.not_lt.2 hwrap)] <;> rfl

theorem loadOperand_of_memFault {e : Exception} (h : AddressOk s f (s.operandAddr f p ilen a))
    (hfault : s.memFault (operandSeg p a) (s.operandAddr f p ilen a) (operandBytes f) .read = some e) :
    loadOperand w s f p ilen a = .error (.fault (s.takeException e)) := by
  rw [loadOperand_of_addressOk w h, hfault]
  rfl

theorem loadOperand_of_acViolation (h : AddressOk s f (s.operandAddr f p ilen a))
    (hfault : s.memFault (operandSeg p a) (s.operandAddr f p ilen a) (operandBytes f) .read = none)
    (hac : AcViolation s f (s.operandAddr f p ilen a)) :
    loadOperand w s f p ilen a = .error (.fault (s.takeException (.ac 0))) := by
  rw [loadOperand_of_addressOk w h, hfault]
  exact if_pos (acCheck_iff_acViolation.2 hac)

end

/-! ### Which exceptions are raised -/

/-- The exceptions of an instruction: #UD, #NM, those `MemFault` or a misaligned address can give; any other is of form 1. -/
theorem exec_fault_kinds {i : Instr} {s : State} {f : Fault} (h : exec i s = .fault f) :
    ∃ e, f = s.takeException e ∧
      (e = .ud ∨ e = .nm ∨ e = .ss 0 ∨ e = .gp 0 ∨ (∃ code address, e = .pf code address) ∨ i.form = .f1) := by
  rcases exec_eq_fault h with hcheck | ⟨p, a, -, hload⟩
  · rcases formCheck_eq_error.1 hcheck with ⟨-, he⟩ | ⟨-, -, he⟩ | ⟨-, -, -, he⟩ | ⟨-, -, -, hf, -, he⟩ <;> cases he
    · exact ⟨.ud, rfl, by simp⟩
    · exact ⟨.nm, rfl, by simp⟩
    · exact ⟨.mf, rfl, by simp [hf]⟩
  · rcases loadOperand_error hload with he | he | he | ⟨hf, he⟩ | ⟨x, hx, he⟩ <;> cases he
    · exact ⟨.gp 0, rfl, by simp⟩
    · exact ⟨.ac 0, rfl, by simp [hf]⟩
    · refine ⟨x, rfl, ?_⟩
      rcases memFault_kinds hx with rfl | rfl | ⟨code, address, rfl⟩ <;> simp

/-- A fetch that faults has raised an exception of the instruction being fetched. -/
theorem fetchInstr_eq_fault {s : State} {f : Fault} (h : s.fetchInstr = .error (.fault f)) :
    ∃ e, f = s.takeException e := by
  unfold State.fetchInstr at h
  dsimp only at h
  split at h <;> cases h <;> exact ⟨_, rfl⟩

theorem step_eq_fault {s : State} {f : Fault} (h : step s = .fault f) :
    s.fetchInstr = .error (.fault f) ∨ ∃ i, exec i s = .fault f := by
  unfold step at h
  split at h
  · split at h
    · exact .inr ⟨_, h⟩
    · cases h
      exact .inl ‹_›
    · cases h
  · cases h

end Sys2Proof.Machine
end

section
/-! The statements of `60_exceptions.md` on what stops an instruction before its operand is read. -/

namespace Sys2Proof.Machine

/-- Settles O22: step 1 of R194 to R196 is the first check in an admitted mode. -/
theorem disabledFormRaisesUd : Obligations.DisabledFormRaisesUd := fun _ _ hmode hdisabled =>
  exec_of_formCheck_error (formCheck_eq_error.2 (.inr (.inl ⟨hmode, hdisabled, rfl⟩)))

/-- Settles O23: step 2 comes next, whatever the form. -/
theorem taskSwitchedRaisesNm : Obligations.TaskSwitchedRaisesNm := fun _ _ hmode henabled hts =>
  exec_of_formCheck_error (formCheck_eq_error.2 (.inr (.inr (.inl ⟨hmode, henabled, hts, rfl⟩))))

/-- Settles O24: step 3 of R195 comes before the operand. -/
theorem pendingX87RaisesMf : Obligations.PendingX87RaisesMf := fun p rex dst src _ hmode henabled hts hpending =>
  exec_of_formCheck_error (i := .pmulhrswMm p rex dst src) (formCheck_eq_error.2 (.inr (.inr (.inr ⟨hmode, henabled, hts, rfl, hpending, rfl⟩))))

/-- Settles O29: among the exceptions of an instruction only those of form 1 have the vectors 16 and 17. -/
theorem onlyMmxRaisesMfOrAc : Obligations.OnlyMmxRaisesMfOrAc := by
  intro i s f hexec hvector
  obtain ⟨e, rfl, hkind⟩ := exec_fault_kinds hexec
  rcases hkind with rfl | rfl | rfl | rfl | ⟨code, address, rfl⟩ | hf
  case inr.inr.inr.inr.inr => exact hf
  all_goals simp [State.takeException, faultVector] at hvector

/-- Settles O30: every fault of `exec` and of `step` is an exception taken in the state `s`. -/
theorem faultsSaveTheFaultingPc : Obligations.FaultsSaveTheFaultingPc := by
  have hexec : ∀ (i : Instr) (s : State) (f : Fault), exec i s = .fault f → faultSavedPc f = s.pc := by
    intro i s f h
    obtain ⟨e, rfl, -⟩ := exec_fault_kinds h
    exact faultSavedPc_takeException s e
  refine ⟨hexec, fun s f h => ?_⟩
  rcases step_eq_fault h with hfetch | ⟨i, hi⟩
  · obtain ⟨e, rfl⟩ := fetchInstr_eq_fault hfetch
    exact faultSavedPc_takeException s e
  · exact hexec i s f hi

/-- Settles O35: the mode is the first thing both `exec` and `step` look at. -/
theorem otherModesAreRefused : Obligations.OtherModesAreRefused := by
  intro i s hmode
  refine ⟨exec_of_formCheck_error (formCheck_eq_error.2 (.inl ⟨hmode, rfl⟩)), ?_⟩
  rw [modeOk_iff_admitted] at hmode
  exact if_neg hmode

end Sys2Proof.Machine
end

section
/-! The statements of `20_memory.md` and `60_exceptions.md` on how a memory operand stops an instruction, and the refusal of a
next `pc` that is not canonical. -/

namespace Sys2Proof.Machine

/-- The byte counts of the statements on memory operands are those of R51. -/
theorem operandBytes_of_mem {fn : Form × Nat}
    (h : fn ∈ [(Form.f1, 8), (.f2, 16), (.f3, 16), (.f4, 32), (.f5, 16), (.f6, 32), (.f7, 64)]) :
    fn.2 = operandBytes fn.1 := by
  simp only [List.mem_cons, List.not_mem_nil, or_false] at h
  rcases h with rfl | rfl | rfl | rfl | rfl | rfl | rfl <;> rfl

/-- Settles O25: the alignment check comes before `MemFault` and before the refusal of an operand that wraps. -/
theorem misalignedXmmOperandRaisesGp : Obligations.MisalignedXmmOperandRaisesGp :=
  fun _ _ _ _ _ hready hbases hmis => execPmulhrswXmm_of_misaligned hready hbases hmis

/-- Settles O26: with `ALIGN128_VEX = gp` forms 3 and 5 make the check of form 2. -/
theorem misalignedVex128RaisesGpIfConfigured : Obligations.MisalignedVex128RaisesGpIfConfigured :=
  fun p mask dst src1 a _ hgp hbases =>
    ⟨fun hready hmis => exec_of_loadOperand_error (i := .vpmulhrswXmm p dst src1 (.mem a)) hready rfl
      (loadOperand_of_misaligned 128 hbases (.inr ⟨.inl rfl, hgp⟩) hmis),
    fun hready hmis => exec_of_loadOperand_error (i := .vpmulhrswXmmMasked p mask dst src1 (.mem a)) hready rfl
      (loadOperand_of_misaligned 128 hbases (.inr ⟨.inr rfl, hgp⟩) hmis)⟩

/-- Settles O28: with `MemFault` silent, the alignment check of form 1 is what is left. -/
theorem alignmentCheckOfMmx : Obligations.AlignmentCheckOfMmx := fun p rex dst a _ hready haddr hfault hac =>
  exec_of_loadOperand_error (i := .pmulhrswMm p rex dst (.mem a)) hready rfl (loadOperand_of_acViolation 64 haddr hfault hac)

/-- Settles O36: the segment bases are the first thing a memory operand is checked for. -/
theorem unalignedSegmentBaseRefusesMemory : Obligations.UnalignedSegmentBaseRefusesMemory :=
  fun _ _ _ _ hmem hready hbases => exec_of_loadOperand_error hready hmem (loadOperand_of_not_basesOk _ hbases)

/-- Settles O37: the wrap check comes after bases and alignment. -/
theorem wrappingOperandIsRefused : Obligations.WrappingOperandIsRefused := by
  intro fn hfn i p a s hform hmem hready hbases halign hwrap
  rw [operandBytes_of_mem hfn, ← hform] at hwrap
  exact exec_of_loadOperand_error hready hmem (loadOperand_of_wraps _ hbases halign hwrap)

/-- An operand that is ready is read. -/
theorem lastOperand_of_ready {s : State} {i : Instr} (h : OperandReady s i) : ∃ y, lastOperand s i = .ok y := by
  cases hmem : memOperand i with
  | none => exact lastOperand_of_reg s hmem
  | some pa => exact ⟨_, (lastOperand_of_mem s hmem).trans (loadOperand_of_operandOk _ (operandOk_of_ready h hmem))⟩

/-- A next `pc` that is not legal stops the advance from the state that the register write has left. -/
theorem advance_written_of_not_pcAfterOk {s : State} {i : Instr} {y : BitVec (formVl i.form)} {n : Nat}
    (h : ¬PcAfterOk s n) : (written s i y).advance n = .error (.refused .nextPcNotCanonical) := by
  rw [advance_eq_error, nextPc_written, written_mode, written_pc]
  refine ⟨?_, rfl⟩
  by_contra hno
  refine h fun hmode => ⟨?_, ?_⟩
  · by_contra hbig
    exact hno ⟨hmode, .inl (by omega)⟩
  · by_contra hcanon
    exact hno ⟨hmode, .inr (Bool.not_eq_true _ ▸ hcanon)⟩

/-- Settles O38: the advance is the last thing an instruction does. -/
theorem nonCanonicalNextPcIsRefused : Obligations.NonCanonicalNextPcIsRefused := by
  intro i s hready hoperand hpc
  obtain ⟨y, hy⟩ := lastOperand_of_ready hoperand
  rw [exec_eq, formCheck_eq_ok.2 hready, hy]
  exact finish_eq_refused.2 (advance_written_of_not_pcAfterOk hpc)

end Sys2Proof.Machine
end

section
/-! `MemFault` as a parameter: the outcome of the whole operand, and that a table can be any function of the stated type. -/

namespace Sys2Proof.Machine

/-- The six segments and the two kinds of access. -/
def allSegs : List Seg := [.es, .cs, .ss, .ds, .fs, .gs]

def allKinds : List AccessKind := [.read, .fetch]

/-- The row that is about one access and no other. -/
def exactRule (f : Seg → Word → Nat → AccessKind → Option AccessFault) (x : Seg) (a n : Nat) (kind : AccessKind) : AccessRule :=
  ⟨some x, a, a, some n, some kind, f x (BitVec.ofNat 64 a) n kind⟩

/-- One row for each access below address `addrs` of fewer than `bytes` bytes. -/
def exactTable (f : Seg → Word → Nat → AccessKind → Option AccessFault) (addrs bytes : Nat) : List AccessRule :=
  allSegs.flatMap fun x => (List.range addrs).flatMap fun a => (List.range bytes).flatMap fun n =>
    allKinds.map fun kind => exactRule f x a n kind

theorem mem_exactTable {f : Seg → Word → Nat → AccessKind → Option AccessFault} {addrs bytes : Nat} {r : AccessRule} :
    r ∈ exactTable f addrs bytes ↔ ∃ x, ∃ a < addrs, ∃ n < bytes, ∃ kind, r = exactRule f x a n kind := by
  have hseg : ∀ x, x ∈ allSegs := fun x => by cases x <;> decide
  have hkind : ∀ k, k ∈ allKinds := fun k => by cases k <;> decide
  simp only [exactTable, List.mem_flatMap, List.mem_map, List.mem_range, hseg, hkind, true_and, eq_comm]

theorem ruleIsAbout_exactRule {f : Seg → Word → Nat → AccessKind → Option AccessFault} {x x' : Seg} {a n n' : Nat}
    {kind kind' : AccessKind} {lin : Word} :
    ruleIsAbout (exactRule f x a n kind) x' lin n' kind' = true ↔ x = x' ∧ a = lin.toNat ∧ n = n' ∧ kind = kind' := by
  simp only [exactRule, ruleIsAbout, Option.all_some, Bool.and_eq_true, beq_iff_eq]
  constructor
  · rintro ⟨⟨⟨⟨hx, hlo⟩, hhi⟩, hn⟩, hkind⟩
    exact ⟨hx, Nat.le_antisymm (of_decide_eq_true hlo) (of_decide_eq_true hhi), hn, hkind⟩
  · rintro ⟨hx, rfl, hn, hkind⟩
    exact ⟨⟨⟨⟨hx, decide_eq_true le_rfl⟩, decide_eq_true le_rfl⟩, hn⟩, hkind⟩

/-- The table gives the function it is made from, on the accesses it lists. -/
theorem tableMemFault_exactTable (f : Seg → Word → Nat → AccessKind → Option AccessFault) {addrs bytes : Nat} (x : Seg)
    {lin : Word} {n : Nat} (kind : AccessKind) (hlin : lin.toNat < addrs) (hn : n < bytes) :
    tableMemFault (exactTable f addrs bytes) x lin n kind = f x lin n kind := by
  have hrow : exactRule f x lin.toNat n kind ∈ exactTable f addrs bytes :=
    mem_exactTable.2 ⟨x, lin.toNat, hlin, n, hn, kind, rfl⟩
  have hfound : ((exactTable f addrs bytes).find? (ruleIsAbout · x lin n kind)).isSome = true :=
    List.find?_isSome.2 ⟨_, hrow, ruleIsAbout_exactRule.2 ⟨rfl, rfl, rfl, rfl⟩⟩
  obtain ⟨r, hr⟩ := Option.isSome_iff_exists.1 hfound
  obtain ⟨x', a, -, n', -, kind', rfl⟩ := mem_exactTable.1 (List.mem_of_find?_eq_some hr)
  obtain ⟨rfl, rfl, rfl, rfl⟩ := ruleIsAbout_exactRule.1 (List.find?_some (p := (ruleIsAbout · x lin n kind)) hr)
  rw [tableMemFault, hr, Option.bind_some, exactRule, BitVec.ofNat_toNat, BitVec.setWidth_eq]

/-- Settles O27: at an address that passes the checks before it, what `MemFault` answers for the whole operand is the outcome;
and the table with one row for each access is the function it is made from. -/
theorem operandMemFaultIsTheOutcome : Obligations.OperandMemFaultIsTheOutcome := by
  refine ⟨fun fn hfn i p a s e hform hmem hready haddr hfault => ?_, fun f => ?_⟩
  · rw [operandBytes_of_mem hfn, ← hform] at hfault
    exact exec_of_loadOperand_error hready hmem (loadOperand_of_memFault _ haddr hfault)
  · refine ⟨exactTable f (2 ^ 64) 65, fun s x lin n kind htable hn => ?_⟩
    rw [memFault_of_table htable, tableMemFault_exactTable f x kind lin.isLt (by omega)]

end Sys2Proof.Machine
end

section
/-! The frames: what a completing instruction leaves unchanged (`10_state.md` section 10), and the x87 effects of form 1. -/

namespace Sys2Proof.Machine

/-! ### The next state -/

/-- The state after an instruction is the old one with one register written and `pc` advanced. -/
theorem next_eq_written {i : Instr} {s t : State} (h : exec i s = .next t) :
    ∃ y, lastOperand s i = .ok y ∧ t = (written s i y).setPc (pcAfter s i.ilen) := by
  obtain ⟨-, y, hy, hadvance⟩ := exec_eq_next.1 h
  exact ⟨y, hy, nextPc_written s i y i.ilen ▸ (advance_eq_ok.1 hadvance).2⟩

/-- What forms 2 to 7 leave unchanged, `d` being the destination. -/
def VecFrame (d : BitVec 5) (s t : State) : Prop :=
  SameSystem s t ∧ t.mm = s.mm ∧ t.x87 = s.x87 ∧ ∀ r, r ≠ d → t.vec r = s.vec r

/-- What form 1 leaves unchanged, `d` being the destination. -/
def MmFrame (d : BitVec 3) (s t : State) : Prop :=
  SameSystem s t ∧ t.v = s.v ∧ ∀ r, r ≠ d → t.mmReg r = s.mmReg r

theorem vecFrame_setVec (s : State) (d : BitVec 5) (x : VReg) (a : Word) : VecFrame d s ((s.setVec d x).setPc a) :=
  ⟨⟨rfl, rfl, rfl, rfl, rfl, rfl, rfl, rfl, rfl, rfl, rfl, rfl, fun _ => rfl⟩, rfl, rfl,
    fun _ hr => State.vec_setVec_of_ne s hr.symm x⟩

theorem mmFrame_setMm (s : State) (d : BitVec 3) (x : BitVec 64) (a : Word) :
    MmFrame d s (((s.setMm d x).mmxTransition d).setPc a) :=
  ⟨⟨rfl, rfl, rfl, rfl, rfl, rfl, rfl, rfl, rfl, rfl, rfl, rfl, fun _ => rfl⟩, rfl,
    fun _ hr => State.mmReg_setMm_of_ne s hr.symm x⟩

/-- The frame of any instruction: that of a vector write or that of an MMX write. -/
theorem exec_frame {i : Instr} {s t : State} (h : exec i s = .next t) :
    (∃ d, VecFrame d s t) ∨ ∃ d, MmFrame d s t := by
  obtain ⟨y, -, rfl⟩ := next_eq_written h
  rcases written_cases s i y with ⟨d, x, hw⟩ | ⟨d, x, hw⟩ <;> rw [hw]
  · exact .inr ⟨d, mmFrame_setMm s d x _⟩
  · exact .inl ⟨d, vecFrame_setVec s d x _⟩

/-! ### The frames form by form -/

/-- Settles O16: form 1 is one MMX write with the x87 state. -/
theorem pmulhrswMmFrame : Obligations.PmulhrswMmFrame := by
  intro p rex dst src s t h
  obtain ⟨y, -, rfl⟩ := next_eq_written h
  exact mmFrame_setMm s dst _ _

/-- Settles O17: form 2 is one write of a whole vector register, its upper bits those from before. -/
theorem pmulhrswXmmFrame : Obligations.PmulhrswXmmFrame := by
  intro p rex dst src s t h
  obtain ⟨y, -, rfl⟩ := next_eq_written h
  exact vecFrame_setVec s dst _ _

/-- Settles O18: forms 3 and 4 are one write of a whole vector register. -/
theorem vexFrame : Obligations.VexFrame := by
  intro p dst src1 src2 s t h
  rcases h with h | h <;>
    obtain ⟨y, -, rfl⟩ := next_eq_written h <;> exact vecFrame_setVec s dst _ _

/-- Settles O19: forms 5 to 7 are one write of a whole vector register. -/
theorem evexFrame : Obligations.EvexFrame := by
  intro p mask dst src1 src2 s t h
  rcases h with h | h | h <;>
    obtain ⟨y, -, rfl⟩ := next_eq_written h <;> exact vecFrame_setVec s dst _ _

/-- The mask of the top-of-stack field, bit by bit. -/
theorem getLsbD_topOfStack (b : Nat) : (0x3800#16).getLsbD b = (decide (11 ≤ b) && decide (b ≤ 13)) := by
  by_cases hb : b < 16
  · exact (by decide : ∀ b < 16, (0x3800#16).getLsbD b = (decide (11 ≤ b) && decide (b ≤ 13))) b hb
  · rw [BitVec.getLsbD_of_ge _ _ (by omega), decide_eq_false (p := b ≤ 13) (by omega), Bool.and_false]

/-- Settles O15: the x87 transition of R23. -/
theorem pmulhrswMmX87Effects : Obligations.PmulhrswMmX87Effects := by
  intro p rex dst src s t h
  obtain ⟨y, -, rfl⟩ := next_eq_written h
  refine ⟨rfl, fun b => ?_, fun r => ?_⟩
  · show (s.x87.status &&& ~~~0x3800#16).getLsbD b = _
    rw [BitVec.getLsbD_and, BitVec.getLsbD_not, getLsbD_topOfStack]
    by_cases hb : b < 16
    · rw [decide_eq_true hb, Bool.true_and]
    · rw [BitVec.getLsbD_of_ge _ _ (by omega), Bool.false_and, Bool.false_and]
  · show (s.x87.upper.set dst.toNat 0xFFFF#16 dst.isLt)[r.toNat]'r.isLt = _
    rw [Vector.getElem_set]
    simp only [BitVec.toNat_inj, eq_comm]

end Sys2Proof.Machine
end

section
/-! Properties of the masked forms (`42_vpmulhrsw_evex.md` section 1), and the privilege level (`60_exceptions.md` section 4). -/

namespace Sys2Proof.Machine

/-! ### Lanes below `KL` decide -/

/-- A packed value depends on its lanes only. -/
theorem packLanes_congr (w : Nat) {f g : Nat → Lane} {n : Nat} (h : ∀ j < n, f j = g j) :
    packLanes w f n = packLanes w g n := by
  induction n with
  | zero => rfl
  | succ n ih => rw [packLanes, packLanes, ih fun j hj => h j (by omega), h n (by omega)]

/-- The last operand read from the same register, or from memory at the same address, is the same. -/
theorem vecOperand_unique {w : Nat} {s : State} {f f' : Form} {p p' : Prefixes} {ilen ilen' : Nat} {src src' : Rm 5}
    {y y' : BitVec w} (hbytes : formBytes f = formBytes f')
    (hsame : (∃ r, src = .reg r ∧ src' = .reg r) ∨
      ∃ a a', src = .mem a ∧ src' = .mem a' ∧ s.operandAddr f p ilen a = s.operandAddr f' p' ilen' a')
    (h : vecOperand w s f p ilen src = .ok y) (h' : vecOperand w s f' p' ilen' src' = .ok y') : y = y' := by
  rcases hsame with ⟨r, rfl, rfl⟩ | ⟨a, a', rfl, rfl, haddr⟩
  · exact Except.ok.inj (h.symm.trans h')
  · obtain ⟨-, -, -, -, -, rfl⟩ := loadOperand_eq_ok.1 h
    obtain ⟨-, -, -, -, -, rfl⟩ := loadOperand_eq_ok.1 h'
    rw [haddr, hbytes]

/-- With every mask bit set, or no writemask, an EVEX form writes what the VEX form of its width writes. -/
theorem evex_v_eq_vex_v {w : Nat} {f f' : Form} {p p' : Prefixes} {mask : Masking} {dst src1 : BitVec 5} {src2 src2' : Rm 5}
    {s t u : State} (hbytes : formBytes f = formBytes f') (hlanes : formLanes f = formLanes f')
    (hmask : ∀ j < formLanes f, maskBit s mask j)
    (hsame : (∃ r, src2 = .reg r ∧ src2' = .reg r) ∨ ∃ a a', src2 = .mem a ∧ src2' = .mem a' ∧
      s.operandAddr f p (evexIlen p src2) a = s.operandAddr f' p' (vexIlen p' src2') a')
    (ht : evexPmulhrsw w f p mask dst src1 src2 s = .ok t) (hu : vexPmulhrsw w f' p' dst src1 src2' s = .ok u) :
    t.v = u.v := by
  obtain ⟨-, y, hy, ht⟩ := evexPmulhrsw_eq_ok.1 ht
  obtain ⟨-, y', hy', hu⟩ := vexPmulhrsw_eq_ok.1 hu
  obtain ⟨-, rfl⟩ := advance_eq_ok.1 ht
  obtain ⟨-, rfl⟩ := advance_eq_ok.1 hu
  obtain rfl := vecOperand_unique hbytes hsame hy hy'
  have hpack : packLanes w (maskedLane s mask (s.vecLow w dst) (s.vecLow w src1) y) (formLanes f) =
      pmulhrs (formLanes f') (s.vecLow w src1) y := by
    rw [pmulhrs, ← hlanes]
    exact packLanes_congr w fun j hj => maskedLane_of_maskBit _ _ _ (hmask j hj)
  rw [hpack]
  rfl

/-- Settles O20: forms 5 and 3, 6 and 4 differ in the writemask only. -/
theorem unmaskedEvexEqualsVex : Obligations.UnmaskedEvexEqualsVex := by
  intro p p' mask dst src1 src2 src2' s t u same
  refine ⟨fun hmask hsame ht hu => ?_, fun hmask hsame ht hu => ?_⟩
  · exact evex_v_eq_vex_v (f := .f5) (f' := .f3) rfl rfl hmask hsame (finish_eq_next.1 ht) (finish_eq_next.1 hu)
  · exact evex_v_eq_vex_v (f := .f6) (f' := .f4) rfl rfl hmask hsame (finish_eq_next.1 ht) (finish_eq_next.1 hu)

/-! ### Mask bits from `KL` up -/

/-- The opmask registers `k'` hold the mask bits of `s` below `n`. -/
def MasksAgree (s : State) (k' : Vector (BitVec 64) 8) (n : Nat) : Prop :=
  ∀ (r : BitVec 3) (j : Nat), j < n → (k'[r.toNat]'r.isLt).getLsbD j = (s.opmask r).getLsbD j

theorem maskedLane_of_masksAgree {w : Nat} {s : State} {k' : Vector (BitVec 64) 8} {n j : Nat} (h : MasksAgree s k' n)
    (hj : j < n) (mask : Masking) (old x y : BitVec w) :
    maskedLane { s with k := k' } mask old x y j = maskedLane s mask old x y j := by
  have hbit : ∀ r : BitVec 3, (({ s with k := k' } : State).opmask r).getLsbD j = (s.opmask r).getLsbD j :=
    fun r => h r j hj
  cases mask with
  | noMask => rfl
  | merging r => simp only [maskedLane, hbit]
  | zeroing r => simp only [maskedLane, hbit]

/-- No operand is read from the opmask registers. -/
theorem vecOperand_with_k (w : Nat) (s : State) (k' : Vector (BitVec 64) 8) (f : Form) (p : Prefixes) (ilen : Nat) (src : Rm 5) :
    vecOperand w { s with k := k' } f p ilen src = vecOperand w s f p ilen src := by
  cases src <;> rfl

theorem advance_with_k {s t : State} (k' : Vector (BitVec 64) 8) {n : Nat} (h : s.advance n = .ok t) :
    ({ s with k := k' } : State).advance n = .ok { t with k := k' } := by
  obtain ⟨hpc, rfl⟩ := advance_eq_ok.1 h
  exact advance_eq_ok.2 ⟨hpc, rfl⟩

/-- An EVEX form with opmask registers that agree on its lanes does the same, and keeps them. -/
theorem evexPmulhrsw_of_masksAgree {w : Nat} {f : Form} {p : Prefixes} {mask : Masking} {dst src1 : BitVec 5} {src2 : Rm 5}
    {s t : State} {k' : Vector (BitVec 64) 8} (hagree : MasksAgree s k' (formLanes f))
    (h : evexPmulhrsw w f p mask dst src1 src2 s = .ok t) :
    evexPmulhrsw w f p mask dst src1 src2 { s with k := k' } = .ok { t with k := k' } := by
  obtain ⟨hcheck, y, hy, hadvance⟩ := evexPmulhrsw_eq_ok.1 h
  have hcheck' : checkEvex { s with k := k' } f = .ok () := checkUdNm_eq_ok.2 (checkUdNm_eq_ok.1 hcheck)
  refine evexPmulhrsw_eq_ok.2 ⟨hcheck', y, (vecOperand_with_k ..).trans hy, ?_⟩
  rw [packLanes_congr w fun j hj => maskedLane_of_masksAgree hagree hj mask _ _ y]
  exact advance_with_k k' hadvance

/-- Settles O21: the lanes of forms 5, 6, 7 read the low 8, 16, 32 mask bits. -/
theorem maskBitsAboveLanesAreIgnored : Obligations.MaskBitsAboveLanesAreIgnored := by
  intro p mask dst src1 src2 s t k' agree
  refine ⟨fun hagree h => ?_, fun hagree h => ?_, fun hagree h => ?_⟩ <;>
    exact finish_eq_next.2 (evexPmulhrsw_of_masksAgree hagree (finish_eq_next.1 h))

/-! ### The privilege level -/

/-- With paging off `MemFault` does not look at the privilege level (R61). -/
theorem memFault_with_cpl {s : State} (hpaging : s.cfg.paging = false) (c : Fin 4) (x : Seg) (lin : Word) (n : Nat)
    (kind : AccessKind) : ({ s with cpl := c } : State).memFault x lin n kind = s.memFault x lin n kind := by
  have hfaithful : ({ s with cpl := c } : State).faithfulMemFault x lin n kind = s.faithfulMemFault x lin n kind := by
    simp only [State.faithfulMemFault, hpaging]
    rfl
  unfold State.memFault
  rw [hfaithful]

/-- A memory operand read at one privilege level is read at every other. -/
theorem loadOperand_with_cpl {w : Nat} {s : State} {f : Form} {p : Prefixes} {ilen : Nat} {a : MemAddr} {y : BitVec w}
    (hpaging : s.cfg.paging = false) (hac : s.eflags.getLsbD 18 = false) (c : Fin 4)
    (h : loadOperand w s f p ilen a = .ok y) : loadOperand w { s with cpl := c } f p ilen a = .ok y := by
  obtain ⟨hbases, halign, hwrap, hfault, -, hy⟩ := loadOperand_eq_ok.1 h
  have hacActive : ({ s with cpl := c } : State).acActive = false := by
    rw [State.acActive, show ({ s with cpl := c } : State).eflagsAc = false from hac, Bool.and_false, Bool.false_and]
  refine loadOperand_eq_ok.2 ⟨hbases, halign, hwrap, (memFault_with_cpl hpaging c ..).trans hfault, ?_, hy⟩
  rw [hacActive, Bool.and_false, Bool.false_and]

theorem lastOperand_with_cpl {s : State} {i : Instr} {y : BitVec (formVl i.form)} (hpaging : s.cfg.paging = false)
    (hac : s.eflags.getLsbD 18 = false) (c : Fin 4) (h : lastOperand s i = .ok y) :
    lastOperand { s with cpl := c } i = .ok y := by
  rcases i with ⟨_, _, _, _ | _⟩ | ⟨_, _, _, _ | _⟩ | ⟨_, _, _, _ | _⟩ | ⟨_, _, _, _ | _⟩ | ⟨_, _, _, _, _ | _⟩ |
    ⟨_, _, _, _, _ | _⟩ | ⟨_, _, _, _, _ | _⟩ <;> first | exact h | exact loadOperand_with_cpl hpaging hac c h

theorem written_with_cpl (s : State) (c : Fin 4) (i : Instr) (y : BitVec (formVl i.form)) :
    written { s with cpl := c } i y = { written s i y with cpl := c } := by
  cases i <;> rfl

/-- Settles O34: no part of an instruction looks at the privilege level when paging and alignment checking are off. -/
theorem privilegeLevelIsInvisible : Obligations.PrivilegeLevelIsInvisible := by
  intro i s t c hpaging hac h
  obtain ⟨hready, y, hy, hadvance⟩ := exec_eq_next.1 h
  obtain ⟨hpc, rfl⟩ := advance_eq_ok.1 hadvance
  refine exec_eq_next.2 ⟨?_, y, lastOperand_with_cpl hpaging hac c hy, ?_⟩
  · cases hf : i.form <;> exact hf ▸ hready
  · rw [written_with_cpl]
    exact advance_eq_ok.2 ⟨hpc, rfl⟩

end Sys2Proof.Machine
end

section
/-! The lane function (`40_pmulhrsw_legacy.md` section 1) and the lanes of a memory operand (`20_memory.md` section 1). -/

namespace Sys2Proof.Machine

/-! ### The closed form of the lane function -/

/-- The product scaled by 2^15 and rounded half up. -/
def roundedProduct (a b : Lane) : Int := (a.toInt * b.toInt + 2 ^ 14) / 2 ^ 15

theorem lane_toInt_bounds (a : Lane) : -2 ^ 15 ≤ a.toInt ∧ a.toInt < 2 ^ 15 :=
  ⟨BitVec.le_toInt a, BitVec.toInt_lt⟩

/-- Settles O2: shifting by 14, adding 1 and dropping a bit is dividing by 2^15 after adding 2^14. -/
theorem mulhrs16IsRoundedProduct : Obligations.Mulhrs16IsRoundedProduct := by
  intro a b
  apply BitVec.eq_of_toNat_eq
  rw [mulhrs16FollowsPseudocode a b, BitVec.toNat_ofInt]
  generalize a.toInt * b.toInt = p
  omega

theorem mulhrs16_eq (a b : Lane) : mulhrs16 a b = BitVec.ofInt 16 (roundedProduct a b) := mulhrs16IsRoundedProduct a b

theorem toInt_eq_min_iff (a : Lane) : a.toInt = -2 ^ 15 ↔ a = 0x8000#16 := by
  rw [← BitVec.toInt_inj]
  rfl

/-- The rounded product fits 16 bits unless both factors are 8000H. -/
theorem roundedProduct_bounds {a b : Lane} (h : ¬(a = 0x8000#16 ∧ b = 0x8000#16)) :
    -2 ^ 15 ≤ roundedProduct a b ∧ roundedProduct a b < 2 ^ 15 := by
  rw [← toInt_eq_min_iff, ← toInt_eq_min_iff] at h
  obtain ⟨ha, ha'⟩ := lane_toInt_bounds a
  obtain ⟨hb, hb'⟩ := lane_toInt_bounds b
  unfold roundedProduct
  generalize a.toInt = x at *
  generalize b.toInt = y at *
  have hlow : -2 ^ 30 ≤ x * y := by nlinarith
  have hhigh : x * y ≤ 2 ^ 30 - 2 ^ 15 := by
    by_cases hx : x = -2 ^ 15
    · have hy : -2 ^ 15 + 1 ≤ y := by omega
      subst hx
      linarith
    · have hx' : -2 ^ 15 + 1 ≤ x := by omega
      nlinarith
  omega

/-- Settles O3: a value of 16 bits is kept by the cut to 16 bits; for 8000H, 8000H the rounded product is 8000H as an unsigned
number. -/
theorem mulhrs16OverflowsOnlyAtMinimum : Obligations.Mulhrs16OverflowsOnlyAtMinimum := by
  refine ⟨fun a b => ⟨?_, fun h => ?_⟩, by decide⟩
  · rintro h ⟨rfl, rfl⟩
    exact absurd h (by decide)
  · obtain ⟨hlow, hhigh⟩ := roundedProduct_bounds h
    rw [mulhrs16_eq]
    exact BitVec.toInt_ofInt_eq_self (by decide) hlow hhigh

/-- Settles O5, from the closed form: the product commutes, and 8000H is `-2^15`. -/
theorem mulhrs16CommutesAndNegates : Obligations.Mulhrs16CommutesAndNegates := by
  intro a b
  have hmin : (0x8000#16).toInt = -2 ^ 15 := rfl
  refine ⟨?_, ?_, ?_⟩
  · rw [mulhrs16_eq, mulhrs16_eq, roundedProduct, roundedProduct, mul_comm]
  · rw [mulhrs16_eq, roundedProduct, BitVec.toInt_zero, mul_zero]
    rfl
  · have hneg : roundedProduct a 0x8000#16 = -a.toInt := by
      rw [roundedProduct, hmin]
      omega
    rw [mulhrs16_eq, hneg, BitVec.ofInt_neg, BitVec.ofInt_toInt]

/-! ### The kind of shift and the width of the intermediate -/

/-- Bits 16:1 of a sum with 1 depend on the low 17 bits only. -/
theorem extract_add_one_congr {v w : Nat} {x : BitVec v} {y : BitVec w} (hv : 17 ≤ v) (hw : 17 ≤ w)
    (h : x.toNat % 2 ^ 17 = y.toNat % 2 ^ 17) : (x + 1#v).extractLsb' 1 16 = (y + 1#w).extractLsb' 1 16 := by
  have hcut : ∀ {u : Nat} (z : BitVec u), 17 ≤ u →
      ((z + 1#u).extractLsb' 1 16).toNat = (z.toNat % 2 ^ 17 + 1) / 2 % 2 ^ 16 := by
    intro u z hu
    obtain ⟨k, hk⟩ := pow_dvd_pow 2 hu
    have hone : 1 % 2 ^ u = 1 := Nat.mod_eq_of_lt (Nat.one_lt_two_pow (by omega))
    have hmod : (z.toNat + 1) % 2 ^ u % 2 ^ 17 = (z.toNat + 1) % 2 ^ 17 := by rw [hk, Nat.mod_mul_right_mod]
    rw [BitVec.extractLsb'_toNat, BitVec.toNat_add, BitVec.toNat_ofNat, hone, Nat.shiftRight_eq_div_pow]
    omega
  apply BitVec.eq_of_toNat_eq
  rw [hcut x hv, hcut y hw, h]

/-- Settles O4: the logical shift, the arithmetic shift and the 18 most significant bits agree on their low 17 bits. -/
theorem mulhrs16ShiftKindIrrelevant : Obligations.Mulhrs16ShiftKindIrrelevant := by
  intro a b
  unfold mulhrs16
  generalize BitVec.ofInt 32 (a.toInt * b.toInt) = p
  refine ⟨extract_add_one_congr (by decide) (by decide) ?_, extract_add_one_congr (by decide) (by decide) ?_⟩
  · have hlow : ∀ x : BitVec 32, x.toNat % 2 ^ 17 = (x.extractLsb' 0 17).toNat := by
      intro x
      rw [BitVec.extractLsb'_toNat, Nat.shiftRight_zero]
    rw [hlow, hlow]
    congr 1
    apply BitVec.eq_of_getLsbD_eq
    intro i hi
    have hin : 14 + i < 32 := by omega
    have hi' : ¬32 ≤ i := by omega
    simp only [BitVec.getLsbD_extractLsb', BitVec.getLsbD_ushiftRight, BitVec.getLsbD_sshiftRight, Nat.zero_add]
    simp [hi', hin]
  · rw [BitVec.extractLsb'_toNat, BitVec.toNat_ushiftRight, Nat.shiftRight_eq_div_pow]
    omega

/-- Settles O7: this is `lane_readLe`. -/
theorem memoryLanesAreLittleEndian : Obligations.MemoryLanesAreLittleEndian := fun _ m a _ _ hw hj => lane_readLe m a hw hj

end Sys2Proof.Machine
end

section
/-! The faithful `MemFault` (`20_memory.md` section 6, `60_exceptions.md` section 1). -/

namespace Sys2Proof.Machine

/-! ### The segment part -/

theorem segmentViolation_m64 {s : State} (hmode : s.mode = .m64) {x : Seg} {lin : Word} {n : Nat} {kind : AccessKind} :
    s.segmentViolation x lin n kind = true ↔ ∃ i < n, canonical (lin + BitVec.ofNat 64 i) = false := by
  simp [State.segmentViolation, hmode]

theorem segmentViolation_m32 {s : State} (hmode : s.mode = .m32) {x : Seg} {lin : Word} {n : Nat} {kind : AccessKind} :
    s.segmentViolation x lin n kind = true ↔
      (∃ i < n, (s.segReg x).limit.toNat < ((lin - s.segBase x).setWidth 32).toNat + i) ∨
        (kind = .read ∧ (s.segReg x).readable = false) := by
  simp [State.segmentViolation, hmode]

/-- The two parts of `SegmentAllows` are what the segment check tests. -/
theorem segmentViolation_eq_false_iff {s : State} (hmode : ModeOk s) {x : Seg} {lin : Word} {n : Nat} {kind : AccessKind} :
    s.segmentViolation x lin n kind = false ↔ SegmentAllows s x lin n kind := by
  rw [← Bool.not_eq_true]
  rcases hmode with hm | hm
  · simp [segmentViolation_m64 hm, SegmentAllows, hm]
  · simp [segmentViolation_m32 hm, SegmentAllows, hm]

theorem memFault_of_segmentViolation {s : State} (htable : s.cfg.accessTable = none) {x : Seg} {lin : Word} {n : Nat}
    {kind : AccessKind} (h : s.segmentViolation x lin n kind = true) :
    s.memFault x lin n kind = some (if x = .ss then .ss 0 else .gp 0) := by
  rw [memFault_of_none htable, State.faithfulMemFault, if_pos h]

/-- Settles O31: one byte that is not canonical is a segment violation in `M64`. -/
theorem nonCanonicalAccessFaults : Obligations.NonCanonicalAccessFaults := fun _ _ _ _ i _ htable hmode hi hcanon =>
  memFault_of_segmentViolation htable ((segmentViolation_m64 hmode).2 ⟨i, hi, hcanon⟩)

/-- In `M32` the offset in the segment is the linear address less the segment's base. -/
theorem offset_of_linear {s : State} (hmode : s.mode = .m32) (x : Seg) (offset : BitVec 32) :
    (s.linear x (offset.setWidth 64) - s.segBase x).setWidth 32 = offset := by
  apply BitVec.eq_of_toNat_eq
  simp only [State.linear, State.wrapAddr, hmode, if_true, BitVec.toNat_setWidth, BitVec.toNat_sub, BitVec.toNat_add]
  omega

/-- Settles O32: a byte beyond the limit and a read of an unreadable segment are segment violations in `M32`. -/
theorem segmentLimitAccessFaults : Obligations.SegmentLimitAccessFaults := by
  intro s x offset n i kind htable hmode hi hviolation
  refine memFault_of_segmentViolation htable ((segmentViolation_m32 hmode).2 ?_)
  rw [offset_of_linear hmode]
  exact hviolation.imp_left fun h => ⟨i, hi, h⟩

/-! ### The page part -/

/-- A byte that page faults lies in a region, the first that holds it, and that region denies the access. -/
theorem pageFaultAt_eq_some {s : State} {kind : AccessKind} {a : Word} {e : Exception} (h : s.pageFaultAt kind a = some e) :
    ∃ r ∈ s.cfg.pages, InRegion r a ∧ e = .pf (s.pageFaultCode r kind) a := by
  unfold State.pageFaultAt at h
  split at h
  · cases h
  · rename_i r hr
    have hin := List.find?_some hr
    simp only [Bool.and_eq_true, decide_eq_true_eq] at hin
    split at h
    · exact ⟨r, List.mem_of_find?_eq_some hr, hin, (Option.some.inj h).symm⟩
    · cases h

/-- A byte page faults exactly where paging denies the access. -/
theorem pageFaultAt_ne_none_iff {s : State} {kind : AccessKind} {a : Word} :
    s.pageFaultAt kind a ≠ none ↔ PageDenies s kind a := by
  have hregion : ∀ r : PageRegion, (decide (r.first ≤ a.toNat) && decide (a.toNat ≤ r.last)) = true ↔ InRegion r a := by
    simp [InRegion]
  have hdeny : ∀ r : PageRegion, (!r.present || r.reservedBit || (r.supervisorOnly && s.cpl == 3) ||
      (kind == .fetch && r.noExecute) || (kind == .read && r.noRead.contains s.cpl)) = true ↔
      (r.present = false ∨ r.reservedBit = true ∨ (r.supervisorOnly = true ∧ s.cpl = 3) ∨
        (kind = .read ∧ s.cpl ∈ r.noRead) ∨ (kind = .fetch ∧ r.noExecute = true)) := by
    intro r
    simp only [Bool.or_eq_true, Bool.not_eq_true', Bool.and_eq_true, beq_iff_eq, List.contains_iff_mem]
    tauto
  unfold State.pageFaultAt PageDenies
  constructor
  · intro h
    split at h
    · exact absurd rfl h
    · rename_i r hr
      obtain ⟨hin, before, later, hpages, hbefore⟩ := List.find?_eq_some_iff_append.1 hr
      split at h
      · rename_i hd
        refine ⟨before, r, later, hpages, fun q hq hq' => ?_, (hregion r).1 hin, (hdeny r).1 hd⟩
        have := hbefore q hq
        rw [(hregion q).2 hq'] at this
        cases this
      · exact absurd rfl h
  · rintro ⟨before, r, later, hpages, hbefore, hin, hd⟩
    have hfind : s.cfg.pages.find? (fun r => r.first ≤ a.toNat && a.toNat ≤ r.last) = some r := by
      refine List.find?_eq_some_iff_append.2 ⟨(hregion r).2 hin, before, later, hpages, fun q hq => ?_⟩
      rw [Bool.not_eq_true', ← Bool.not_eq_true, hregion]
      exact hbefore q hq
    rw [hfind]
    simp only [(hdeny r).2 hd, if_true]
    exact Option.some_ne_none _

theorem pageFaultAt_eq_none_iff {s : State} {kind : AccessKind} {a : Word} :
    s.pageFaultAt kind a = none ↔ ¬PageDenies s kind a := by
  rw [← pageFaultAt_ne_none_iff, not_not]

/-- A word with bit `k` alone, or 0. -/
theorem getLsbD_flag (c : Prop) [Decidable c] (k b : Nat) (hk : k < 32) :
    (if c then BitVec.twoPow 32 k else 0#32).getLsbD b = (decide c && decide (k = b)) := by
  by_cases hc : c
  · rw [if_pos hc, BitVec.getLsbD_twoPow, decide_eq_true hk, decide_eq_true hc]
  · rw [if_neg hc, BitVec.getLsbD_zero, decide_eq_false hc, Bool.false_and]

/-- The fault code is four flags (R197). -/
theorem getLsbD_pageFaultCode (s : State) (r : PageRegion) (kind : AccessKind) (b : Nat) :
    (s.pageFaultCode r kind).getLsbD b =
      (r.present && decide (0 = b) || decide (s.cpl = 3) && decide (2 = b) || r.present && r.reservedBit && decide (3 = b) ||
        decide (kind = .fetch) && decide (4 = b)) := by
  have h1 : 1#32 = BitVec.twoPow 32 0 := rfl
  have h4 : 4#32 = BitVec.twoPow 32 2 := rfl
  have h8 : 8#32 = BitVec.twoPow 32 3 := rfl
  have h16 : 16#32 = BitVec.twoPow 32 4 := rfl
  rw [State.pageFaultCode, h1, h4, h8, h16, BitVec.getLsbD_or, BitVec.getLsbD_or, BitVec.getLsbD_or,
    getLsbD_flag _ _ _ (by decide), getLsbD_flag _ _ _ (by decide), getLsbD_flag _ _ _ (by decide),
    getLsbD_flag _ _ _ (by decide), Bool.decide_eq_true, Bool.decide_eq_true]

/-- The fault code, bit by bit (R197). -/
theorem pageFaultCode_bits (s : State) (r : PageRegion) (kind : AccessKind) :
    (s.pageFaultCode r kind).getLsbD 0 = r.present ∧ (s.pageFaultCode r kind).getLsbD 3 = (r.present && r.reservedBit) ∧
    (s.pageFaultCode r kind).getLsbD 1 = false ∧ (s.pageFaultCode r kind).getLsbD 2 = decide (s.cpl = 3) ∧
    (s.pageFaultCode r kind).getLsbD 4 = decide (kind = .fetch) ∧
    ∀ b, 5 ≤ b → (s.pageFaultCode r kind).getLsbD b = false := by
  simp only [getLsbD_pageFaultCode]
  refine ⟨by simp, by simp, by simp, by simp, by simp, fun b hb => ?_⟩
  have hne : ∀ k, k ≤ 4 → decide (k = b) = false := fun k hk => decide_eq_false (by omega)
  simp [hne]

/-- Settles O33: the page part of the faithful `MemFault` is reached when the segment part is silent, and asks the bytes in
turn. -/
theorem pageFaultCodeAndAddress : Obligations.PageFaultCodeAndAddress := by
  refine ⟨fun s x lin n kind code address htable h => ?_, fun s x lin n i kind hmode htable hpaging hallows hi hdenies => ?_,
    fun s x lin n kind hmode htable hallows hno => ?_⟩
  · rw [memFault_of_none htable] at h
    rcases faithfulMemFault_eq_some h with ⟨-, he⟩ | ⟨-, hpaging, i, hi, hfault⟩
    · split at he <;> cases he
    · obtain ⟨r, hr, ⟨hfirst, hlast⟩, he⟩ := pageFaultAt_eq_some hfault
      cases he
      obtain ⟨hp, hrsvd, hrest⟩ := pageFaultCode_bits s r kind
      exact ⟨hpaging, ⟨i, hi, rfl⟩, ⟨r, hr, hfirst, hlast, hp, hrsvd⟩, hrest⟩
  · rw [memFault_of_none htable]
    cases hfault : s.faithfulMemFault x lin n kind with
    | none =>
      exact absurd hdenies (pageFaultAt_eq_none_iff.1 ((faithfulMemFault_eq_none.1 hfault).2 hpaging i hi))
    | some e =>
      rcases faithfulMemFault_eq_some hfault with ⟨hviolation, -⟩ | ⟨-, -, j, -, hj⟩
      · rw [(segmentViolation_eq_false_iff hmode).2 hallows] at hviolation
        cases hviolation
      · obtain ⟨r, -, -, rfl⟩ := pageFaultAt_eq_some hj
        exact ⟨_, _, rfl⟩
  · rw [memFault_of_none htable, faithfulMemFault_eq_none]
    refine ⟨(segmentViolation_eq_false_iff hmode).2 hallows, fun hpaging i hi => pageFaultAt_eq_none_iff.2 ?_⟩
    rcases hno with hoff | hno
    · rw [hoff] at hpaging
      cases hpaging
    · exact hno i hi

end Sys2Proof.Machine
end

section
/-! Addresses (`30_encoding.md` sections 4 and 6, `20_memory.md` section 6): the effective address as a sum of numbers, the
segment, the linear address. -/

namespace Sys2Proof.Machine

/-! ### The parts of an effective address as numbers -/

theorem dispValue_eq (n : Nat) (d : Disp) : dispValue n d = BitVec.ofInt 64 (dispInt n d) := by
  cases d with
  | none => rfl
  | disp8 d => rw [dispValue, dispInt, BitVec.ofInt_mul, BitVec.ofInt_natCast, BitVec.signExtend]
  | disp32 d => rfl

theorem dispValue16_eq (n : Nat) (d : Disp16) : dispValue16 n d = BitVec.ofInt 16 (dispInt16 n d) := by
  cases d with
  | none => rfl
  | disp8 d => rw [dispValue16, dispInt16, BitVec.ofInt_mul, BitVec.ofInt_natCast, BitVec.signExtend]
  | disp16 d => exact (BitVec.ofInt_toInt).symm

theorem gpr_eq (s : State) (r : BitVec 4) : s.gpr r = BitVec.ofInt 64 (s.gpr r).toNat := by
  rw [BitVec.ofInt_natCast, BitVec.ofNat_toNat, BitVec.setWidth_eq]

theorem gpr16_eq (s : State) (r : BitVec 4) : s.gpr16 r = BitVec.ofInt 16 (s.gpr r).toNat := by
  rw [BitVec.ofInt_natCast, BitVec.ofNat_toNat, State.gpr16]

theorem indexValue_eq (s : State) (i : Option (BitVec 4 × BitVec 2)) :
    s.indexValue i = BitVec.ofInt 64 (indexInt s i) := by
  rcases i with _ | ⟨r, scale⟩
  · rfl
  · have hcast : indexInt s (some (r, scale)) = ((s.gpr r).toNat * 2 ^ scale.toNat : Nat) := by simp [indexInt]
    apply BitVec.eq_of_toNat_eq
    rw [hcast, BitVec.ofInt_natCast, State.indexValue, BitVec.toNat_shiftLeft, Nat.shiftLeft_eq, BitVec.toNat_ofNat]

theorem baseSum16_eq (s : State) (b : Base16) : s.baseSum16 b = BitVec.ofInt 16 (baseSumInt16 s b) := by
  cases b <;> simp only [State.baseSum16, baseSumInt16, gpr16_eq, BitVec.ofInt_add]

/-- Truncating to the address size is taking the sum modulo 2 to the address size. -/
theorem truncAddr_ofInt {s : State} {p : Prefixes} (hmode : ModeOk s) (h16 : uses16 s.mode p = false) (z : Int) :
    ((s.truncAddr p (BitVec.ofInt 64 z)).toNat : Int) = z % 2 ^ addrSizeBits s p := by
  unfold State.truncAddr addrSizeBits
  rcases hmode with hm | hm <;> cases hp : p.addrSize <;> simp only [hm, hp, uses16] at h16 ⊢
  · simp [BitVec.toNat_ofInt]
    omega
  · simp [BitVec.toNat_ofInt]
    omega
  · simp [BitVec.toNat_ofInt]
    omega
  · cases h16

/-- 16-bit addressing has the address size 16. -/
theorem addrSizeBits_of_uses16 {s : State} {p : Prefixes} (h : uses16 s.mode p = true) : addrSizeBits s p = 16 := by
  simp only [uses16, Bool.and_eq_true, beq_iff_eq] at h
  simp [addrSizeBits, h.1, h.2]

/-- A 16-bit sum, widened, as a number. -/
theorem setWidth_ofInt16 {s : State} {p : Prefixes} (h : uses16 s.mode p = true) (z : Int) :
    (((BitVec.ofInt 16 z).setWidth 64).toNat : Int) = z % 2 ^ addrSizeBits s p := by
  rw [addrSizeBits_of_uses16 h, BitVec.toNat_setWidth, BitVec.toNat_ofInt]
  omega

/-- A word is its signed value modulo 2 to its width. -/
theorem toNat_eq_toInt_emod {w : Nat} (d : BitVec w) : (d.toNat : Int) = d.toInt % 2 ^ w := by
  have h := congrArg BitVec.toNat (BitVec.ofInt_toInt (x := d))
  rw [BitVec.toNat_ofInt] at h
  have hnonneg : 0 ≤ d.toInt % (2 ^ w : Int) := Int.emod_nonneg _ (by positivity)
  rw [← h, Int.natCast_pow]
  exact Int.toNat_of_nonneg hnonneg

/-- The effective address as a number (R89, R90), one addressing form at a time. -/
theorem effectiveAddr_eq {s : State} {p : Prefixes} (n ilen : Nat) {a : MemAddr} (hmode : ModeOk s)
    (hwf : a.wf s.mode p = true) :
    ((s.effectiveAddr p n ilen a).toNat : Int) = effectiveInt s n ilen a % 2 ^ addrSizeBits s p := by
  cases a with
  | base b d =>
    simp only [MemAddr.wf, Bool.and_eq_true, Bool.not_eq_true'] at hwf
    rw [State.effectiveAddr, gpr_eq, dispValue_eq, ← BitVec.ofInt_add, truncAddr_ofInt hmode hwf.1]
    rfl
  | dispOnly d =>
    simp only [MemAddr.wf, Bool.not_eq_true'] at hwf
    by_cases hm : s.mode = .m64
    · have hsum : s.pc + BitVec.ofNat 64 ilen + d.signExtend 64 = BitVec.ofInt 64 (s.pc.toNat + ilen + d.toInt) := by
        rw [BitVec.ofInt_add, BitVec.ofInt_add, BitVec.ofInt_natCast, BitVec.ofInt_natCast, BitVec.ofNat_toNat,
          BitVec.setWidth_eq, BitVec.signExtend]
      rw [State.effectiveAddr, effectiveInt, if_pos hm, if_pos hm, hsum, truncAddr_ofInt hmode hwf]
    · have hm32 := hmode.resolve_left hm
      have hbits : addrSizeBits s p = 32 := by
        simp only [uses16, hm32, beq_self_eq_true, Bool.true_and] at hwf
        simp [addrSizeBits, hm, hwf]
      rw [State.effectiveAddr, effectiveInt, if_neg hm, if_neg hm, hbits, ← toNat_eq_toInt_emod, BitVec.toNat_setWidth,
        Nat.mod_eq_of_lt (by omega)]
  | sib b i d =>
    simp only [MemAddr.wf, Bool.and_eq_true, Bool.not_eq_true'] at hwf
    rw [State.effectiveAddr, gpr_eq, indexValue_eq, dispValue_eq, ← BitVec.ofInt_add, ← BitVec.ofInt_add,
      truncAddr_ofInt hmode hwf.1.1]
    rfl
  | sibNoBase i d =>
    simp only [MemAddr.wf, Bool.and_eq_true, Bool.not_eq_true'] at hwf
    rw [State.effectiveAddr, indexValue_eq, BitVec.signExtend, ← BitVec.ofInt_add, truncAddr_ofInt hmode hwf.1]
    rfl
  | base16 b d =>
    simp only [MemAddr.wf, Bool.and_eq_true] at hwf
    rw [State.effectiveAddr, baseSum16_eq, dispValue16_eq, ← BitVec.ofInt_add, setWidth_ofInt16 hwf.1]
    rfl
  | dispOnly16 d =>
    rw [State.effectiveAddr, effectiveInt, addrSizeBits_of_uses16 hwf, ← toNat_eq_toInt_emod, BitVec.toNat_setWidth,
      Nat.mod_eq_of_lt (by omega)]

/-- The factors of the statement are those of R104. -/
theorem formDisp8Scale_of_mem {fn : Form × Nat}
    (h : fn ∈ [(Form.f1, 1), (.f2, 1), (.f3, 1), (.f4, 1), (.f5, 16), (.f6, 32), (.f7, 64)]) :
    formDisp8Scale fn.1 = fn.2 := by
  simp only [List.mem_cons, List.not_mem_nil, or_false] at h
  rcases h with rfl | rfl | rfl | rfl | rfl | rfl | rfl <;> rfl

/-- Settles O39: the sum modulo 2 to the address size, and the factors of R104. -/
theorem effectiveAddressIsTheSum : Obligations.EffectiveAddressIsTheSum := by
  refine ⟨fun s p n ilen a hmode hwf => effectiveAddr_eq n ilen hmode hwf, fun fn hfn s p ilen a hmode hwf => ?_⟩
  rw [State.operandAddr, formDisp8Scale_of_mem hfn, ← effectiveAddr_eq fn.2 ilen hmode hwf, BitVec.ofInt_natCast,
    BitVec.ofNat_toNat, BitVec.setWidth_eq]

/-! ### The segment and the linear address -/

theorem segBase_m32 {s : State} (h : s.mode = .m32) (x : Seg) : s.segBase x = (s.segReg x).base := by
  simp [State.segBase, h]

theorem segBase_m64 {s : State} (h : s.mode = .m64) (x : Seg) :
    s.segBase x = if x = .fs ∨ x = .gs then (s.segReg x).base else 0 := by
  cases x <;> simp [State.segBase, h]

/-- The segment without an override is SS for the addresses that use a stack register, DS for the others. -/
theorem defaultSeg_eq (a : MemAddr) :
    (UsesStackBase a → defaultSeg a = .ss) ∧ (¬UsesStackBase a → defaultSeg a = .ds) := by
  cases a with
  | base b d => simp +contextual [UsesStackBase, defaultSeg]
  | sib b i d => simp +contextual [UsesStackBase, defaultSeg]
  | base16 b d => cases b <;> simp [UsesStackBase, defaultSeg]
  | _ => simp [UsesStackBase, defaultSeg]

/-- Settles O40: in `M64` the bases of ES, CS, SS and DS are 0, and the sum is cut to the width of the mode. -/
theorem linearAddressIsBasePlusEffective : Obligations.LinearAddressIsBasePlusEffective := by
  refine ⟨fun s x ea => ⟨fun hm => ?_, fun hm hx => ?_, fun hm hx => ?_⟩,
    fun addrSize a => ⟨fun x => rfl, (defaultSeg_eq a).1, (defaultSeg_eq a).2⟩⟩
  · rw [State.linear, State.wrapAddr, if_pos hm, segBase_m32 hm, BitVec.toNat_setWidth, BitVec.toNat_setWidth,
      BitVec.toNat_add]
    omega
  · rw [State.linear, State.wrapAddr, if_neg (by simp [hm]), segBase_m64 hm, if_pos hx, BitVec.toNat_add]
  · rw [State.linear, State.wrapAddr, if_neg (by simp [hm]), segBase_m64 hm, if_neg hx, zero_add]

end Sys2Proof.Machine
end

section
/-! Reset and launch (`10_state.md` section 11, `70_reset_and_hazards.md` section 2). -/

namespace Sys2Proof.Machine

theorem reset_vec (i : BitVec 5) : State.reset.vec i = 0 := Vector.getElem_replicate ..

theorem reset_mmReg (i : BitVec 3) : State.reset.mmReg i = 0 := Vector.getElem_replicate ..

theorem reset_opmask (i : BitVec 3) : State.reset.opmask i = 0 := Vector.getElem_replicate ..

theorem reset_gpr (i : BitVec 4) : State.reset.gpr i = 0 := Vector.getElem_replicate ..

/-- Settles O58. -/
theorem resetValues : Obligations.ResetValues :=
  ⟨rfl, rfl, rfl, rfl, rfl, rfl, rfl, rfl, rfl, rfl, rfl, reset_vec, reset_mmReg, reset_opmask, fun i _ => reset_gpr i⟩

/-- Settles O56: memory is empty, the vector registers are 0, and the mode is neither of those that bound `pc`. -/
theorem resetHasInvariant : Obligations.ResetHasInvariant := by
  refine ⟨rfl, fun i => ?_, nofun, nofun⟩
  rw [reset_vec, BitVec.ofNat_eq_ofNat, BitVec.toNat_zero]
  exact ⟨Nat.two_pow_pos _, fun _ _ => rfl⟩

/-- With `CR4` at 0 no form but form 1 is enabled. -/
theorem not_formEnabled_of_cr4_zero {s : State} {f : Form} (hcr4 : s.cr4 = 0#32) (hf : f ≠ .f1) : ¬FormEnabled s f := by
  cases f with
  | f1 => exact absurd rfl hf
  | _ => simp only [FormEnabled, AvxEnabled, Avx512Enabled, hcr4, BitVec.getLsbD_zero, Bool.false_eq_true, false_and,
      and_false, not_false_eq_true]

/-- Settles O59: the reset value of `CR4` is 0. -/
theorem resetDisablesAllButMmx : Obligations.ResetDisablesAllButMmx := fun i m hm hf =>
  disabledFormRaisesUd i { State.reset with mode := m } (modeOk_iff_admitted.2 hm) (not_formEnabled_of_cr4_zero rfl hf)

/-- Settles O60: the bits the launch sets are those the checks ask for; the processor's own flags are the hypothesis. -/
theorem launchMakesFormsReady : Obligations.LaunchMakesFormsReady := by
  intro f s hpresent
  have hem : s.launch.cr0.getLsbD 2 = false := by simp [State.launch]
  have hts : s.launch.cr0.getLsbD 3 = false := by simp [State.launch]
  have hosfxsr : s.launch.cr4.getLsbD 9 = true := by simp [State.launch]
  have hosxsave : s.launch.cr4.getLsbD 18 = true := by simp [State.launch]
  have hpending : s.launch.x87.status.getLsbD 7 = false := by simp [State.launch]
  have hxcr0 : s.launch.xcr0 = 0xE7#8 := rfl
  have havx : AvxEnabled s.launch := ⟨hosxsave, by rw [hxcr0]; decide⟩
  have havx512 : Avx512Enabled s.launch := ⟨havx, by rw [hxcr0]; decide⟩
  refine ⟨.inl rfl, ?_, hts, fun _ => hpending⟩
  cases f <;>
    simp only [formPresent, Bool.and_eq_true, decide_eq_true_eq, maxvlBits_ge_256_iff, maxvlBits_ge_512_iff, and_assoc]
      at hpresent
  · exact ⟨hpresent, hem⟩
  · exact ⟨hpresent, hem, hosfxsr⟩
  · exact ⟨hpresent, havx⟩
  · exact ⟨hpresent.1, hpresent.2, havx⟩
  · exact ⟨hpresent.1, hpresent.2.1, hpresent.2.2.1, hpresent.2.2.2, havx512⟩
  · exact ⟨hpresent.1, hpresent.2.1, hpresent.2.2.1, hpresent.2.2.2, havx512⟩
  · exact ⟨hpresent.1, hpresent.2.1, hpresent.2.2, havx512⟩

end Sys2Proof.Machine
end

section
/-! SUPPORT. The legacy prefixes (R84, R107 step 1): reading them succeeds exactly on the orders of the bytes of what is seen, and
a repeated kind is refused. -/

namespace Sys2Proof

open Machine

/-! ### The bytes of the prefixes seen -/

/-- A byte that is there or not. -/
def optByte (present : Bool) (b : Byte) : List Byte := if present then [b] else []

/-- The prefixes seen, in the order in which the encoder writes those it writes. -/
def PrefixesSeen.bytes (p : PrefixesSeen) : List Byte :=
  p.kept.bytes ++ optByte p.opSize 0x66#8 ++ optByte p.lock 0xF0#8 ++ optByte p.repne 0xF2#8 ++ optByte p.rep 0xF3#8

/-- The kind of a byte of the legacy prefixes: one for all segment overrides, its own for each other byte (R84). -/
def prefixKind (b : Byte) : Nat := if isSegmentOverride b then 0 else b.toNat

theorem prefixes_bytes_eq (p : Prefixes) : p.bytes = (p.seg.map Seg.prefixByte).toList ++ optByte p.addrSize 0x67#8 := by
  rcases p with ⟨_ | seg, addrSize⟩ <;> rfl

@[simp] theorem optByte_false (b : Byte) : optByte false b = [] := rfl

@[simp] theorem optByte_true (b : Byte) : optByte true b = [b] := rfl

theorem mem_optByte {c b : Byte} {present : Bool} : c ∈ optByte present b ↔ present = true ∧ c = b := by
  cases present <;> simp [optByte]

theorem mem_seen_bytes {p : PrefixesSeen} {b : Byte} :
    b ∈ p.bytes ↔ (∃ s, p.seg = some s ∧ b = s.prefixByte) ∨ (p.addrSize = true ∧ b = 0x67#8) ∨
      (p.opSize = true ∧ b = 0x66#8) ∨ (p.lock = true ∧ b = 0xF0#8) ∨ (p.repne = true ∧ b = 0xF2#8) ∨
      (p.rep = true ∧ b = 0xF3#8) := by
  simp only [PrefixesSeen.bytes, prefixes_bytes_eq, PrefixesSeen.kept, List.mem_append, mem_optByte, Option.mem_toList,
    Option.map_eq_some_iff, or_assoc, eq_comm (a := b)]

theorem prefixByte_not_mem (s : Seg) : s.prefixByte ∉ [0x67#8, 0x66#8, 0xF0#8, 0xF2#8, 0xF3#8] := by
  cases s <;> decide

theorem prefixByte_injective {s s' : Seg} (h : s.prefixByte = s'.prefixByte) : s = s' := by
  revert h
  cases s <;> cases s' <;> decide

/-- The bytes seen are of different kinds. -/
theorem seen_kinds_nodup (p : PrefixesSeen) : (p.bytes.map prefixKind).Nodup := by
  have hopt : ∀ (present : Bool) (b : Byte), ((optByte present b).map prefixKind).Sublist [prefixKind b] := by
    intro present b
    cases present
    · exact List.nil_sublist _
    · exact List.Sublist.refl _
  have hseg : ((p.seg.map Seg.prefixByte).toList.map prefixKind).Sublist [0] := by
    rcases p.seg with _ | s
    · exact List.nil_sublist _
    · cases s <;> exact List.Sublist.refl _
  have hsub : (p.bytes.map prefixKind).Sublist [0, 0x67, 0x66, 0xF0, 0xF2, 0xF3] := by
    simp only [PrefixesSeen.bytes, prefixes_bytes_eq, PrefixesSeen.kept, List.map_append]
    exact ((((hseg.append (hopt _ _)).append (hopt _ _)).append (hopt _ _)).append (hopt _ _)).append (hopt _ _)
  exact hsub.nodup (by decide)

/-- Each of the one-byte kinds was seen when its byte is there. -/
theorem flag_mem_seen_bytes (p : PrefixesSeen) :
    (0x67#8 ∈ p.bytes ↔ p.addrSize = true) ∧ (0x66#8 ∈ p.bytes ↔ p.opSize = true) ∧ (0xF0#8 ∈ p.bytes ↔ p.lock = true) ∧
      (0xF2#8 ∈ p.bytes ↔ p.repne = true) ∧ (0xF3#8 ∈ p.bytes ↔ p.rep = true) := by
  have hne : ∀ b ∈ [0x67#8, 0x66#8, 0xF0#8, 0xF2#8, 0xF3#8], ¬∃ s : Seg, p.seg = some s ∧ b = s.prefixByte := by
    rintro b hb ⟨s, -, rfl⟩
    exact prefixByte_not_mem s hb
  simp only [List.forall_mem_cons, List.not_mem_nil, false_imp_iff, implies_true, and_true] at hne
  simp [mem_seen_bytes, hne]

theorem seg_mem_seen_bytes (p : PrefixesSeen) (s : Seg) : s.prefixByte ∈ p.bytes ↔ p.seg = some s := by
  have hne := prefixByte_not_mem s
  simp only [List.mem_cons, List.not_mem_nil, or_false, not_or] at hne
  simp only [mem_seen_bytes, hne, and_false, or_false]
  refine ⟨?_, fun h => ⟨s, h, rfl⟩⟩
  rintro ⟨s', h, heq⟩
  rwa [prefixByte_injective heq]

/-- The bytes seen tell what was seen, in any order. -/
theorem seen_bytes_injective {p q : PrefixesSeen} (h : p.bytes.Perm q.bytes) : p = q := by
  obtain ⟨ha, ho, hl, hn, hr⟩ := flag_mem_seen_bytes p
  obtain ⟨ha', ho', hl', hn', hr'⟩ := flag_mem_seen_bytes q
  simp only [h.mem_iff, ha', ho', hl', hn', hr', ← Bool.eq_iff_iff] at ha ho hl hn hr
  have hseg : q.seg = p.seg := Option.ext fun s => by
    rw [← seg_mem_seen_bytes, ← seg_mem_seen_bytes, h.mem_iff]
  cases p
  cases q
  simp only [PrefixesSeen.mk.injEq]
  exact ⟨hseg.symm, ho.symm, ha.symm, hl.symm, hn.symm, hr.symm⟩

/-! ### Noting one byte -/

theorem segOfByte_prefixByte (s : Seg) : segOfByte s.prefixByte = some s := by
  cases s <;> rfl

/-- The bytes of the legacy prefixes: one for each segment, and five more. -/
theorem isLegacyPrefix_iff {b : Byte} :
    isLegacyPrefix b = true ↔
      (∃ s : Seg, b = s.prefixByte) ∨ b = 0x66#8 ∨ b = 0x67#8 ∨ b = 0xF0#8 ∨ b = 0xF2#8 ∨ b = 0xF3#8 := by
  simp only [isLegacyPrefix, List.contains_iff_mem, List.mem_cons, List.not_mem_nil, or_false]
  constructor
  · rintro (h | h | h | h | h | h | h)
    exacts [.inl ⟨.es, h⟩, .inl ⟨.cs, h⟩, .inl ⟨.ss, h⟩, .inl ⟨.ds, h⟩, .inl ⟨.fs, h⟩, .inl ⟨.gs, h⟩, .inr h]
  · rintro (⟨s, rfl⟩ | h)
    · cases s <;> decide
    · simp only [h, or_true]

theorem isLegacyPrefix_of_mem_seen {p : PrefixesSeen} {b : Byte} (h : b ∈ p.bytes) : isLegacyPrefix b = true := by
  rw [isLegacyPrefix_iff]
  rcases mem_seen_bytes.1 h with ⟨s, -, hs⟩ | ⟨-, hb⟩ | ⟨-, hb⟩ | ⟨-, hb⟩ | ⟨-, hb⟩ | ⟨-, hb⟩
  · exact .inl ⟨s, hs⟩
  all_goals simp [hb]

theorem notePrefix_eq_none {p : PrefixesSeen} {b : Byte} (h : isLegacyPrefix b = false) : notePrefix p b = none := by
  simp only [isLegacyPrefix, List.contains_eq_mem, List.mem_cons, List.not_mem_nil, or_false, decide_eq_false_iff_not,
    not_or] at h
  simp [notePrefix, segOfByte, h]

/-- What noting a byte can answer: the byte is added to those seen, or its kind was seen before and it is refused (R107 step 1). -/
def NotedOrRefused (p : PrefixesSeen) (b : Byte) : Prop :=
  (∃ q, notePrefix p b = some (.ok q) ∧ (p.bytes ++ [b]).Perm q.bytes) ∨
    (prefixKind b ∈ p.bytes.map prefixKind ∧
      (notePrefix p b = some (.error .repeatedPrefix) ∨ notePrefix p b = some (.error .twoSegmentOverrides)))

theorem notedOrRefused_of_flag {p q : PrefixesSeen} {b : Byte} {flag : Bool}
    (hnote : notePrefix p b = some (if flag then .error .repeatedPrefix else .ok q)) (hmem : b ∈ p.bytes ↔ flag = true)
    (hperm : flag = false → (p.bytes ++ [b]).Perm q.bytes) : NotedOrRefused p b := by
  cases flag with
  | false => exact .inl ⟨q, hnote, hperm rfl⟩
  | true => exact .inr ⟨List.mem_map_of_mem (hmem.2 rfl), .inl hnote⟩

theorem notedOrRefused (p : PrefixesSeen) {b : Byte} (h : isLegacyPrefix b = true) : NotedOrRefused p b := by
  obtain ⟨ha, ho, hl, hn, hr⟩ := flag_mem_seen_bytes p
  rcases isLegacyPrefix_iff.1 h with ⟨s, rfl⟩ | rfl | rfl | rfl | rfl | rfl
  · have hnote : notePrefix p s.prefixByte =
        some (if p.seg.isSome then .error .twoSegmentOverrides else .ok { p with seg := some s }) := by
      rw [notePrefix, segOfByte_prefixByte]
    have hkind : ∀ s : Seg, prefixKind s.prefixByte = 0 := fun s => by cases s <;> rfl
    cases hs : p.seg with
    | none =>
      refine .inl ⟨{ p with seg := some s }, by simpa [hs] using hnote, List.perm_iff_count.2 fun c => ?_⟩
      simp only [PrefixesSeen.bytes, PrefixesSeen.kept, prefixes_bytes_eq, hs, Option.map_none, Option.map_some,
        Option.toList_none, Option.toList_some, List.count_append, List.count_nil]
      omega
    | some s' =>
      have hmem := List.mem_map_of_mem (f := prefixKind) ((seg_mem_seen_bytes p s').2 hs)
      rw [hkind] at hmem
      exact .inr ⟨(hkind s).symm ▸ hmem, .inr (by simpa [hs] using hnote)⟩
  · refine notedOrRefused_of_flag rfl ho fun hf => List.perm_iff_count.2 fun c => ?_
    simp only [PrefixesSeen.bytes, PrefixesSeen.kept, hf, optByte_false, optByte_true, List.count_append, List.count_nil]
    omega
  · refine notedOrRefused_of_flag rfl ha fun hf => List.perm_iff_count.2 fun c => ?_
    simp only [PrefixesSeen.bytes, PrefixesSeen.kept, prefixes_bytes_eq, hf, optByte_false, optByte_true, List.count_append, List.count_nil]
    omega
  · refine notedOrRefused_of_flag rfl hl fun hf => List.perm_iff_count.2 fun c => ?_
    simp only [PrefixesSeen.bytes, PrefixesSeen.kept, hf, optByte_false, optByte_true, List.count_append, List.count_nil]
    omega
  · refine notedOrRefused_of_flag rfl hn fun hf => List.perm_iff_count.2 fun c => ?_
    simp only [PrefixesSeen.bytes, PrefixesSeen.kept, hf, optByte_false, optByte_true, List.count_append, List.count_nil]
    omega
  · refine notedOrRefused_of_flag rfl hr fun hf => List.perm_iff_count.2 fun c => ?_
    simp only [PrefixesSeen.bytes, PrefixesSeen.kept, hf, optByte_false, optByte_true, List.count_append, List.count_nil]
    omega

/-! ### Reading the prefixes -/

theorem readPrefixes_of_not_prefix (p : PrefixesSeen) {b : Byte} (bs : List Byte) (h : isLegacyPrefix b = false) :
    readPrefixes p (b :: bs) = .ok (p, b :: bs) := by
  rw [readPrefixes, notePrefix_eq_none h]

/-- Prefixes of different kinds are read, in whatever order they come. -/
theorem readPrefixes_append {p q : PrefixesSeen} {l : List Byte} (bs : List Byte) (h : (p.bytes ++ l).Perm q.bytes) :
    readPrefixes p (l ++ bs) = readPrefixes q bs := by
  induction l generalizing p with
  | nil =>
    rw [List.append_nil] at h
    rw [seen_bytes_injective h, List.nil_append]
  | cons b l ih =>
    have hb := isLegacyPrefix_of_mem_seen (h.subset (by simp : b ∈ p.bytes ++ b :: l))
    rcases notedOrRefused p hb with ⟨p', hnote, hperm⟩ | ⟨hseen, -⟩
    · rw [List.cons_append, readPrefixes, hnote]
      refine ih ?_
      refine (hperm.symm.append_right l).trans ?_
      simpa using h
    · have hnodup := (h.map prefixKind).nodup_iff.2 (seen_kinds_nodup q)
      rw [List.map_append, List.map_cons] at hnodup
      exact absurd (List.mem_cons_self ..) (List.disjoint_of_nodup_append hnodup hseen)

/-- What reading the prefixes has consumed: the bytes of what is seen, in some order; the byte after them belongs to none. -/
theorem readPrefixes_eq_ok {p q : PrefixesSeen} {bs rest : List Byte} (h : readPrefixes p bs = .ok (q, rest)) :
    ∃ l, bs = l ++ rest ∧ (p.bytes ++ l).Perm q.bytes ∧ (∀ x ∈ l, isLegacyPrefix x = true) ∧
      ∃ b bs', rest = b :: bs' ∧ isLegacyPrefix b = false := by
  induction bs generalizing p with
  | nil => cases h
  | cons b bs ih =>
    cases hb : isLegacyPrefix b with
    | false =>
      rw [readPrefixes_of_not_prefix p bs hb] at h
      cases h
      exact ⟨[], rfl, by simp, by simp, b, bs, rfl, hb⟩
    | true =>
      rw [readPrefixes] at h
      rcases notedOrRefused p hb with ⟨p', hnote, hperm⟩ | ⟨-, hnote | hnote⟩ <;> rw [hnote] at h
      · obtain ⟨l, rfl, hl, hall, hrest⟩ := ih h
        refine ⟨b :: l, rfl, ?_, by simpa [hb] using hall, hrest⟩
        refine List.Perm.trans ?_ ((hperm.append_right l).trans hl)
        simp
      · cases h
      · cases h

/-- Bytes that run out among the prefixes are no more than the kinds of prefixes. -/
theorem readPrefixes_eq_more {p : PrefixesSeen} {bs : List Byte} (h : readPrefixes p bs = .error .more) :
    ∃ q : PrefixesSeen, (p.bytes ++ bs).Perm q.bytes := by
  induction bs generalizing p with
  | nil => exact ⟨p, by simp⟩
  | cons b bs ih =>
    cases hb : isLegacyPrefix b with
    | false =>
      rw [readPrefixes_of_not_prefix p bs hb] at h
      cases h
    | true =>
      rw [readPrefixes] at h
      rcases notedOrRefused p hb with ⟨p', hnote, hperm⟩ | ⟨-, hnote | hnote⟩ <;> rw [hnote] at h
      · obtain ⟨q, hq⟩ := ih h
        refine ⟨q, List.Perm.trans ?_ ((hperm.append_right bs).trans hq)⟩
        simp
      · cases h
      · cases h

/-- A byte of the legacy prefixes whose kind was seen before is refused, whatever others stand between the two. -/
theorem readPrefixes_of_repeated {p : PrefixesSeen} {mid : List Byte} {c : Byte} (bs : List Byte)
    (hmid : ∀ x ∈ mid, isLegacyPrefix x = true) (hc : isLegacyPrefix c = true)
    (hkind : prefixKind c ∈ (p.bytes ++ mid).map prefixKind) :
    readPrefixes p (mid ++ c :: bs) = .error (.refuse .repeatedPrefix) ∨
      readPrefixes p (mid ++ c :: bs) = .error (.refuse .twoSegmentOverrides) := by
  have hrefused : ∀ (q : PrefixesSeen) (b : Byte) (l : List Byte),
      (notePrefix q b = some (.error .repeatedPrefix) ∨ notePrefix q b = some (.error .twoSegmentOverrides)) →
      readPrefixes q (b :: l) = .error (.refuse .repeatedPrefix) ∨
        readPrefixes q (b :: l) = .error (.refuse .twoSegmentOverrides) := by
    rintro q b l (h | h)
    · exact .inl (by rw [readPrefixes, h])
    · exact .inr (by rw [readPrefixes, h])
  induction mid generalizing p with
  | nil =>
    rcases notedOrRefused p hc with ⟨q, -, hperm⟩ | ⟨-, hnote⟩
    · have hnodup := (hperm.map prefixKind).nodup_iff.2 (seen_kinds_nodup q)
      rw [List.map_append, List.map_cons] at hnodup
      rw [List.append_nil] at hkind
      exact absurd (List.mem_cons_self ..) (List.disjoint_of_nodup_append hnodup hkind)
    · exact hrefused p c bs hnote
  | cons b mid ih =>
    rcases notedOrRefused p (hmid b (by simp)) with ⟨q, hnote, hperm⟩ | ⟨-, hnote⟩
    · rw [List.cons_append, readPrefixes, hnote]
      refine ih (fun x hx => hmid x (by simp [hx])) ?_
      have hsame : (p.bytes ++ b :: mid).Perm (q.bytes ++ mid) := by
        simpa using hperm.append_right mid
      exact (hsame.map prefixKind).subset hkind
    · exact hrefused p b _ hnote

end Sys2Proof
end

section
/-! SUPPORT. Fields of a byte, numbers of two and four bytes, ModRM with SIB and displacement (R86 to R90): reading what the
encoder writes, whatever register-extension bits are read with it. -/

namespace Sys2Proof

open Machine

/-! ### Fields -/

@[simp] theorem byte233_mod (a : BitVec 2) (b c : BitVec 3) : (byte233 a b c).extractLsb' 6 2 = a := by
  revert a b c
  decide

@[simp] theorem byte233_reg (a : BitVec 2) (b c : BitVec 3) : (byte233 a b c).extractLsb' 3 3 = b := by
  revert a b c
  decide

@[simp] theorem byte233_rm (a : BitVec 2) (b c : BitVec 3) : (byte233 a b c).extractLsb' 0 3 = c := by
  revert a b c
  decide

/-- A byte is its three fields. -/
theorem byte233_fields (o : Byte) : byte233 (o.extractLsb' 6 2) (o.extractLsb' 3 3) (o.extractLsb' 0 3) = o := by
  revert o
  decide

@[simp] theorem setWidth_extend4 (x : Bool) (r : BitVec 3) : (extend4 x r).setWidth 3 = r := by
  revert x r
  decide

@[simp] theorem getElem_extend4 (x : Bool) (r : BitVec 3) : (extend4 x r)[3] = x := by
  revert x r
  decide

@[simp] theorem extend4_fields (r : BitVec 4) : extend4 r[3] (r.setWidth 3) = r := by
  revert r
  decide

@[simp] theorem setWidth_extend5 (x b : Bool) (r : BitVec 3) : (extend5 x b r).setWidth 3 = r := by
  revert x b r
  decide

@[simp] theorem getElem_three_extend5 (x b : Bool) (r : BitVec 3) : (extend5 x b r)[3] = b := by
  revert x b r
  decide

@[simp] theorem getElem_four_extend5 (x b : Bool) (r : BitVec 3) : (extend5 x b r)[4] = x := by
  revert x b r
  decide

@[simp] theorem extend5_fields (r : BitVec 5) : extend5 r[4] r[3] (r.setWidth 3) = r := by
  revert r
  decide

/-! ### Sequences of reads -/

@[simp] theorem ok_bind {ε α β : Type} (a : α) (f : α → Except ε β) : (Except.ok a >>= f) = f a := rfl

@[simp] theorem error_bind {ε α β : Type} (e : ε) (f : α → Except ε β) : (Except.error e >>= f) = .error e := rfl

@[simp] theorem nextByte_cons (b : Byte) (bs : List Byte) : nextByte (b :: bs) = .ok (b, bs) := rfl

@[simp] theorem nextLe16_le16 (d : BitVec 16) (bs : List Byte) : nextLe16 (le16 d ++ bs) = .ok (d, bs) := by
  have hd : d.extractLsb' 8 8 ++ d.extractLsb' 0 8 = d := BitVec.extractLsb'_append_extractLsb'
  simp [nextLe16, le16, hd]

@[simp] theorem nextLe32_le32 (d : BitVec 32) (bs : List Byte) : nextLe32 (le32 d ++ bs) = .ok (d, bs) := by
  have hd : d.extractLsb' 16 16 ++ d.extractLsb' 0 16 = d := BitVec.extractLsb'_append_extractLsb'
  simp [nextLe32, le32, hd]

/-! ### Displacement and index -/

theorem disp_md_ne_three (d : Disp) : d.md ≠ 3#2 := by
  cases d <;> simp [Disp.md]

theorem disp16_md_ne_three (d : Disp16) : d.md ≠ 3#2 := by
  cases d <;> simp [Disp16.md]

theorem disp_md_eq_zero_iff {d : Disp} : d.md = 0#2 ↔ d = .none := by
  cases d <;> simp [Disp.md]

theorem disp16_md_eq_zero_iff {d : Disp16} : d.md = 0#2 ↔ d = .none := by
  cases d <;> simp [Disp16.md]

@[simp] theorem readDisp_bytes (d : Disp) (bs : List Byte) : readDisp d.md (d.bytes ++ bs) = .ok (d, bs) := by
  cases d <;> simp [readDisp, Disp.md, Disp.bytes]

@[simp] theorem readDisp16_bytes (d : Disp16) (bs : List Byte) : readDisp16 d.md (d.bytes ++ bs) = .ok (d, bs) := by
  cases d <;> simp [readDisp16, Disp16.md, Disp16.bytes]

@[simp] theorem base16OfRm_rm (b : Base16) : base16OfRm b.rm = b := by
  cases b <;> rfl

theorem base16_rm_eq_six_iff {b : Base16} : b.rm = 6#3 ↔ b = .bp := by
  cases b <;> simp [Base16.rm]

@[simp] theorem sibByte_base (i : Option (BitVec 4 × BitVec 2)) (r : BitVec 3) : (sibByte i r).extractLsb' 0 3 = r := by
  rcases i with _ | ⟨i, scale⟩ <;> exact byte233_rm ..

/-- Reading back the index that the encoder wrote, with the `X` bit it needs. -/
theorem sibIndex_sibByte {m : Mode} {i : Option (BitVec 4 × BitVec 2)} (r : BitVec 3) (h : indexWf m i = true) :
    sibIndex ((i.map fun j => j.1.getLsbD 3).getD false) (sibByte i r) = i := by
  rcases i with _ | ⟨i, scale⟩
  · simp [sibByte, sibIndex, extend4]
  · simp only [indexWf, Bool.and_eq_true, bne_iff_ne] at h
    simp [sibByte, sibIndex, h.2]

/-! ### ModRM with SIB and displacement -/

/-- The addressing form that is read when the extension bits `x` and `b` stand with the bytes of `a`. -/
def MemAddr.withExt (x b : Bool) : MemAddr → MemAddr
  | .base r d => .base (extend4 b (r.setWidth 3)) d
  | .sib r i d => .sib (extend4 b (r.setWidth 3)) (sibIndex x (sibByte i (r.setWidth 3))) d
  | .sibNoBase i d => .sibNoBase (sibIndex x (sibByte i 5#3)) d
  | a => a

/-- The bits an addressing form needs give it back. -/
theorem withExt_own_bits {m : Mode} {p : Prefixes} {a : MemAddr} (h : a.wf m p = true) : a.withExt a.bitX a.bitB = a := by
  cases a with
  | base r d => simp [MemAddr.withExt, MemAddr.bitB]
  | sib r i d =>
    simp only [MemAddr.wf, Bool.and_eq_true] at h
    have hi := sibIndex_sibByte (r.setWidth 3) h.2
    rcases i with _ | ⟨i, scale⟩ <;> simpa [MemAddr.withExt, MemAddr.bitX, MemAddr.bitB] using hi
  | sibNoBase i d =>
    simp only [MemAddr.wf, Bool.and_eq_true] at h
    have hi := sibIndex_sibByte 5#3 h.2
    rcases i with _ | ⟨i, scale⟩ <;> simpa [MemAddr.withExt, MemAddr.bitX] using hi
  | _ => rfl

/-- Reading the bytes of an addressing form gives it, with the extension bits that stand with them. -/
theorem readModRm_mem_bytes {m : Mode} {p : Prefixes} {a : MemAddr} (x b : Bool) (reg : BitVec 3) (bs : List Byte)
    (h : a.wf m p = true) : readModRm m p x b (a.bytes reg ++ bs) = .ok ((reg, .mem (a.withExt x b)), bs) := by
  cases a with
  | base r d =>
    simp only [MemAddr.wf, baseWf, Bool.and_eq_true, Bool.not_eq_true', bne_iff_ne, Bool.and_eq_false_iff, beq_eq_false_iff_ne]
      at h
    obtain ⟨h16, ⟨-, h4⟩, h5⟩ := h
    have hdisp : ¬(r.setWidth 3 = 5#3 ∧ d.md = 0#2) := by
      rintro ⟨hr, hd⟩
      rw [disp_md_eq_zero_iff] at hd
      exact h5.elim (· hr) (· hd)
    simp [MemAddr.bytes, readModRm, readMem, disp_md_ne_three, h16, h4, hdisp, MemAddr.withExt]
  | dispOnly d =>
    simp only [MemAddr.wf, Bool.not_eq_true'] at h
    simp [MemAddr.bytes, readModRm, readMem, h, MemAddr.withExt]
  | sib r i d =>
    simp only [MemAddr.wf, sibBaseWf, Bool.and_eq_true, Bool.not_eq_true', Bool.and_eq_false_iff, beq_eq_false_iff_ne] at h
    obtain ⟨⟨h16, -, h5⟩, -⟩ := h
    have hdisp : ¬(r.setWidth 3 = 5#3 ∧ d.md = 0#2) := by
      rintro ⟨hr, hd⟩
      rw [disp_md_eq_zero_iff] at hd
      exact h5.elim (· hr) (· hd)
    simp [MemAddr.bytes, readModRm, readMem, disp_md_ne_three, h16, hdisp, MemAddr.withExt]
  | sibNoBase i d =>
    simp only [MemAddr.wf, Bool.and_eq_true, Bool.not_eq_true'] at h
    simp [MemAddr.bytes, readModRm, readMem, h.1, MemAddr.withExt]
  | base16 r d =>
    simp only [MemAddr.wf, Bool.and_eq_true, Bool.not_eq_true', Bool.and_eq_false_iff, beq_eq_false_iff_ne] at h
    have hdisp : ¬(r.rm = 6#3 ∧ d.md = 0#2) := by
      rintro ⟨hr, hd⟩
      rw [disp16_md_eq_zero_iff] at hd
      exact h.2.elim (· (base16_rm_eq_six_iff.1 hr)) (· hd)
    simp [MemAddr.bytes, readModRm, readMem16, disp16_md_ne_three, h.1, hdisp, MemAddr.withExt]
  | dispOnly16 d =>
    simp only [MemAddr.wf] at h
    simp [MemAddr.bytes, readModRm, readMem16, h, MemAddr.withExt]

/-- The r/m operand that is read when the extension bits `x` and `b` stand with the bytes of `src`. -/
def Rm.withExt {n : Nat} (x b : Bool) : Rm n → Rm 3
  | .reg r => .reg (r.setWidth 3)
  | .mem a => .mem (a.withExt x b)

theorem readModRm_bytes {n : Nat} {m : Mode} {p : Prefixes} {ok : BitVec n → Bool} {src : Rm n} (x b : Bool) (reg : BitVec 3)
    (bs : List Byte) (h : src.wf m p ok = true) :
    readModRm m p x b (src.bytes reg ++ bs) = .ok ((reg, src.withExt x b), bs) := by
  cases src with
  | reg r => simp [Rm.bytes, readModRm, Rm.withExt]
  | mem a => exact readModRm_mem_bytes x b reg bs h

/-- A vector operand is given back by its own bits. -/
theorem extendRm_withExt {m : Mode} {p : Prefixes} {ok : BitVec 5 → Bool} {src : Rm 5} (h : src.wf m p ok = true) :
    extendRm src.bitX src.bitB (src.withExt src.bitX src.bitB) = src := by
  cases src with
  | reg r => simp [Rm.withExt, extendRm, Rm.bitX, Rm.bitB]
  | mem a => simp [Rm.withExt, extendRm, Rm.bitX, Rm.bitB, withExt_own_bits h]

/-- A register below 16 has no fifth bit. -/
theorem getElem_four_of_vecWf16 {m : Mode} {r : BitVec 5} (h : vecWf16 m r = true) : r[4] = false := by
  have hlt : r.toNat < 16 := by
    unfold vecWf16 at h
    split at h <;> simp only [decide_eq_true_eq] at h <;> omega
  exact Nat.testBit_lt_two_pow hlt

/-- A vector operand below 16 is given back without a fifth bit. -/
theorem extendRm_false_withExt {m : Mode} {p : Prefixes} {src : Rm 5} (h : src.wf m p (vecWf16 m) = true) :
    extendRm false src.bitB (src.withExt src.bitX src.bitB) = src := by
  cases src with
  | reg r =>
    have hr := extend5_fields r
    rw [getElem_four_of_vecWf16 h] at hr
    simp [Rm.withExt, extendRm, Rm.bitB, hr]
  | mem a => simp [Rm.withExt, extendRm, Rm.bitX, Rm.bitB, withExt_own_bits h]

end Sys2Proof
end

section
/-! SUPPORT. The encoder's output in two parts, the legacy prefixes and the bytes from REX or the opcode on; and what the decoder
does with the second part, whatever prefixes it has seen (R107 steps 2 and 3). -/

namespace Sys2Proof

open Machine

/-! ### REX and opcode -/

/-- R107 step 3: the byte that selects the encoding. -/
def decodeOpcode (m : Mode) (p : PrefixesSeen) (rex : Option Byte) (bs : List Byte) : Except DecodeStop (Instr × List Byte) := do
  let (o, bs) ← nextByte bs
  if o = 0x0F#8 then decodeLegacy m p rex bs
  else if o = 0xC4#8 then decodeVex m p rex bs
  else if o = 0x62#8 then decodeEvex m p rex bs
  else if o = 0xC5#8 then .error (.refuse .twoByteVex)
  else .error (.refuse .otherInstruction)

/-- Decoding is reading the prefixes, then REX, then what the opcode selects. -/
theorem decode_eq (m : Mode) (bs : List Byte) :
    decode m bs = readPrefixes {} bs >>= fun r => decodeOpcode m r.1 (readRex m r.2).1 (readRex m r.2).2 := rfl

/-- The legacy prefixes in any order, then the rest. -/
theorem decode_of_prefixes {m : Mode} {q : PrefixesSeen} {l : List Byte} {b : Byte} (bs : List Byte) (hl : l.Perm q.bytes)
    (hb : isLegacyPrefix b = false) :
    decode m (l ++ b :: bs) = decodeOpcode m q (readRex m (b :: bs)).1 (readRex m (b :: bs)).2 := by
  rw [decode_eq, readPrefixes_append (p := {}) _ hl, readPrefixes_of_not_prefix q bs hb, ok_bind]

theorem readRex_of_rex {b : Byte} (bs : List Byte) (h : b.extractLsb' 4 4 = 4#4) : readRex .m64 (b :: bs) = (some b, bs) :=
  if_pos ⟨rfl, h⟩

theorem readRex_of_ne {m : Mode} {b : Byte} (bs : List Byte) (h : m = .m64 → b.extractLsb' 4 4 ≠ 4#4) :
    readRex m (b :: bs) = (none, b :: bs) :=
  if_neg fun hc => h hc.1 hc.2

/-- A REX byte is not among the legacy prefixes. -/
theorem not_prefix_of_rex {b : Byte} (h : b.extractLsb' 4 4 = 4#4) : isLegacyPrefix b = false := by
  revert b
  decide

/-- Prefixes and REX, then what the opcode selects. -/
theorem decode_rex {q : PrefixesSeen} {l : List Byte} {rex : Byte} (bs : List Byte) (hl : l.Perm q.bytes)
    (hrex : rex.extractLsb' 4 4 = 4#4) : decode .m64 (l ++ rex :: bs) = decodeOpcode .m64 q (some rex) bs := by
  rw [decode_of_prefixes bs hl (not_prefix_of_rex hrex), readRex_of_rex bs hrex]

/-- Prefixes without REX, then what the opcode selects. -/
theorem decode_no_rex {m : Mode} {q : PrefixesSeen} {l : List Byte} {o : Byte} (bs : List Byte) (hl : l.Perm q.bytes)
    (ho : isLegacyPrefix o = false) (hrex : m = .m64 → o.extractLsb' 4 4 ≠ 4#4) :
    decode m (l ++ o :: bs) = decodeOpcode m q none (o :: bs) := by
  rw [decode_of_prefixes bs hl ho, readRex_of_ne bs hrex]

@[simp] theorem decodeOpcode_0F (m : Mode) (p : PrefixesSeen) (rex : Option Byte) (bs : List Byte) :
    decodeOpcode m p rex (0x0F#8 :: bs) = decodeLegacy m p rex bs := rfl

@[simp] theorem decodeOpcode_C4 (m : Mode) (p : PrefixesSeen) (rex : Option Byte) (bs : List Byte) :
    decodeOpcode m p rex (0xC4#8 :: bs) = decodeVex m p rex bs := rfl

@[simp] theorem decodeOpcode_62 (m : Mode) (p : PrefixesSeen) (rex : Option Byte) (bs : List Byte) :
    decodeOpcode m p rex (0x62#8 :: bs) = decodeEvex m p rex bs := rfl

/-! ### The two parts of an encoding -/

/-- The prefixes an instruction keeps, with 66H if `opSize`, as the decoder sees them. -/
def Prefixes.seen (p : Prefixes) (opSize : Bool) : PrefixesSeen :=
  { seg := p.seg, addrSize := p.addrSize, opSize := opSize }

@[simp] theorem kept_seen (p : Prefixes) (opSize : Bool) : (p.seen opSize).kept = p := rfl

theorem seen_bytes (p : Prefixes) (opSize : Bool) : (p.seen opSize).bytes = p.bytes ++ optByte opSize 0x66#8 := by
  simp [PrefixesSeen.bytes, Prefixes.seen, PrefixesSeen.kept]

/-- The second byte of VEX: the inverted `R`, `X`, `B`, and `mmmmm` (R94). -/
def vexByte1 (r x b : Bool) : Byte := BitVec.ofBool (!r) ++ BitVec.ofBool (!x) ++ BitVec.ofBool (!b) ++ 2#5

/-- The third byte of VEX with `W = 0`: the inverted `vvvv`, `L` and `pp` (R94). -/
def vexByte2 (vvvv : BitVec 4) (l : Bool) : Byte := 0#1 ++ ~~~vvvv ++ BitVec.ofBool l ++ 1#2

/-- `P0` of EVEX (R100). -/
def evexByte0 (r x b r' : Bool) : Byte :=
  BitVec.ofBool (!r) ++ BitVec.ofBool (!x) ++ BitVec.ofBool (!b) ++ BitVec.ofBool (!r') ++ 2#4

/-- `P1` of EVEX with `W = 0` (R100). -/
def evexByte1 (vvvv : BitVec 4) : Byte := 0#1 ++ ~~~vvvv ++ 5#3

/-- `P2` of EVEX (R100). -/
def evexByte2 (z : Bool) (ll : BitVec 2) (v' : Bool) (aaa : BitVec 3) : Byte :=
  BitVec.ofBool z ++ ll ++ 0#1 ++ BitVec.ofBool (!v') ++ aaa

/-- Forms 1 and 2 from REX on. -/
def legacyBody {n : Nat} (rex r : Bool) (reg : BitVec 3) (src : Rm n) : List Byte :=
  optByte rex (rexByte r src.bitX src.bitB) ++ 0x0F#8 :: 0x38#8 :: 0x0B#8 :: src.bytes reg

/-- Forms 3 and 4 from C4H on. -/
def vexBody (l : Bool) (dst src1 : BitVec 5) (src2 : Rm 5) : List Byte :=
  0xC4#8 :: vexByte1 (dst.getLsbD 3) src2.bitX src2.bitB :: vexByte2 (src1.setWidth 4) l :: 0x0B#8 ::
    src2.bytes (dst.setWidth 3)

/-- Forms 5 to 7 from 62H on. -/
def evexBody (ll : BitVec 2) (mask : Masking) (dst src1 : BitVec 5) (src2 : Rm 5) : List Byte :=
  0x62#8 :: evexByte0 (dst.getLsbD 3) src2.bitX src2.bitB (dst.getLsbD 4) :: evexByte1 (src1.setWidth 4) ::
    evexByte2 mask.z ll (src1.getLsbD 4) mask.aaa :: 0x0B#8 :: src2.bytes (dst.setWidth 3)

/-- The prefixes of an encoding, as the decoder sees them. -/
def Instr.seen : Instr → PrefixesSeen
  | .pmulhrswMm p .. => p.seen false
  | .pmulhrswXmm p .. => p.seen true
  | .vpmulhrswXmm p .. => p.seen false
  | .vpmulhrswYmm p .. => p.seen false
  | .vpmulhrswXmmMasked p .. => p.seen false
  | .vpmulhrswYmmMasked p .. => p.seen false
  | .vpmulhrswZmmMasked p .. => p.seen false

/-- The bytes of an encoding after its legacy prefixes. -/
def Instr.body : Instr → List Byte
  | .pmulhrswMm _ rex dst src => legacyBody rex false dst src
  | .pmulhrswXmm _ rex dst src => legacyBody rex (dst.getLsbD 3) (dst.setWidth 3) src
  | .vpmulhrswXmm _ dst src1 src2 => vexBody false dst src1 src2
  | .vpmulhrswYmm _ dst src1 src2 => vexBody true dst src1 src2
  | .vpmulhrswXmmMasked _ mask dst src1 src2 => evexBody 0#2 mask dst src1 src2
  | .vpmulhrswYmmMasked _ mask dst src1 src2 => evexBody 1#2 mask dst src1 src2
  | .vpmulhrswZmmMasked _ mask dst src1 src2 => evexBody 2#2 mask dst src1 src2

theorem encodeLegacy_eq {n : Nat} (p : Prefixes) (opSize rex r : Bool) (reg : BitVec 3) (src : Rm n) :
    encodeLegacy p opSize rex r reg src = (p.seen opSize).bytes ++ legacyBody rex r reg src := by
  simp [encodeLegacy, legacyBody, seen_bytes, optByte]

theorem encodeVex_eq (p : Prefixes) (l : Bool) (dst src1 : BitVec 5) (src2 : Rm 5) :
    encodeVex p l dst src1 src2 = (p.seen false).bytes ++ vexBody l dst src1 src2 := by
  simp [encodeVex, vexBody, vexByte1, vexByte2, seen_bytes]

theorem encodeEvex_eq (p : Prefixes) (ll : BitVec 2) (mask : Masking) (dst src1 : BitVec 5) (src2 : Rm 5) :
    encodeEvex p ll mask dst src1 src2 = (p.seen false).bytes ++ evexBody ll mask dst src1 src2 := by
  simp [encodeEvex, evexBody, evexByte0, evexByte1, evexByte2, seen_bytes]

/-- An encoding is its legacy prefixes and its body. -/
theorem encode_eq (i : Instr) : encode i = i.seen.bytes ++ i.body := by
  cases i with
  | pmulhrswMm | pmulhrswXmm => exact encodeLegacy_eq ..
  | vpmulhrswXmm | vpmulhrswYmm => exact encodeVex_eq ..
  | vpmulhrswXmmMasked | vpmulhrswYmmMasked | vpmulhrswZmmMasked => exact encodeEvex_eq ..

/-- No body begins with a byte of the legacy prefixes. -/
theorem body_cons (i : Instr) : ∃ b bs, i.body = b :: bs ∧ isLegacyPrefix b = false := by
  have hlegacy : ∀ {n : Nat} (rex r : Bool) (reg : BitVec 3) (src : Rm n),
      ∃ b bs, legacyBody rex r reg src = b :: bs ∧ isLegacyPrefix b = false := by
    intro n rex r reg src
    cases rex with
    | false => exact ⟨_, _, rfl, by decide⟩
    | true =>
      refine ⟨_, _, rfl, not_prefix_of_rex ?_⟩
      generalize src.bitX = x
      generalize src.bitB = b
      revert r x b
      decide
  cases i with
  | pmulhrswMm | pmulhrswXmm => exact hlegacy ..
  | _ => exact ⟨_, _, rfl, by decide⟩

end Sys2Proof
end

section
/-! SUPPORT. The three encodings after the opcode byte (R107 steps 3a to 3c): one lemma for each answer of `decodeLegacy`,
`decodeVex` and `decodeEvex` in the order of their checks, and the fields of the encoder's bytes. -/

namespace Sys2Proof

open Machine

/-! ### Fields of the bytes that the encoder writes -/

/-- The REX byte of an encoding, if it has one. -/
def rexOpt (rex r x b : Bool) : Option Byte := if rex then some (rexByte r x b) else none

theorem rexByte_fields (r x b : Bool) :
    (rexByte r x b).extractLsb' 4 4 = 4#4 ∧ (rexByte r x b).getLsbD 3 = false ∧ (rexByte r x b).getLsbD 2 = r ∧
      (rexByte r x b).getLsbD 1 = x ∧ (rexByte r x b).getLsbD 0 = b := by
  revert r x b
  decide

/-- Without a REX byte its bits are 0 (R85). -/
theorem rexOpt_fields {rex r x b : Bool} (h : rex = true ∨ (r = false ∧ x = false ∧ b = false)) :
    ((rexOpt rex r x b).getD 0x40#8).getLsbD 3 = false ∧ ((rexOpt rex r x b).getD 0x40#8).getLsbD 2 = r ∧
      ((rexOpt rex r x b).getD 0x40#8).getLsbD 1 = x ∧ ((rexOpt rex r x b).getD 0x40#8).getLsbD 0 = b := by
  revert rex r x b
  decide

theorem vexByte1_fields (r x b : Bool) :
    (vexByte1 r x b).extractLsb' 0 5 = 2#5 ∧ (vexByte1 r x b).getLsbD 7 = !r ∧ (vexByte1 r x b).getLsbD 6 = !x ∧
      (vexByte1 r x b).getLsbD 5 = !b := by
  revert r x b
  decide

theorem vexByte2_fields (v : BitVec 4) (l : Bool) :
    (vexByte2 v l).extractLsb' 0 2 = 1#2 ∧ (vexByte2 v l).getLsbD 2 = l ∧ ~~~((vexByte2 v l).extractLsb' 3 4) = v ∧
      (vexByte2 v l).getLsbD 6 = !v.getLsbD 3 := by
  revert v l
  decide

theorem evexByte0_fields (r x b r' : Bool) :
    (evexByte0 r x b r').extractLsb' 2 2 = 0#2 ∧ (evexByte0 r x b r').extractLsb' 0 2 = 2#2 ∧
      (evexByte0 r x b r').getLsbD 7 = !r ∧ (evexByte0 r x b r').getLsbD 6 = !x ∧ (evexByte0 r x b r').getLsbD 5 = !b ∧
      (evexByte0 r x b r').getLsbD 4 = !r' := by
  revert r x b r'
  decide

theorem evexByte1_fields (v : BitVec 4) :
    (evexByte1 v).getLsbD 2 = true ∧ (evexByte1 v).extractLsb' 0 2 = 1#2 ∧ ~~~((evexByte1 v).extractLsb' 3 4) = v ∧
      (evexByte1 v).getLsbD 6 = !v.getLsbD 3 := by
  revert v
  decide

theorem evexByte2_fields (z : Bool) (ll : BitVec 2) (v' : Bool) (aaa : BitVec 3) :
    (evexByte2 z ll v' aaa).extractLsb' 5 2 = ll ∧ (evexByte2 z ll v' aaa).getLsbD 4 = false ∧
      (evexByte2 z ll v' aaa).extractLsb' 0 3 = aaa ∧ (evexByte2 z ll v' aaa).getLsbD 7 = z ∧
      (evexByte2 z ll v' aaa).getLsbD 3 = !v' := by
  revert z ll v' aaa
  decide

/-! ### What well-formedness in `M32` says of the bits -/

theorem gprWf_m32 {r : BitVec 4} (h : gprWf .m32 r = true) : r.getLsbD 3 = false := by
  revert r
  decide

theorem vecWf_m32 {r : BitVec 5} (h : vecWf32 .m32 r = true) : r.getLsbD 3 = false ∧ r.getLsbD 4 = false := by
  revert r
  decide

theorem vecWf32_of_vecWf16 {m : Mode} {r : BitVec 5} (h : vecWf16 m r = true) : vecWf32 m r = true := by
  unfold vecWf16 at h
  unfold vecWf32
  split at h <;> simp_all

theorem indexWf_m32 {i : BitVec 4} {scale : BitVec 2} (h : indexWf .m32 (some (i, scale)) = true) : i.getLsbD 3 = false := by
  simp only [indexWf, Bool.and_eq_true] at h
  exact gprWf_m32 h.1

/-- In `M32` an addressing form needs neither `X` nor `B`. -/
theorem memAddr_bits_m32 {p : Prefixes} {a : MemAddr} (h : a.wf .m32 p = true) : a.bitX = false ∧ a.bitB = false := by
  cases a with
  | base r d =>
    simp only [MemAddr.wf, baseWf, Bool.and_eq_true] at h
    exact ⟨rfl, gprWf_m32 h.2.1.1⟩
  | sib r i d =>
    simp only [MemAddr.wf, sibBaseWf, Bool.and_eq_true] at h
    refine ⟨?_, gprWf_m32 h.1.2.1⟩
    rcases i with _ | ⟨i, scale⟩
    · rfl
    · exact indexWf_m32 h.2
  | sibNoBase i d =>
    simp only [MemAddr.wf, Bool.and_eq_true] at h
    refine ⟨?_, rfl⟩
    rcases i with _ | ⟨i, scale⟩
    · rfl
    · exact indexWf_m32 h.2
  | _ => exact ⟨rfl, rfl⟩

theorem rm_bits_m32 {p : Prefixes} {src : Rm 5} (h : src.wf .m32 p (vecWf32 .m32) = true) :
    src.bitX = false ∧ src.bitB = false := by
  cases src with
  | reg r => exact (vecWf_m32 h).symm
  | mem a => exact memAddr_bits_m32 h

theorem rm_wf_mono {n : Nat} {m : Mode} {p : Prefixes} {ok ok' : BitVec n → Bool} (hok : ∀ r, ok r = true → ok' r = true)
    {src : Rm n} (h : src.wf m p ok = true) : src.wf m p ok' = true := by
  cases src with
  | reg r => exact hok r h
  | mem a => exact h

/-! ### Legacy -/

section
variable {m : Mode} {q : PrefixesSeen} {rex : Option Byte}

theorem decodeLegacy_of_lock (bs : List Byte) (h : q.lock = true) :
    decodeLegacy m q rex (0x38#8 :: 0x0B#8 :: bs) = .error .ud := by
  simp [decodeLegacy, expectByte, h]

theorem decodeLegacy_of_repeat (bs : List Byte) (hlock : q.lock = false) (h : (q.repne || q.rep) = true) :
    decodeLegacy m q rex (0x38#8 :: 0x0B#8 :: bs) = .error (.refuse .repeatBeforeLegacy) := by
  rw [Bool.or_eq_true] at h
  simp [decodeLegacy, expectByte, hlock, h]

theorem decodeLegacy_of_rexW (bs : List Byte) (hlock : q.lock = false) (hrepeat : (q.repne || q.rep) = false)
    (h : (rex.getD 0x40#8).getLsbD 3 = true) :
    decodeLegacy m q rex (0x38#8 :: 0x0B#8 :: bs) = .error (.refuse .rexW) := by
  rw [Bool.or_eq_false_iff] at hrepeat
  simp only [decodeLegacy, expectByte, nextByte_cons, ok_bind, if_true, hlock, hrepeat, h, Bool.or_self, if_false,
    Bool.false_eq_true]

/-- Once ModRM, SIB and displacement are read: form 2 with 66H, else form 1 unless `R` or `B` names an MMX register. -/
theorem decodeLegacy_of_operands {bs rest : List Byte} {reg : BitVec 3} {rm : Rm 3} (hlock : q.lock = false)
    (hrepeat : (q.repne || q.rep) = false) (hw : (rex.getD 0x40#8).getLsbD 3 = false)
    (hread : readModRm m q.kept ((rex.getD 0x40#8).getLsbD 1) ((rex.getD 0x40#8).getLsbD 0) bs = .ok ((reg, rm), rest)) :
    decodeLegacy m q rex (0x38#8 :: 0x0B#8 :: bs) =
      if q.opSize then .ok (.pmulhrswXmm q.kept rex.isSome (extend5 false ((rex.getD 0x40#8).getLsbD 2) reg)
        (extendRm false ((rex.getD 0x40#8).getLsbD 0) rm), rest)
      else if (rex.getD 0x40#8).getLsbD 2 || ((rex.getD 0x40#8).getLsbD 0 && rm.isReg) then
        .error (.refuse .rexOnMmxRegister)
      else .ok (.pmulhrswMm q.kept rex.isSome reg rm, rest) := by
  rw [Bool.or_eq_false_iff] at hrepeat
  simp only [decodeLegacy, expectByte, nextByte_cons, ok_bind, if_true, hlock, hrepeat, hw, Bool.or_self, if_false,
    Bool.false_eq_true, hread]

/-! ### VEX and EVEX -/

/-- The byte after C4H or 62H makes the bytes VEX or EVEX: always in `M64`, with bits 7:6 = 11 in `M32` (R97, R102). -/
def VexByteOk (m : Mode) (b : Byte) : Prop := m = .m32 → b.extractLsb' 6 2 = 3#2

theorem vexByteInM32_of_ok {other : DecodeRefusal} {b : Byte} (bs : List Byte) (hb : VexByteOk m b) :
    vexByteInM32 m other (b :: bs) = .ok () := by
  by_cases hm : m = .m32
  · simp [vexByteInM32, hm, hb hm]
  · simp [vexByteInM32, hm]

theorem vexByteInM32_m64 (other : DecodeRefusal) (bs : List Byte) : vexByteInM32 .m64 other bs = .ok () := rfl

theorem vexIntro_of_ok {other : DecodeRefusal} {b : Byte} (bs : List Byte) (hb : VexByteOk m b)
    (h : q.badBeforeVex = false) : vexIntro m other q none (b :: bs) = .ok () := by
  simp [vexIntro, vexByteInM32_of_ok bs hb, h]

/-- The first byte alone is looked at before the payload is read. -/
theorem vexIntro_cons (m : Mode) (other : DecodeRefusal) (q : PrefixesSeen) (rex : Option Byte) (b : Byte) (bs : List Byte) :
    vexIntro m other q rex (b :: bs) = vexIntro m other q rex [b] := rfl

theorem decodeVex_of_bad {bs : List Byte} (hbs : vexByteInM32 m .les bs = .ok ())
    (h : (q.badBeforeVex || rex.isSome) = true) : decodeVex m q rex bs = .error .ud := by
  rw [decodeVex, vexIntro, hbs, ok_bind, if_pos h, error_bind]

theorem decodeEvex_of_bad {bs : List Byte} (hbs : vexByteInM32 m .bound bs = .ok ())
    (h : (q.badBeforeVex || rex.isSome) = true) : decodeEvex m q rex bs = .error .ud := by
  rw [decodeEvex, vexIntro, hbs, ok_bind, if_pos h, error_bind]

/-- In `M32` other bits 7:6 make the bytes another instruction (R97, R102). -/
theorem decodeVex_of_les {b : Byte} (bs : List Byte) (h : b.extractLsb' 6 2 ≠ 3#2) :
    decodeVex .m32 q rex (b :: bs) = .error (.refuse .les) := by
  simp [decodeVex, vexIntro, vexByteInM32, h]

theorem decodeEvex_of_bound {b : Byte} (bs : List Byte) (h : b.extractLsb' 6 2 ≠ 3#2) :
    decodeEvex .m32 q rex (b :: bs) = .error (.refuse .bound) := by
  simp [decodeEvex, vexIntro, vexByteInM32, h]

theorem decodeVex_of_other {b1 b2 op : Byte} (bs : List Byte) (hb : VexByteOk m b1) (hq : q.badBeforeVex = false)
    (h : ¬(b1.extractLsb' 0 5 = 2#5 ∧ b2.extractLsb' 0 2 = 1#2 ∧ op = 0x0B#8)) :
    decodeVex m q none (b1 :: b2 :: op :: bs) = .error (.refuse .otherVex) := by
  simp only [decodeVex, vexIntro_of_ok _ hb hq, nextByte_cons, ok_bind, if_pos h]

theorem decodeVex_of_extension {b1 b2 : Byte} (bs : List Byte) (hb : VexByteOk m b1) (hq : q.badBeforeVex = false)
    (hmap : b1.extractLsb' 0 5 = 2#5) (hpp : b2.extractLsb' 0 2 = 1#2)
    (h : m = .m32 ∧ ¬(b1.getLsbD 5 = true ∧ b2.getLsbD 6 = true)) :
    decodeVex m q none (b1 :: b2 :: 0x0B#8 :: bs) = .error (.refuse .extensionBitInM32) := by
  simp only [decodeVex, vexIntro_of_ok _ hb hq, nextByte_cons, ok_bind, hmap, hpp, and_self, not_true, if_false, if_pos h]

/-- The two VEX forms, once ModRM, SIB and displacement are read. -/
theorem decodeVex_of_operands {b1 b2 : Byte} {bs rest : List Byte} {reg : BitVec 3} {rm : Rm 3} (hb : VexByteOk m b1)
    (hq : q.badBeforeVex = false) (hmap : b1.extractLsb' 0 5 = 2#5) (hpp : b2.extractLsb' 0 2 = 1#2)
    (hext : ¬(m = .m32 ∧ ¬(b1.getLsbD 5 = true ∧ b2.getLsbD 6 = true)))
    (hread : readModRm m q.kept (!b1.getLsbD 6) (!b1.getLsbD 5) bs = .ok ((reg, rm), rest)) :
    decodeVex m q none (b1 :: b2 :: 0x0B#8 :: bs) =
      if b2.getLsbD 2 then .ok (.vpmulhrswYmm q.kept (extend5 false (!b1.getLsbD 7) reg)
        ((~~~(b2.extractLsb' 3 4)).setWidth 5) (extendRm false (!b1.getLsbD 5) rm), rest)
      else .ok (.vpmulhrswXmm q.kept (extend5 false (!b1.getLsbD 7) reg)
        ((~~~(b2.extractLsb' 3 4)).setWidth 5) (extendRm false (!b1.getLsbD 5) rm), rest) := by
  simp only [decodeVex, vexIntro_of_ok _ hb hq, nextByte_cons, ok_bind, hmap, hpp, and_self, not_true, if_false,
    if_neg hext, hread]

theorem decodeEvex_of_other_opcode {p0 p1 p2 op : Byte} (bs : List Byte) (hb : VexByteOk m p0) (hq : q.badBeforeVex = false)
    (h : op ≠ 0x0B#8) : decodeEvex m q none (p0 :: p1 :: p2 :: op :: bs) = .error (.refuse .otherEvex) := by
  simp only [decodeEvex, vexIntro_of_ok _ hb hq, nextByte_cons, ok_bind, if_pos h]

/-- With opcode 0BH a check of R101 and R102 that stops decides. -/
theorem decodeEvex_of_check {p0 p1 p2 : Byte} {e : DecodeStop} (bs : List Byte) (hb : VexByteOk m p0)
    (hq : q.badBeforeVex = false) (h : evexChecks m p0 p1 p2 = .error e) :
    decodeEvex m q none (p0 :: p1 :: p2 :: 0x0B#8 :: bs) = .error e := by
  simp only [decodeEvex, vexIntro_of_ok _ hb hq, nextByte_cons, ok_bind, ne_eq, not_true, if_false, h, error_bind]

/-- The instruction that `L'L` selects. -/
def evexInstr (ll : BitVec 2) (p : Prefixes) (mask : Masking) (dst src1 : BitVec 5) (src2 : Rm 5) : Instr :=
  if ll = 0#2 then .vpmulhrswXmmMasked p mask dst src1 src2
  else if ll = 1#2 then .vpmulhrswYmmMasked p mask dst src1 src2
  else .vpmulhrswZmmMasked p mask dst src1 src2

/-- The three EVEX forms, once ModRM, SIB and displacement are read. -/
theorem decodeEvex_of_operands {p0 p1 p2 : Byte} {bs rest : List Byte} {reg : BitVec 3} {rm : Rm 3} (hb : VexByteOk m p0)
    (hq : q.badBeforeVex = false) (h : evexChecks m p0 p1 p2 = .ok ())
    (hread : readModRm m q.kept (!p0.getLsbD 6) (!p0.getLsbD 5) bs = .ok ((reg, rm), rest)) :
    decodeEvex m q none (p0 :: p1 :: p2 :: 0x0B#8 :: bs) =
      if !p0.getLsbD 6 && rm.isMemNoSib then .error (.refuse .evexIndexBitUnused)
      else .ok (evexInstr (p2.extractLsb' 5 2) q.kept (maskingOf (p2.extractLsb' 0 3) (p2.getLsbD 7))
        (extend5 (!p0.getLsbD 4) (!p0.getLsbD 7) reg) (BitVec.ofBool (!p2.getLsbD 3) ++ ~~~(p1.extractLsb' 3 4))
        (extendRm (!p0.getLsbD 6) (!p0.getLsbD 5) rm), rest) := by
  simp only [decodeEvex, vexIntro_of_ok _ hb hq, nextByte_cons, ok_bind, ne_eq, not_true, if_false, h, hread, evexInstr]
  split
  · rfl
  · split
    · rfl
    · split <;> rfl

end

end Sys2Proof
end

section
/-! Decoding what the encoder writes (`30_encoding.md` sections 2 to 7). -/

namespace Sys2Proof

open Machine

/-! ### From the bytes to the three encodings -/

section
variable {m : Mode} {q : PrefixesSeen} {l : List Byte}

theorem decode_legacyBody {n : Nat} {rex : Bool} (r : Bool) (reg : BitVec 3) (src : Rm n) (bs : List Byte)
    (hl : l.Perm q.bytes) (hrex : rex = true → m = .m64) :
    decode m (l ++ (legacyBody rex r reg src ++ bs)) =
      decodeLegacy m q (rexOpt rex r src.bitX src.bitB) (0x38#8 :: 0x0B#8 :: (src.bytes reg ++ bs)) := by
  cases rex with
  | false => exact decode_no_rex _ hl (by decide) fun _ => by decide
  | true =>
    obtain rfl := hrex rfl
    exact decode_rex _ hl (rexByte_fields ..).1

theorem decode_vexBody (lbit : Bool) (dst src1 : BitVec 5) (src2 : Rm 5) (bs : List Byte) (hl : l.Perm q.bytes) :
    decode m (l ++ (vexBody lbit dst src1 src2 ++ bs)) =
      decodeVex m q none (vexByte1 (dst.getLsbD 3) src2.bitX src2.bitB :: vexByte2 (src1.setWidth 4) lbit :: 0x0B#8 ::
        (src2.bytes (dst.setWidth 3) ++ bs)) :=
  decode_no_rex _ hl (by decide) fun _ => by decide

theorem decode_evexBody (ll : BitVec 2) (mask : Masking) (dst src1 : BitVec 5) (src2 : Rm 5) (bs : List Byte)
    (hl : l.Perm q.bytes) :
    decode m (l ++ (evexBody ll mask dst src1 src2 ++ bs)) =
      decodeEvex m q none (evexByte0 (dst.getLsbD 3) src2.bitX src2.bitB (dst.getLsbD 4) :: evexByte1 (src1.setWidth 4) ::
        evexByte2 mask.z ll (src1.getLsbD 4) mask.aaa :: 0x0B#8 :: (src2.bytes (dst.setWidth 3) ++ bs)) :=
  decode_no_rex _ hl (by decide) fun _ => by decide

theorem vexByteOk_vexByte1 {r x : Bool} (b : Bool) (h : m = .m32 → r = false ∧ x = false) :
    VexByteOk m (vexByte1 r x b) := by
  intro hm
  obtain ⟨rfl, rfl⟩ := h hm
  revert b
  decide

theorem vexByteOk_evexByte0 {r x : Bool} (b r' : Bool) (h : m = .m32 → r = false ∧ x = false) :
    VexByteOk m (evexByte0 r x b r') := by
  intro hm
  obtain ⟨rfl, rfl⟩ := h hm
  revert b r'
  decide

end

/-! ### The round trip of each encoding -/

/-- A vector register below 16 is its four low bits. -/
theorem vec16_fields {m : Mode} {r : BitVec 5} (h : vecWf16 m r = true) :
    extend5 false (r.getLsbD 3) (r.setWidth 3) = r ∧ (r.setWidth 4).setWidth 5 = r := by
  have hfields : ∀ r : BitVec 5, r[4] = false →
      extend5 false (r.getLsbD 3) (r.setWidth 3) = r ∧ (r.setWidth 4).setWidth 5 = r := by decide
  exact hfields r (getElem_four_of_vecWf16 h)

theorem vec32_fields (r : BitVec 5) :
    extend5 (r.getLsbD 4) (r.getLsbD 3) (r.setWidth 3) = r ∧ BitVec.ofBool (r.getLsbD 4) ++ r.setWidth 4 = r ∧
      (r.setWidth 4).getLsbD 3 = r.getLsbD 3 := by
  revert r
  decide

theorem maskingOf_fields {mask : Masking} (h : mask.wf = true) : maskingOf mask.aaa mask.z = mask := by
  cases mask with
  | noMask => rfl
  | merging k | zeroing k =>
    simp only [Masking.wf, bne_iff_ne] at h
    simp [maskingOf, Masking.aaa, Masking.z, h]

/-- REX is there where a bit of it is needed, and in `M64` only (R85). -/
theorem rexWf_iff {m : Mode} {rex needed : Bool} :
    rexWf m rex needed = true ↔ (rex = true ∨ needed = false) ∧ (rex = true → m = .m64) := by
  cases rex <;> cases needed <;> simp [rexWf]

/-- An MMX operand is given back whatever `B` says of a register. -/
theorem mm_withExt {m : Mode} {p : Prefixes} {src : Rm 3} (h : src.wf m p (fun _ => true) = true) :
    src.withExt src.bitX src.bitB = src ∧ (src.bitB && src.isReg) = false := by
  cases src with
  | reg r => simp [Rm.withExt, Rm.bitB]
  | mem a => simp [Rm.withExt, Rm.bitX, Rm.bitB, Rm.isReg, withExt_own_bits h]

theorem decode_encode_form1 {m : Mode} {p : Prefixes} {rex : Bool} (dst : BitVec 3) {src : Rm 3} (bs : List Byte)
    (hrex : rexWf m rex (src.bitX || src.bitB) = true) (hsrc : src.wf m p (fun _ => true) = true) :
    decode m (encode (.pmulhrswMm p rex dst src) ++ bs) = .ok (.pmulhrswMm p rex dst src, bs) := by
  obtain ⟨hneeded, hmode⟩ := rexWf_iff.1 hrex
  obtain ⟨hw, hr, hx, hb⟩ := rexOpt_fields (r := false) (x := src.bitX) (b := src.bitB) (by simpa using hneeded)
  obtain ⟨hback, hisReg⟩ := mm_withExt hsrc
  have hread := readModRm_bytes src.bitX src.bitB dst bs hsrc
  rw [hback] at hread
  rw [encode_eq, List.append_assoc]
  refine (decode_legacyBody (q := p.seen false) false dst src bs (List.Perm.refl _) hmode).trans ?_
  rw [decodeLegacy_of_operands rfl rfl hw (by rw [hx, hb]; exact hread), hr, hb, hisReg]
  cases rex <;> rfl

theorem decode_encode_form2 {m : Mode} {p : Prefixes} {rex : Bool} {dst : BitVec 5} {src : Rm 5} (bs : List Byte)
    (hrex : rexWf m rex (dst.getLsbD 3 || src.bitX || src.bitB) = true) (hdst : vecWf16 m dst = true)
    (hsrc : src.wf m p (vecWf16 m) = true) :
    decode m (encode (.pmulhrswXmm p rex dst src) ++ bs) = .ok (.pmulhrswXmm p rex dst src, bs) := by
  obtain ⟨hneeded, hmode⟩ := rexWf_iff.1 hrex
  obtain ⟨hw, hr, hx, hb⟩ := rexOpt_fields (r := dst.getLsbD 3) (x := src.bitX) (b := src.bitB)
    (by simpa [and_assoc] using hneeded)
  have hread := readModRm_bytes src.bitX src.bitB (dst.setWidth 3) bs hsrc
  rw [encode_eq, List.append_assoc]
  refine (decode_legacyBody (q := p.seen true) _ _ src bs (List.Perm.refl _) hmode).trans ?_
  rw [decodeLegacy_of_operands rfl rfl hw (by rw [hx, hb]; exact hread), hr, hb, extendRm_false_withExt hsrc,
    (vec16_fields hdst).1]
  cases rex <;> rfl

/-- What `M32` asks of the bits of a VEX or EVEX encoding holds of a well-formed instruction (R97, R102). -/
theorem vector_bits_m32 {m : Mode} {p : Prefixes} {dst src1 : BitVec 5} {src2 : Rm 5} (hdst : vecWf32 m dst = true)
    (hsrc1 : vecWf32 m src1 = true) (hsrc2 : src2.wf m p (vecWf32 m) = true) (hm : m = .m32) :
    (dst.getLsbD 3 = false ∧ dst.getLsbD 4 = false) ∧ (src1.getLsbD 3 = false ∧ src1.getLsbD 4 = false) ∧
      src2.bitX = false ∧ src2.bitB = false := by
  subst hm
  exact ⟨vecWf_m32 hdst, vecWf_m32 hsrc1, rm_bits_m32 hsrc2⟩

theorem decodeVex_encoded {m : Mode} {p : Prefixes} {dst src1 : BitVec 5} {src2 : Rm 5} (lbit : Bool) (bs : List Byte)
    (hwf : vexWf m p dst src1 src2 = true) :
    decode m (encodeVex p lbit dst src1 src2 ++ bs) =
      .ok (if lbit then .vpmulhrswYmm p dst src1 src2 else .vpmulhrswXmm p dst src1 src2, bs) := by
  simp only [vexWf, Bool.and_eq_true] at hwf
  obtain ⟨⟨hdst, hsrc1⟩, hsrc2⟩ := hwf
  have hm32 := vector_bits_m32 (vecWf32_of_vecWf16 hdst) (vecWf32_of_vecWf16 hsrc1)
    (rm_wf_mono (fun _ => vecWf32_of_vecWf16) hsrc2)
  obtain ⟨hmap, hr, hx, hb⟩ := vexByte1_fields (dst.getLsbD 3) src2.bitX src2.bitB
  obtain ⟨hpp, hl, hv, hv3⟩ := vexByte2_fields (src1.setWidth 4) lbit
  have hext : ¬(m = .m32 ∧ ¬((vexByte1 (dst.getLsbD 3) src2.bitX src2.bitB).getLsbD 5 = true ∧
      (vexByte2 (src1.setWidth 4) lbit).getLsbD 6 = true)) := by
    rintro ⟨hm, hno⟩
    obtain ⟨-, ⟨hsrc1, -⟩, -, hB⟩ := hm32 hm
    rw [hb, hv3, hB, (vec32_fields src1).2.2, hsrc1] at hno
    exact hno ⟨rfl, rfl⟩
  have hread := readModRm_bytes src2.bitX src2.bitB (dst.setWidth 3) bs hsrc2
  rw [encodeVex_eq, List.append_assoc, decode_vexBody _ _ _ _ _ (List.Perm.refl _),
    decodeVex_of_operands (vexByteOk_vexByte1 _ fun hm => ⟨(hm32 hm).1.1, (hm32 hm).2.2.1⟩) rfl hmap hpp hext
      (by rw [hx, hb, Bool.not_not, Bool.not_not]; exact hread),
    hl, hr, hb, hv, Bool.not_not, Bool.not_not, extendRm_false_withExt hsrc2, (vec16_fields hdst).1, (vec16_fields hsrc1).2]
  cases lbit <;> rfl

/-- A memory operand that needs `X` has a SIB byte. -/
theorem bitX_and_isMemNoSib (src : Rm 5) (b : Bool) : (src.bitX && (src.withExt src.bitX b).isMemNoSib) = false := by
  rcases src with r | ⟨_, _⟩ | _ | ⟨_, _, _⟩ | ⟨_, _⟩ | ⟨_, _⟩ | _ <;>
    simp [Rm.withExt, Rm.isMemNoSib, Rm.bitX, MemAddr.bitX, MemAddr.withExt]

/-- The checks of R101 and R102 pass for the payload of an encoding. -/
theorem evexChecks_encoded {m : Mode} {p : Prefixes} {mask : Masking} {dst src1 : BitVec 5} {src2 : Rm 5} {ll : BitVec 2}
    (hll : ll ≠ 3#2) (hwf : evexWf m p mask dst src1 src2 = true) :
    evexChecks m (evexByte0 (dst.getLsbD 3) src2.bitX src2.bitB (dst.getLsbD 4)) (evexByte1 (src1.setWidth 4))
      (evexByte2 mask.z ll (src1.getLsbD 4) mask.aaa) = .ok () := by
  simp only [evexWf, Bool.and_eq_true] at hwf
  obtain ⟨⟨⟨hmask, hdst⟩, hsrc1⟩, hsrc2⟩ := hwf
  have hm32 := vector_bits_m32 hdst hsrc1 hsrc2
  obtain ⟨h02, h00, -, -, hb, hr'⟩ := evexByte0_fields (dst.getLsbD 3) src2.bitX src2.bitB (dst.getLsbD 4)
  obtain ⟨h12, hpp, -, hv3⟩ := evexByte1_fields (src1.setWidth 4)
  obtain ⟨hll', hb4, haaa, hz, hv'⟩ := evexByte2_fields mask.z ll (src1.getLsbD 4) mask.aaa
  have hzmask : ¬(mask.aaa = 0#3 ∧ mask.z = true) := by
    cases mask <;> simp_all [Masking.aaa, Masking.z, Masking.wf]
  have hV : ¬(m = .m32 ∧ (!src1.getLsbD 4) = false) := by
    rintro ⟨hm, h⟩
    rw [(hm32 hm).2.1.2] at h
    cases h
  have hext : ¬(m = .m32 ∧ ¬((!src2.bitB) = true ∧ (!dst.getLsbD 4) = true ∧ (!src1.getLsbD 3) = true)) := by
    rintro ⟨hm, h⟩
    obtain ⟨⟨-, hd⟩, ⟨hs, -⟩, -, hB⟩ := hm32 hm
    rw [hd, hs, hB] at h
    exact h ⟨rfl, rfl, rfl⟩
  rw [← (vec32_fields src1).2.2, ← hv3, ← hb, ← hr'] at hext
  rw [← hv'] at hV
  rw [← hz] at hzmask
  simp only [evexChecks, h02, h00, h12, hpp, hll', hb4, haaa, hzmask, hV, hext, hll, ne_eq, not_true, or_self,
    if_false, Bool.false_eq_true, Bool.true_eq_false]
  decide

theorem decodeEvex_encoded {m : Mode} {p : Prefixes} {mask : Masking} {dst src1 : BitVec 5} {src2 : Rm 5} {ll : BitVec 2}
    (bs : List Byte) (hll : ll ≠ 3#2) (hwf : evexWf m p mask dst src1 src2 = true) :
    decode m (encodeEvex p ll mask dst src1 src2 ++ bs) = .ok (evexInstr ll p mask dst src1 src2, bs) := by
  have hchecks := evexChecks_encoded hll hwf
  simp only [evexWf, Bool.and_eq_true] at hwf
  obtain ⟨⟨⟨hmask, hdst⟩, hsrc1⟩, hsrc2⟩ := hwf
  have hm32 := vector_bits_m32 hdst hsrc1 hsrc2
  obtain ⟨-, -, hr, hx, hb, hr'⟩ := evexByte0_fields (dst.getLsbD 3) src2.bitX src2.bitB (dst.getLsbD 4)
  obtain ⟨-, -, hv, -⟩ := evexByte1_fields (src1.setWidth 4)
  obtain ⟨hll', -, haaa, hz, hv'⟩ := evexByte2_fields mask.z ll (src1.getLsbD 4) mask.aaa
  have hread := readModRm_bytes src2.bitX src2.bitB (dst.setWidth 3) bs hsrc2
  rw [encodeEvex_eq, List.append_assoc, decode_evexBody _ _ _ _ _ _ (List.Perm.refl _),
    decodeEvex_of_operands (vexByteOk_evexByte0 _ _ fun hm => ⟨(hm32 hm).1.1, (hm32 hm).2.2.1⟩) rfl hchecks
      (by rw [hx, hb, Bool.not_not, Bool.not_not]; exact hread),
    hx, hb, hr, hr', hll', haaa, hz, hv, hv', Bool.not_not, Bool.not_not, Bool.not_not, Bool.not_not, Bool.not_not,
    bitX_and_isMemNoSib, extendRm_withExt hsrc2, maskingOf_fields hmask, (vec32_fields dst).1, (vec32_fields src1).2.1]
  rfl

/-- Settles O41, from the round trip of each of the three encodings. -/
theorem decodeOfEncode : Obligations.DecodeOfEncode := by
  intro m i bs hwf
  cases i <;> simp only [Instr.wf, Bool.and_eq_true] at hwf
  case pmulhrswMm => exact decode_encode_form1 _ bs hwf.1.2 hwf.2
  case pmulhrswXmm => exact decode_encode_form2 bs hwf.1.1.2 hwf.1.2 hwf.2
  case vpmulhrswXmm => exact decodeVex_encoded false bs hwf.2
  case vpmulhrswYmm => exact decodeVex_encoded true bs hwf.2
  case vpmulhrswXmmMasked => exact decodeEvex_encoded bs (by decide) hwf.2
  case vpmulhrswYmmMasked => exact decodeEvex_encoded bs (by decide) hwf.2
  case vpmulhrswZmmMasked => exact decodeEvex_encoded bs (by decide) hwf.2

end Sys2Proof
end

section
/-! The encodings that decode to #UD or to a refusal (`30_encoding.md` sections 3, 5, 6 and 8). -/

namespace Sys2Proof

open Machine

/-! ### A byte put among the legacy prefixes of an encoding -/

/-- Legacy prefixes in front of an encoding are the first of its own. -/
theorem encode_split {i : Instr} {before later : List Byte} (h : encode i = before ++ later)
    (hbefore : ∀ x ∈ before, isLegacyPrefix x = true) : ∃ mid, i.seen.bytes = before ++ mid ∧ later = mid ++ i.body := by
  obtain ⟨b, bs, hbody, hb⟩ := body_cons i
  rw [encode_eq] at h
  rcases List.append_eq_append_iff.1 h with ⟨mid, rfl, hmid⟩ | ⟨mid, hmid, hlater⟩
  · rcases mid with _ | ⟨c, mid⟩
    · exact ⟨[], by simp, hmid.symm⟩
    · rw [hbody, List.cons_append, List.cons.injEq] at hmid
      have hc := hbefore c (by simp)
      rw [← hmid.1, hb] at hc
      cases hc
  · exact ⟨mid, hmid, hlater⟩

/-- An encoding with a byte among its legacy prefixes is the prefixes so extended, in some order, and its body. -/
theorem insert_split {i : Instr} {before later : List Byte} (rest : List Byte) {x : Byte} {q : PrefixesSeen}
    (h : encode i = before ++ later) (hbefore : ∀ x ∈ before, isLegacyPrefix x = true)
    (hq : (i.seen.bytes ++ [x]).Perm q.bytes) :
    ∃ l : List Byte, l.Perm q.bytes ∧ before ++ x :: (later ++ rest) = l ++ (i.body ++ rest) := by
  obtain ⟨mid, hseen, rfl⟩ := encode_split h hbefore
  refine ⟨before ++ x :: mid, ?_, by simp⟩
  refine List.Perm.trans ?_ hq
  rw [hseen, List.append_assoc]
  exact (List.perm_append_singleton x mid).symm.append_left before

/-- The prefixes of an encoding with one more flag. -/
theorem seen_append_lock (i : Instr) : (i.seen.bytes ++ [0xF0#8]).Perm ({ i.seen with lock := true } : PrefixesSeen).bytes := by
  cases i <;> simp [Instr.seen, Prefixes.seen, PrefixesSeen.bytes, PrefixesSeen.kept]

theorem seen_append_repne (i : Instr) : (i.seen.bytes ++ [0xF2#8]).Perm ({ i.seen with repne := true } : PrefixesSeen).bytes := by
  cases i <;> simp [Instr.seen, Prefixes.seen, PrefixesSeen.bytes, PrefixesSeen.kept]

theorem seen_append_rep (i : Instr) : (i.seen.bytes ++ [0xF3#8]).Perm ({ i.seen with rep := true } : PrefixesSeen).bytes := by
  cases i <;> simp [Instr.seen, Prefixes.seen, PrefixesSeen.bytes, PrefixesSeen.kept]

theorem seen_append_opSize {i : Instr} (h : i.form ≠ .f2) :
    (i.seen.bytes ++ [0x66#8]).Perm ({ i.seen with opSize := true } : PrefixesSeen).bytes := by
  cases i with
  | pmulhrswXmm => exact absurd rfl h
  | _ => simp [Instr.seen, Prefixes.seen, PrefixesSeen.bytes, PrefixesSeen.kept]

/-! ### What the prefixes seen do to a body -/

/-- A form 1 or 2 is handed to the legacy decoder, whatever prefixes were seen. -/
theorem decode_body_legacy {m : Mode} {i : Instr} {q : PrefixesSeen} {l : List Byte} (rest : List Byte)
    (hwf : i.wf m = true) (hf : i.form = .f1 ∨ i.form = .f2) (hl : l.Perm q.bytes) :
    ∃ rex bs, decode m (l ++ (i.body ++ rest)) = decodeLegacy m q rex (0x38#8 :: 0x0B#8 :: bs) := by
  cases i with
  | pmulhrswMm p rex dst src =>
    simp only [Instr.wf, Bool.and_eq_true] at hwf
    exact ⟨_, _, decode_legacyBody _ _ _ rest hl (rexWf_iff.1 hwf.1.2).2⟩
  | pmulhrswXmm p rex dst src =>
    simp only [Instr.wf, Bool.and_eq_true] at hwf
    exact ⟨_, _, decode_legacyBody _ _ _ rest hl (rexWf_iff.1 hwf.1.1.2).2⟩
  | _ => rcases hf with hf | hf <;> cases hf

theorem decode_vexBody_of_bad {m : Mode} {p : Prefixes} {dst src1 : BitVec 5} {src2 : Rm 5} {q : PrefixesSeen}
    {l : List Byte} (lbit : Bool) (rest : List Byte) (hwf : vexWf m p dst src1 src2 = true) (hl : l.Perm q.bytes)
    (hbad : q.badBeforeVex = true) : decode m (l ++ (vexBody lbit dst src1 src2 ++ rest)) = .error .ud := by
  simp only [vexWf, Bool.and_eq_true] at hwf
  obtain ⟨⟨hdst, hsrc1⟩, hsrc2⟩ := hwf
  have hm32 := vector_bits_m32 (vecWf32_of_vecWf16 hdst) (vecWf32_of_vecWf16 hsrc1)
    (rm_wf_mono (fun _ => vecWf32_of_vecWf16) hsrc2)
  rw [decode_vexBody _ _ _ _ _ hl]
  exact decodeVex_of_bad (vexByteInM32_of_ok _ (vexByteOk_vexByte1 _ fun hm => ⟨(hm32 hm).1.1, (hm32 hm).2.2.1⟩))
    (by simp [hbad])

theorem decode_evexBody_of_bad {m : Mode} {p : Prefixes} {mask : Masking} {dst src1 : BitVec 5} {src2 : Rm 5}
    {q : PrefixesSeen} {l : List Byte} (ll : BitVec 2) (rest : List Byte) (hwf : evexWf m p mask dst src1 src2 = true)
    (hl : l.Perm q.bytes) (hbad : q.badBeforeVex = true) :
    decode m (l ++ (evexBody ll mask dst src1 src2 ++ rest)) = .error .ud := by
  simp only [evexWf, Bool.and_eq_true] at hwf
  obtain ⟨⟨⟨-, hdst⟩, hsrc1⟩, hsrc2⟩ := hwf
  have hm32 := vector_bits_m32 hdst hsrc1 hsrc2
  rw [decode_evexBody _ _ _ _ _ _ hl]
  exact decodeEvex_of_bad (vexByteInM32_of_ok _ (vexByteOk_evexByte0 _ _ fun hm => ⟨(hm32 hm).1.1, (hm32 hm).2.2.1⟩))
    (by simp [hbad])

/-- 66H, F2H, F3H or LOCK before a VEX or EVEX form is #UD (R98). -/
theorem decode_body_of_bad {m : Mode} {i : Instr} {q : PrefixesSeen} {l : List Byte} (rest : List Byte)
    (hwf : i.wf m = true) (hf1 : i.form ≠ .f1) (hf2 : i.form ≠ .f2) (hl : l.Perm q.bytes) (hbad : q.badBeforeVex = true) :
    decode m (l ++ (i.body ++ rest)) = .error .ud := by
  cases i with
  | pmulhrswMm => exact absurd rfl hf1
  | pmulhrswXmm => exact absurd rfl hf2
  | vpmulhrswXmm | vpmulhrswYmm =>
    simp only [Instr.wf, Bool.and_eq_true] at hwf
    exact decode_vexBody_of_bad _ rest hwf.2 hl hbad
  | vpmulhrswXmmMasked | vpmulhrswYmmMasked | vpmulhrswZmmMasked =>
    simp only [Instr.wf, Bool.and_eq_true] at hwf
    exact decode_evexBody_of_bad _ rest hwf.2 hl hbad

/-- Settles O45: LOCK is tested before everything else of forms 1 and 2, and is bad before VEX and EVEX. -/
theorem lockRaisesUd : Obligations.LockRaisesUd := by
  intro m i before later rest hwf hencode hbefore
  obtain ⟨l, hl, heq⟩ := insert_split rest hencode hbefore (seen_append_lock i)
  rw [heq]
  by_cases hf : i.form = .f1 ∨ i.form = .f2
  · obtain ⟨rex, bs, hdecode⟩ := decode_body_legacy rest hwf hf hl
    rw [hdecode, decodeLegacy_of_lock bs rfl]
  · rw [not_or] at hf
    exact decode_body_of_bad rest hwf hf.1 hf.2 hl (by simp [PrefixesSeen.badBeforeVex])

/-- Settles O46: each of the three bytes is bad before VEX and EVEX, and so is REX. -/
theorem prefixBeforeVexRaisesUd : Obligations.PrefixBeforeVexRaisesUd := by
  refine ⟨fun m i before later rest b hwf hf1 hf2 hencode hbefore hb => ?_, fun p rex b bs hrex hb => ?_⟩
  · have hbad : ∃ q : PrefixesSeen, (i.seen.bytes ++ [b]).Perm q.bytes ∧ q.badBeforeVex = true := by
      simp only [List.mem_cons, List.not_mem_nil, or_false] at hb
      rcases hb with rfl | rfl | rfl
      · exact ⟨_, seen_append_opSize hf2, rfl⟩
      · exact ⟨_, seen_append_repne i, by simp [PrefixesSeen.badBeforeVex]⟩
      · exact ⟨_, seen_append_rep i, by simp [PrefixesSeen.badBeforeVex]⟩
    obtain ⟨q, hq, hbad⟩ := hbad
    obtain ⟨l, hl, heq⟩ := insert_split rest hencode hbefore hq
    rw [heq]
    exact decode_body_of_bad rest hwf hf1 hf2 hl hbad
  · have hl : p.bytes.Perm (p.seen false).bytes := by simp [seen_bytes]
    rw [decode_rex _ hl hrex]
    rcases hb with rfl | rfl
    · exact decodeVex_of_bad (q := p.seen false) (rex := some rex) (bs := bs) (vexByteInM32_m64 ..) rfl
    · exact decodeEvex_of_bad (q := p.seen false) (rex := some rex) (bs := bs) (vexByteInM32_m64 ..) rfl

/-! ### Bytes without prefixes -/

/-- Bytes that begin with none of the legacy prefixes and without REX. -/
theorem decode_bare {m : Mode} {o : Byte} (bs : List Byte) (ho : isLegacyPrefix o = false)
    (hrex : m = .m64 → o.extractLsb' 4 4 ≠ 4#4) : decode m (o :: bs) = decodeOpcode m {} none (o :: bs) :=
  decode_no_rex (l := []) bs (List.Perm.refl _) ho hrex

theorem decode_C4 (m : Mode) (bs : List Byte) : decode m (0xC4#8 :: bs) = decodeVex m {} none bs :=
  decode_bare bs (by decide) fun _ => by decide

theorem decode_62 (m : Mode) (bs : List Byte) : decode m (0x62#8 :: bs) = decodeEvex m {} none bs :=
  decode_bare bs (by decide) fun _ => by decide

theorem decodeOpcode_other {m : Mode} {q : PrefixesSeen} {rex : Option Byte} {o : Byte} (bs : List Byte)
    (h : o ∉ [0x0F#8, 0x62#8, 0xC4#8, 0xC5#8]) : decodeOpcode m q rex (o :: bs) = .error (.refuse .otherInstruction) := by
  simp only [List.mem_cons, List.not_mem_nil, or_false, not_or] at h
  simp [decodeOpcode, h]

/-- Settles O48: bit 7 of the byte is in none of the fields that are read. -/
theorem vexAndEvexWAreIgnored : Obligations.VexAndEvexWAreIgnored := by
  have hfields : ∀ b : Byte, (b ^^^ 0x80#8).extractLsb' 0 2 = b.extractLsb' 0 2 ∧
      (b ^^^ 0x80#8).getLsbD 2 = b.getLsbD 2 ∧ (b ^^^ 0x80#8).getLsbD 6 = b.getLsbD 6 ∧
      (b ^^^ 0x80#8).extractLsb' 3 4 = b.extractLsb' 3 4 := by decide
  intro m b0 b1 b2 bs
  obtain ⟨hpp, h2, h6, hv⟩ := hfields b1
  rw [decode_C4, decode_C4, decode_62, decode_62]
  constructor
  · rw [decodeVex, decodeVex, vexIntro_cons m _ _ _ b0 (b1 :: bs), vexIntro_cons m _ _ _ b0 ((b1 ^^^ 0x80#8) :: bs)]
    simp only [nextByte_cons, ok_bind, hpp, h2, h6, hv]
  · rw [decodeEvex, decodeEvex, vexIntro_cons m _ _ _ b0 (b1 :: b2 :: bs),
      vexIntro_cons m _ _ _ b0 ((b1 ^^^ 0x80#8) :: b2 :: bs)]
    simp only [nextByte_cons, ok_bind, evexChecks, hpp, h2, h6, hv]

theorem vexByteOk_of_mode {m : Mode} {b : Byte} (h : m = .m64 ∨ (m = .m32 ∧ b.extractLsb' 6 2 = 3#2)) : VexByteOk m b := by
  rintro rfl
  exact (h.resolve_left nofun).2

/-- Settles O49: the checks of R101 and R102, each after those that the statement allows before it. -/
theorem reservedEvexRaisesUd : Obligations.ReservedEvexRaisesUd := by
  intro m p0 p1 p2 bs hm hreserved
  rw [decode_62]
  refine decodeEvex_of_check bs (vexByteOk_of_mode hm) rfl ?_
  unfold evexChecks
  split
  · rfl
  · rename_i hfirst
    rcases hreserved with h | h | h | ⟨hmap, hpp, h⟩
    · exact absurd (.inl h) hfirst
    · exact absurd (.inr (.inl h)) hfirst
    · exact absurd (.inr (.inr h)) hfirst
    · rw [if_neg (by simp [hmap, hpp])]
      split
      · rfl
      · split
        · rfl
        · split
          · rfl
          · split
            · rfl
            · tauto

/-- Settles O44: the decoder run on the five words. -/
theorem specWordsDecode : Obligations.SpecWordsDecode :=
  ⟨rfl, rfl, rfl, rfl, rfl⟩

end Sys2Proof
end

section
/-! The refused encodings near the seven forms (`30_encoding.md` section 8), one refusal at a time. -/

namespace Sys2Proof

open Machine

/-- F2H or F3H before form 1 or 2. -/
theorem repeat_before_legacy_refused {m : Mode} {i : Instr} {before later : List Byte} (rest : List Byte) {b : Byte}
    (hwf : i.wf m = true) (hf : i.form = .f1 ∨ i.form = .f2) (hencode : encode i = before ++ later)
    (hbefore : ∀ x ∈ before, isLegacyPrefix x = true) (hb : b = 0xF2#8 ∨ b = 0xF3#8) :
    decode m (before ++ b :: (later ++ rest)) = .error (.refuse .repeatBeforeLegacy) := by
  have hseen : i.seen.lock = false := by cases i <;> rfl
  have hrepeat : ∃ q : PrefixesSeen, (i.seen.bytes ++ [b]).Perm q.bytes ∧ q.lock = false ∧ (q.repne || q.rep) = true := by
    rcases hb with rfl | rfl
    · exact ⟨_, seen_append_repne i, hseen, Bool.true_or _⟩
    · exact ⟨_, seen_append_rep i, hseen, Bool.or_true _⟩
  obtain ⟨q, hq, hlock, hrepeat⟩ := hrepeat
  obtain ⟨l, hl, heq⟩ := insert_split rest hencode hbefore hq
  obtain ⟨rex, bs, hdecode⟩ := decode_body_legacy rest hwf hf hl
  rw [heq, hdecode, decodeLegacy_of_repeat bs hlock hrepeat]

/-- One of the legacy prefixes repeated, or two segment overrides. -/
theorem repeated_prefix_refused (m : Mode) {b c : Byte} {mid : List Byte} (bs : List Byte) (hb : isLegacyPrefix b = true)
    (hmid : ∀ x ∈ mid, isLegacyPrefix x = true)
    (hkind : b = c ∨ (isSegmentOverride b = true ∧ isSegmentOverride c = true)) :
    decode m (b :: (mid ++ c :: bs)) = .error (.refuse .repeatedPrefix) ∨
      decode m (b :: (mid ++ c :: bs)) = .error (.refuse .twoSegmentOverrides) := by
  have hsame : prefixKind c = prefixKind b := by
    rcases hkind with rfl | ⟨hb, hc⟩
    · rfl
    · rw [prefixKind, prefixKind, if_pos hb, if_pos hc]
  have hc : isLegacyPrefix c = true := by
    rcases hkind with rfl | ⟨-, hc⟩
    · exact hb
    · have hprefix : ∀ x : Byte, isSegmentOverride x = true → isLegacyPrefix x = true := by decide
      exact hprefix c hc
  have hall : ∀ x ∈ b :: mid, isLegacyPrefix x = true := by simpa [hb] using hmid
  have hmem : prefixKind c ∈ (({} : PrefixesSeen).bytes ++ b :: mid).map prefixKind := by
    rw [hsame]
    exact List.mem_map_of_mem (List.mem_append_right _ (List.mem_cons_self ..))
  rcases readPrefixes_of_repeated bs hall hc hmem with h | h
  · exact .inl (by rw [decode_eq, ← List.cons_append, h, error_bind])
  · exact .inr (by rw [decode_eq, ← List.cons_append, h, error_bind])

/-- `REX.W` on forms 1 and 2. -/
theorem rexW_refused (p : Prefixes) (opSize : Bool) {rex : Byte} (bs : List Byte) (hrex : rex.extractLsb' 4 4 = 4#4)
    (hw : rex.getLsbD 3 = true) :
    decode .m64 (p.bytes ++ ((if opSize then [0x66#8] else []) ++ rex :: 0x0F#8 :: 0x38#8 :: 0x0B#8 :: bs)) =
      .error (.refuse .rexW) := by
  have hl : (p.bytes ++ if opSize then [0x66#8] else []).Perm (p.seen opSize).bytes := by rw [seen_bytes]; rfl
  rw [← List.append_assoc, decode_rex _ hl hrex, decodeOpcode_0F]
  exact decodeLegacy_of_rexW (q := p.seen opSize) (rex := some rex) bs rfl rfl hw

/-- `REX.R`, or `REX.B` with a register operand, on form 1. -/
theorem rexOnMmx_refused {p : Prefixes} {rex : Byte} (dst : BitVec 3) {src : Rm 3} (rest : List Byte)
    (hrex : rex.extractLsb' 4 4 = 4#4) (hw : rex.getLsbD 3 = false) (hsrc : src.wf .m64 p (fun _ => true) = true)
    (hbits : rex.getLsbD 2 = true ∨ (rex.getLsbD 0 = true ∧ ∃ r, src = .reg r)) :
    decode .m64 (p.bytes ++ (rex :: 0x0F#8 :: 0x38#8 :: 0x0B#8 :: (src.bytes dst ++ rest))) =
      .error (.refuse .rexOnMmxRegister) := by
  have hl : p.bytes.Perm (p.seen false).bytes := by simp [seen_bytes]
  have hread := readModRm_bytes (rex.getLsbD 1) (rex.getLsbD 0) dst rest hsrc
  have hmmx : (rex.getLsbD 2 || (rex.getLsbD 0 && (src.withExt (rex.getLsbD 1) (rex.getLsbD 0)).isReg)) = true := by
    rcases hbits with hr | ⟨hb, r, rfl⟩
    · rw [hr, Bool.true_or]
    · rw [hb, Bool.true_and]
      exact Bool.or_true _
  rw [decode_rex _ hl hrex, decodeOpcode_0F,
    decodeLegacy_of_operands (q := p.seen false) (rex := some rex) rfl rfl hw hread]
  exact if_pos hmmx

/-- VEX with another map, `pp` or opcode, or in `M32` a register-extension bit that is not canonical. -/
theorem vex_neighbour_refused {m : Mode} {b1 : Byte} (b2 op : Byte) (bs : List Byte) (hb : VexByteOk m b1) :
    (¬(b1.extractLsb' 0 5 = 2#5 ∧ b2.extractLsb' 0 2 = 1#2 ∧ op = 0x0B#8) →
      decode m (0xC4#8 :: b1 :: b2 :: op :: bs) = .error (.refuse .otherVex)) ∧
    (m = .m32 → b1.extractLsb' 0 5 = 2#5 → b2.extractLsb' 0 2 = 1#2 → op = 0x0B#8 →
      (b1.getLsbD 5 = false ∨ b2.getLsbD 6 = false) →
      decode m (0xC4#8 :: b1 :: b2 :: op :: bs) = .error (.refuse .extensionBitInM32)) := by
  rw [decode_C4]
  refine ⟨decodeVex_of_other bs hb rfl, ?_⟩
  rintro hm hmap hpp rfl hext
  refine decodeVex_of_extension bs hb rfl hmap hpp ⟨hm, ?_⟩
  rintro ⟨h5, h6⟩
  simp only [h5, h6, Bool.true_eq_false, or_self] at hext

/-- EVEX of another instruction: another map or `pp` under opcode 0BH. -/
theorem evexChecks_of_other {m : Mode} {p0 p1 : Byte} (p2 : Byte) (h02 : p0.extractLsb' 2 2 = 0#2)
    (h12 : p1.getLsbD 2 = true) (hmap0 : p0.extractLsb' 0 2 ≠ 0#2)
    (h : p0.extractLsb' 0 2 ≠ 2#2 ∨ p1.extractLsb' 0 2 ≠ 1#2) : evexChecks m p0 p1 p2 = .error (.refuse .otherEvex) := by
  simp only [evexChecks, h02, h12, hmap0, h, ne_eq, not_true, or_self, Bool.true_eq_false, if_false, if_true]

/-- A nibble and three bits are the fields that the checks of R101 read. -/
theorem evex_map_fields {p0 p1 : Byte} (h0 : p0.extractLsb' 0 4 = 2#4) (h1 : p1.extractLsb' 0 3 = 5#3) :
    (p0.extractLsb' 2 2 = 0#2 ∧ p0.extractLsb' 0 2 = 2#2) ∧ p1.getLsbD 2 = true ∧ p1.extractLsb' 0 2 = 1#2 := by
  have hp0 : ∀ b : Byte, b.extractLsb' 0 4 = 2#4 → b.extractLsb' 2 2 = 0#2 ∧ b.extractLsb' 0 2 = 2#2 := by decide
  have hp1 : ∀ b : Byte, b.extractLsb' 0 3 = 5#3 → b.getLsbD 2 = true ∧ b.extractLsb' 0 2 = 1#2 := by decide
  exact ⟨hp0 p0 h0, hp1 p1 h1⟩

/-- The checks of a payload of this instruction with no reserved field: what is left is for `M32`. -/
theorem evexChecks_of_map {m : Mode} {p0 p1 p2 : Byte} (h0 : p0.extractLsb' 0 4 = 2#4) (h1 : p1.extractLsb' 0 3 = 5#3)
    (hll : p2.extractLsb' 5 2 ≠ 3#2) (hb : p2.getLsbD 4 = false) (hz : ¬(p2.extractLsb' 0 3 = 0#3 ∧ p2.getLsbD 7 = true)) :
    evexChecks m p0 p1 p2 =
      if m = .m32 ∧ p2.getLsbD 3 = false then .error .ud
      else if m = .m32 ∧ ¬(p0.getLsbD 5 ∧ p0.getLsbD 4 ∧ p1.getLsbD 6) then .error (.refuse .extensionBitInM32)
      else .ok () := by
  obtain ⟨⟨h02, h00⟩, h12, hpp⟩ := evex_map_fields h0 h1
  have hmap0 : ¬(2#2 = 0#2) := by decide
  simp only [evexChecks, h02, h00, h12, hpp, hll, hb, hz, hmap0, ne_eq, not_true, or_self, Bool.true_eq_false,
    Bool.false_eq_true, if_false]

/-- The refusals of EVEX with opcode 0BH and the fields of this instruction. -/
theorem evex_neighbour_refused {m : Mode} {p0 p1 p2 : Byte} (bs : List Byte) (hb0 : VexByteOk m p0)
    (h0 : p0.extractLsb' 0 4 = 2#4) (h1 : p1.extractLsb' 0 3 = 5#3) (hll : p2.extractLsb' 5 2 ≠ 3#2)
    (hb : p2.getLsbD 4 = false) (hz : ¬(p2.extractLsb' 0 3 = 0#3 ∧ p2.getLsbD 7 = true)) :
    (m = .m32 → p2.getLsbD 3 = true → (p0.getLsbD 5 = false ∨ p0.getLsbD 4 = false ∨ p1.getLsbD 6 = false) →
      decode m (0x62#8 :: p0 :: p1 :: p2 :: 0x0B#8 :: bs) = .error (.refuse .extensionBitInM32)) ∧
    (m = .m64 → p0.getLsbD 6 = false → ∀ (reg : BitVec 3) (a : MemAddr), a.wf .m64 ⟨none, false⟩ = true →
      hasSib a = false →
      decode m (0x62#8 :: p0 :: p1 :: p2 :: 0x0B#8 :: (a.bytes reg ++ bs)) = .error (.refuse .evexIndexBitUnused)) := by
  have hchecks := evexChecks_of_map (m := m) h0 h1 hll hb hz
  refine ⟨fun hm hv hext => ?_, fun hm hx reg a hwf hsib => ?_⟩
  · have hno : ¬(p0.getLsbD 5 = true ∧ p0.getLsbD 4 = true ∧ p1.getLsbD 6 = true) := by
      rintro ⟨h5, h4, h6⟩
      simp only [h5, h4, h6, Bool.true_eq_false, or_self] at hext
    rw [if_neg (by simp [hv]), if_pos ⟨hm, hno⟩] at hchecks
    rw [decode_62, decodeEvex_of_check bs hb0 rfl hchecks]
  · subst hm
    have hread := readModRm_mem_bytes (m := .m64) (!p0.getLsbD 6) (!p0.getLsbD 5) reg bs hwf
    have hnoSib : (Rm.mem (a.withExt (!p0.getLsbD 6) (!p0.getLsbD 5)) : Rm 3).isMemNoSib = true := by
      cases a <;> first | rfl | cases hsib
    rw [if_neg (by simp), if_neg (by simp)] at hchecks
    rw [decode_62, decodeEvex_of_operands hb0 rfl hchecks hread, if_pos (by rw [hnoSib, hx]; rfl)]

/-- Bytes after 0FH that are not 38H 0BH. -/
theorem legacy_opcode_refused (m : Mode) (b c : Byte) (bs : List Byte) (h : b ≠ 0x38#8 ∨ (b = 0x38#8 ∧ c ≠ 0x0B#8)) :
    decode m (0x0F#8 :: b :: c :: bs) = .error (.refuse .otherInstruction) := by
  rw [decode_bare _ (by decide) fun _ => by decide, decodeOpcode_0F]
  rcases h with hb | ⟨rfl, hc⟩
  · simp [decodeLegacy, expectByte, hb]
  · simp [decodeLegacy, expectByte, hc]

/-- Settles O47, from the refusals above. -/
theorem neighbouringEncodingsAreRefused : Obligations.NeighbouringEncodingsAreRefused := by
  refine ⟨?_, ?_, ?_, ?_, ?_, ?_, ?_, ?_, ?_, ?_, ?_⟩
  · intro m i before later rest b hwf hf hencode hbefore hb
    exact repeat_before_legacy_refused rest hwf hf hencode hbefore hb
  · intro m b c mid bs hb hmid hkind
    exact repeated_prefix_refused m bs hb hmid hkind
  · intro p opSize rex bs hrex hw
    exact rexW_refused p opSize bs hrex hw
  · intro p rex dst src rest hrex hw hsrc hbits
    exact rexOnMmx_refused dst rest hrex hw hsrc hbits
  · intro m bs
    exact decode_bare bs (by decide) fun _ => by decide
  · intro b1 bs hb1
    rw [decode_C4, decode_62]
    exact ⟨decodeVex_of_les bs hb1, decodeEvex_of_bound bs hb1⟩
  · intro m b1 b2 op bs hm
    exact vex_neighbour_refused b2 op bs (vexByteOk_of_mode hm)
  · intro m p0 p1 p2 op bs hm
    refine ⟨fun hop => ?_, ?_, ?_⟩
    · rw [decode_62, decodeEvex_of_other_opcode bs (vexByteOk_of_mode hm) rfl hop]
    · rintro rfl h02 h12 hmap0 h
      rw [decode_62, decodeEvex_of_check bs (vexByteOk_of_mode hm) rfl (evexChecks_of_other p2 h02 h12 hmap0 h)]
    · rintro rfl h0 h1 hll hb hz
      exact evex_neighbour_refused bs (vexByteOk_of_mode hm) h0 h1 hll hb hz
  · intro m b bs hb hrex hother
    rw [decode_bare bs hb hrex, decodeOpcode_other bs hother]
  · intro m b c bs h
    exact legacy_opcode_refused m b c bs h
  · intro rex b bs hrex hother
    exact (decode_rex (q := {}) (l := []) (b :: bs) (List.Perm.refl _) hrex).trans (decodeOpcode_other bs hother)

end Sys2Proof
end

section
/-! SUPPORT. What each reader of the decoder has consumed when it answers: the bytes the encoder writes for what was read, up to the
scale of an absent index; and how many bytes there were when it asks for more. -/

namespace Sys2Proof

open Machine

/-! ### Sequences of reads -/

theorem bind_eq_ok_iff {ε α β : Type} {x : Except ε α} {f : α → Except ε β} {b : β} :
    (x >>= f) = .ok b ↔ ∃ a, x = .ok a ∧ f a = .ok b := by
  cases x <;> simp [bind, Except.bind]

theorem bind_eq_error_iff {ε α β : Type} {x : Except ε α} {f : α → Except ε β} {e : ε} :
    (x >>= f) = .error e ↔ x = .error e ∨ ∃ a, x = .ok a ∧ f a = .error e := by
  cases x <;> simp [bind, Except.bind]

theorem nextByte_eq_ok {b : Byte} {bs rest : List Byte} : nextByte bs = .ok (b, rest) ↔ bs = b :: rest := by
  cases bs <;> simp [nextByte]

theorem nextLe16_eq_ok {d : BitVec 16} {bs rest : List Byte} (h : nextLe16 bs = .ok (d, rest)) : bs = le16 d ++ rest := by
  simp only [nextLe16, bind_eq_ok_iff, nextByte_eq_ok, Prod.exists] at h
  obtain ⟨b0, _, rfl, b1, _, rfl, h⟩ := h
  cases h
  rw [le16, BitVec.extractLsb'_append_eq_right, BitVec.extractLsb'_append_eq_left]
  rfl

theorem nextLe32_eq_ok {d : BitVec 32} {bs rest : List Byte} (h : nextLe32 bs = .ok (d, rest)) : bs = le32 d ++ rest := by
  simp only [nextLe32, bind_eq_ok_iff, Prod.exists] at h
  obtain ⟨lo, bs0, hlo, hi, bs1, hhi, h⟩ := h
  cases h
  rw [nextLe16_eq_ok hlo, nextLe16_eq_ok hhi, le32, BitVec.extractLsb'_append_eq_right, BitVec.extractLsb'_append_eq_left,
    List.append_assoc]

theorem readDisp_eq_ok {md : BitVec 2} {d : Disp} {bs rest : List Byte} (hmd : md ≠ 3#2) (h : readDisp md bs = .ok (d, rest)) :
    bs = d.bytes ++ rest ∧ d.md = md := by
  have hzero : ∀ v : BitVec 2, v ≠ 3#2 → v ≠ 1#2 → v ≠ 2#2 → 0#2 = v := by decide
  unfold readDisp at h
  split at h
  · simp only [bind_eq_ok_iff, nextByte_eq_ok, Prod.exists] at h
    obtain ⟨b, _, rfl, h⟩ := h
    cases h
    exact ⟨rfl, Eq.symm ‹_›⟩
  · split at h
    · simp only [bind_eq_ok_iff, Prod.exists] at h
      obtain ⟨d, _, hd, h⟩ := h
      cases h
      exact ⟨nextLe32_eq_ok hd, Eq.symm ‹_›⟩
    · cases h
      exact ⟨rfl, hzero md hmd ‹_› ‹_›⟩

theorem readDisp16_eq_ok {md : BitVec 2} {d : Disp16} {bs rest : List Byte} (hmd : md ≠ 3#2)
    (h : readDisp16 md bs = .ok (d, rest)) : bs = d.bytes ++ rest ∧ d.md = md := by
  have hzero : ∀ v : BitVec 2, v ≠ 3#2 → v ≠ 1#2 → v ≠ 2#2 → 0#2 = v := by decide
  unfold readDisp16 at h
  split at h
  · simp only [bind_eq_ok_iff, nextByte_eq_ok, Prod.exists] at h
    obtain ⟨b, _, rfl, h⟩ := h
    cases h
    exact ⟨rfl, Eq.symm ‹_›⟩
  · split at h
    · simp only [bind_eq_ok_iff, Prod.exists] at h
      obtain ⟨d, _, hd, h⟩ := h
      cases h
      exact ⟨nextLe16_eq_ok hd, Eq.symm ‹_›⟩
    · cases h
      exact ⟨rfl, hzero md hmd ‹_› ‹_›⟩

/-! ### Equal up to ignored bits -/

theorem eqUpTo_self {n : Nat} {xs : List Byte} (h : n = xs.length) : eqUpTo (List.replicate n 0#8) xs xs = true := by
  subst h
  induction xs with
  | nil => rfl
  | cons x xs ih => simp [List.replicate_succ, eqUpTo, ih]

theorem eqUpTo_append {ks ks' xs xs' ys ys' : List Byte} (h : eqUpTo ks xs ys = true) (h' : eqUpTo ks' xs' ys' = true) :
    eqUpTo (ks ++ ks') (xs ++ xs') (ys ++ ys') = true := by
  induction ks generalizing xs ys with
  | nil =>
    rcases xs with _ | ⟨x, xs⟩ <;> rcases ys with _ | ⟨y, ys⟩ <;> first | exact h' | cases h
  | cons k ks ih =>
    rcases xs with _ | ⟨x, xs⟩ <;> rcases ys with _ | ⟨y, ys⟩
    case cons.cons =>
      simp only [eqUpTo, Bool.and_eq_true] at h
      simp only [List.cons_append, eqUpTo, Bool.and_eq_true]
      exact ⟨h.1, ih h.2⟩
    all_goals cases h

theorem eqUpTo_length {ks xs ys : List Byte} (h : eqUpTo ks xs ys = true) : xs.length = ys.length := by
  induction ks generalizing xs ys with
  | nil =>
    rcases xs with _ | ⟨x, xs⟩ <;> rcases ys with _ | ⟨y, ys⟩ <;> first | rfl | cases h
  | cons k ks ih =>
    rcases xs with _ | ⟨x, xs⟩ <;> rcases ys with _ | ⟨y, ys⟩
    case cons.cons =>
      simp only [eqUpTo, Bool.and_eq_true] at h
      simp [ih h.2]
    all_goals cases h

/-! ### The index -/

theorem sibIndex_eq_none {x : Bool} {s : Byte} (h : sibIndex x s = none) :
    x = false ∧ s &&& ~~~0xC0#8 = sibByte none (s.extractLsb' 0 3) &&& ~~~0xC0#8 := by
  revert x s
  decide

theorem sibIndex_eq_some {x : Bool} {s : Byte} {i : BitVec 4 × BitVec 2} (h : sibIndex x s = some i) :
    i.1 ≠ 4#4 ∧ i.1.getLsbD 3 = x ∧ sibByte (some i) (s.extractLsb' 0 3) = s := by
  unfold sibIndex at h
  dsimp only at h
  split at h
  · cases h
  · cases h
    exact ⟨‹_›, by simp, by simp [sibByte, byte233_fields]⟩

theorem gprWf_extend4 {m : Mode} {b : Bool} (r : BitVec 3) (h : m = .m64 ∨ b = false) : gprWf m (extend4 b r) = true := by
  rcases h with rfl | rfl
  · rfl
  · have hlt : ∀ r : BitVec 3, (extend4 false r).toNat < 8 := by decide
    simp [gprWf, hlt]

theorem indexWf_sibIndex {m : Mode} {x : Bool} (s : Byte) (h : m = .m64 ∨ x = false) : indexWf m (sibIndex x s) = true := by
  unfold sibIndex
  dsimp only
  split
  · rfl
  · simp only [indexWf, gprWf_extend4 _ h, Bool.true_and, bne_iff_ne]
    assumption

/-! ### ModRM with SIB and displacement -/

/-- The bits an addressing form needs are the extension bits it was read with, where they name something (R87). -/
def ReadWith (x b : Bool) (a : MemAddr) : Prop :=
  (hasSib a = true → a.bitX = x) ∧ (ignoresB (.mem a : Rm 3) = false → a.bitB = b)

/-- What reading the bytes after ModRM has consumed, `md` and `rm` being fields of ModRM. -/
def MemRead (m : Mode) (p : Prefixes) (x b : Bool) (md : BitVec 2) (rm : BitVec 3) (bs : List Byte) (a : MemAddr)
    (rest : List Byte) : Prop :=
  ∃ used, bs = used ++ rest ∧ a.wf m p = true ∧ ReadWith x b a ∧
    ∀ reg, eqUpTo (rmIgnored (.mem a : Rm 3)) (byte233 md reg rm :: used) (a.bytes reg) = true

/-- An addressing form all of whose bits count is read from exactly its bytes. -/
theorem eqUpTo_bytes {a : MemAddr} (reg : BitVec 3) (h : rmIgnored (.mem a : Rm 3) = List.replicate (1 + a.len) 0#8) :
    eqUpTo (rmIgnored (.mem a : Rm 3)) (a.bytes reg) (a.bytes reg) = true := by
  rw [h]
  exact eqUpTo_self (Laws.memAddr_bytes_length reg a).symm

theorem disp_bytes_length (d : Disp) : d.bytes.length = d.len := by
  cases d <;> rfl

/-- The SIB byte and what follows it, up to the scale of an absent index. -/
theorem eqUpTo_sib {x : Bool} {s o : Byte} {tail : List Byte} {n : Nat} (hn : n = tail.length)
    {mask : List Byte} (hmask : mask = if (sibIndex x s).isSome then List.replicate (2 + n) 0#8
      else 0#8 :: 0xC0#8 :: List.replicate n 0#8) :
    eqUpTo mask (o :: s :: tail) (o :: sibByte (sibIndex x s) (s.extractLsb' 0 3) :: tail) = true := by
  subst hn hmask
  cases hi : sibIndex x s with
  | none =>
    have heq := (sibIndex_eq_none hi).2
    simpa [eqUpTo, eqUpTo_self] using heq
  | some i =>
    rw [(sibIndex_eq_some hi).2.2]
    exact eqUpTo_self (by simp; omega)

/-- The bit `X` of an index that was read is the extension bit, and of an absent one 0, as it was then. -/
theorem readWith_index {x b : Bool} {s : Byte} {a : MemAddr} (ha : a.bitX = ((sibIndex x s).map fun j => j.1.getLsbD 3).getD false)
    (hb : ignoresB (.mem a : Rm 3) = false → a.bitB = b) : ReadWith x b a := by
  refine ⟨fun _ => ?_, hb⟩
  rw [ha]
  cases hi : sibIndex x s with
  | none => exact (sibIndex_eq_none hi).1.symm
  | some i => exact (sibIndex_eq_some hi).2.1

theorem readMem_eq_ok {m : Mode} {p : Prefixes} {x b : Bool} {md : BitVec 2} {rm : BitVec 3} {bs rest : List Byte}
    {a : MemAddr} (hmd : md ≠ 3#2) (h16 : uses16 m p = false) (hm : m = .m64 ∨ (x = false ∧ b = false))
    (h : readMem x b md rm bs = .ok (a, rest)) : MemRead m p x b md rm bs a rest := by
  have hx : m = .m64 ∨ x = false := hm.imp_right (·.1)
  have hb : m = .m64 ∨ b = false := hm.imp_right (·.2)
  unfold readMem at h
  split at h
  · rename_i hrm
    subst hrm
    simp only [bind_eq_ok_iff, nextByte_eq_ok, Prod.exists] at h
    obtain ⟨s, _, rfl, h⟩ := h
    split at h
    · rename_i hbase
      obtain ⟨hbase, rfl⟩ := hbase
      simp only [bind_eq_ok_iff, Prod.exists] at h
      obtain ⟨d, _, hd, h⟩ := h
      cases h
      refine ⟨s :: le32 d, by rw [nextLe32_eq_ok hd]; rfl, ?_, readWith_index (s := s) ?_ nofun, fun reg => ?_⟩
      · simp [MemAddr.wf, h16, indexWf_sibIndex s hx]
      · cases sibIndex x s <;> rfl
      · have heq := eqUpTo_sib (x := x) (s := s) (o := byte233 0#2 reg 4#3) (tail := le32 d) (n := 4) rfl
          (mask := rmIgnored (.mem (.sibNoBase (sibIndex x s) d) : Rm 3)) (by cases sibIndex x s <;> rfl)
        rwa [hbase] at heq
    · rename_i hbase
      simp only [bind_eq_ok_iff, Prod.exists] at h
      obtain ⟨d, _, hd, h⟩ := h
      cases h
      obtain ⟨hbytes, rfl⟩ := readDisp_eq_ok hmd hd
      refine ⟨s :: d.bytes, by rw [hbytes]; rfl, ?_, readWith_index (s := s) ?_ fun _ => ?_, fun reg => ?_⟩
      · have hnone : ¬(s.extractLsb' 0 3 = 5#3 ∧ d = .none) := fun ⟨h5, hd⟩ => hbase ⟨h5, disp_md_eq_zero_iff.2 hd⟩
        simp [MemAddr.wf, h16, indexWf_sibIndex s hx, sibBaseWf, gprWf_extend4 _ hb]
        tauto
      · cases sibIndex x s <;> rfl
      · simp [MemAddr.bitB]
      · have heq := eqUpTo_sib (x := x) (s := s) (o := byte233 d.md reg 4#3) (tail := d.bytes) (disp_bytes_length d).symm
          (mask := rmIgnored (.mem (.sib (extend4 b (s.extractLsb' 0 3)) (sibIndex x s) d) : Rm 3))
          (by cases sibIndex x s <;> simp [rmIgnored, Rm.len, MemAddr.len]; omega)
        simpa [MemAddr.bytes] using heq
  · rename_i hrm
    split at h
    · rename_i hbase
      obtain ⟨rfl, rfl⟩ := hbase
      simp only [bind_eq_ok_iff, Prod.exists] at h
      obtain ⟨d, _, hd, h⟩ := h
      cases h
      exact ⟨le32 d, nextLe32_eq_ok hd, by simp [MemAddr.wf, h16], ⟨nofun, nofun⟩, fun reg => eqUpTo_bytes reg rfl⟩
    · rename_i hbase
      simp only [bind_eq_ok_iff, Prod.exists] at h
      obtain ⟨d, _, hd, h⟩ := h
      cases h
      obtain ⟨hbytes, rfl⟩ := readDisp_eq_ok hmd hd
      refine ⟨d.bytes, hbytes, ?_, ⟨nofun, fun _ => by simp [MemAddr.bitB]⟩, fun reg => ?_⟩
      · have hnone : ¬(rm = 5#3 ∧ d = .none) := fun ⟨h5, hd⟩ => hbase ⟨h5, disp_md_eq_zero_iff.2 hd⟩
        simp [MemAddr.wf, h16, baseWf, gprWf_extend4 _ hb, hrm]
        tauto
      · have heq := eqUpTo_bytes (a := .base (extend4 b rm) d) reg rfl
        rw [MemAddr.bytes, setWidth_extend4] at heq ⊢
        exact heq

theorem readMem16_eq_ok {m : Mode} {p : Prefixes} {x b : Bool} {md : BitVec 2} {rm : BitVec 3} {bs rest : List Byte}
    {a : MemAddr} (hmd : md ≠ 3#2) (h16 : uses16 m p = true) (h : readMem16 md rm bs = .ok (a, rest)) :
    MemRead m p x b md rm bs a rest := by
  have hrm : ∀ r : BitVec 3, (base16OfRm r).rm = r := by decide
  unfold readMem16 at h
  split at h
  · rename_i hbase
    obtain ⟨rfl, rfl⟩ := hbase
    simp only [bind_eq_ok_iff, Prod.exists] at h
    obtain ⟨d, _, hd, h⟩ := h
    cases h
    exact ⟨le16 d, nextLe16_eq_ok hd, h16, ⟨nofun, nofun⟩, fun reg => eqUpTo_bytes reg rfl⟩
  · rename_i hbase
    simp only [bind_eq_ok_iff, Prod.exists] at h
    obtain ⟨d, _, hd, h⟩ := h
    cases h
    obtain ⟨hbytes, rfl⟩ := readDisp16_eq_ok hmd hd
    refine ⟨d.bytes, hbytes, ?_, ⟨nofun, nofun⟩, fun reg => ?_⟩
    · have hnone : ¬(base16OfRm rm = .bp ∧ d = .none) := fun ⟨hbp, hd⟩ =>
        hbase ⟨(hrm rm).symm.trans (base16_rm_eq_six_iff.2 hbp), disp16_md_eq_zero_iff.2 hd⟩
      simp [MemAddr.wf, h16]
      tauto
    · have heq := eqUpTo_bytes (a := .base16 (base16OfRm rm) d) reg rfl
      rw [MemAddr.bytes, hrm] at heq ⊢
      exact heq

/-- What reading ModRM, SIB and displacement has consumed (R107 step 4). -/
theorem readModRm_eq_ok {m : Mode} {p : Prefixes} {x b : Bool} {bs rest : List Byte} {reg : BitVec 3} {rm : Rm 3}
    (hm : m = .m64 ∨ (x = false ∧ b = false)) (h : readModRm m p x b bs = .ok ((reg, rm), rest)) :
    ∃ used, bs = used ++ rest ∧ eqUpTo (rmIgnored rm) used (rm.bytes reg) = true ∧ rm.wf m p (fun _ => true) = true ∧
      ∀ a, rm = .mem a → ReadWith x b a := by
  simp only [readModRm, bind_eq_ok_iff, nextByte_eq_ok, Prod.exists] at h
  obtain ⟨o, bs1, rfl, h⟩ := h
  split at h
  · rename_i hmd
    cases h
    refine ⟨[o], rfl, ?_, rfl, nofun⟩
    have hbytes : (Rm.reg (o.extractLsb' 0 3) : Rm 3).bytes (o.extractLsb' 3 3) = [o] := by
      rw [Rm.bytes, BitVec.setWidth_eq, ← hmd, byte233_fields]
    rw [hbytes]
    exact eqUpTo_self rfl
  · rename_i hmd
    have hmem : ∀ a, MemRead m p x b (o.extractLsb' 6 2) (o.extractLsb' 0 3) bs1 a rest →
        reg = o.extractLsb' 3 3 → rm = .mem a →
        ∃ used, o :: bs1 = used ++ rest ∧ eqUpTo (rmIgnored rm) used (rm.bytes reg) = true ∧
          rm.wf m p (fun _ => true) = true ∧ ∀ a, rm = .mem a → ReadWith x b a := by
      rintro a ⟨used, rfl, hwf, hwith, heq⟩ rfl rfl
      refine ⟨o :: used, rfl, ?_, hwf, ?_⟩
      · have := heq (o.extractLsb' 3 3)
        rwa [byte233_fields] at this
      · intro a' ha
        cases ha
        exact hwith
    split at h
    · simp only [bind_eq_ok_iff, Prod.exists] at h
      obtain ⟨a, _, ha, h⟩ := h
      cases h
      exact hmem a (readMem16_eq_ok hmd ‹_› ha) rfl rfl
    · simp only [bind_eq_ok_iff, Prod.exists] at h
      obtain ⟨a, _, ha, h⟩ := h
      cases h
      exact hmem a (readMem_eq_ok hmd (Bool.not_eq_true _ ▸ ‹_›) hm ha) rfl rfl

end Sys2Proof
end

section
/-! SUPPORT. What each encoding has consumed when it answers an instruction: the instruction is well-formed, and the bytes are its
body up to the ignored bits (D17, log 15). -/

namespace Sys2Proof

open Machine

/-! ### The vector operand of what was read -/

theorem rm_bytes_extendRm (x b : Bool) (reg : BitVec 3) (rm : Rm 3) : (extendRm x b rm).bytes reg = rm.bytes reg := by
  cases rm <;> simp [extendRm, Rm.bytes]

theorem rmIgnored_extendRm (x b : Bool) (rm : Rm 3) : rmIgnored (extendRm x b rm) = rmIgnored rm := by
  rcases rm with r | ⟨_, _⟩ | _ | ⟨_, _ | _, _⟩ | ⟨_ | _, _⟩ | ⟨_, _⟩ | _ <;> rfl

theorem rm_wf_extendRm {m : Mode} {p : Prefixes} {x b : Bool} {rm : Rm 3} {ok : BitVec 5 → Bool}
    (h : rm.wf m p (fun _ => true) = true) (hok : ∀ r, ok (extend5 x b r) = true) : (extendRm x b rm).wf m p ok = true := by
  cases rm with
  | reg r => exact hok r
  | mem a => exact h

/-- The bits `X` and `B` an operand needs are those it was read with, or they name nothing and are 0 (R87, log 15). -/
def NamedBits {n : Nat} (x b : Bool) (src : Rm n) : Prop :=
  (src.bitX = x ∨ (ignoresX src = true ∧ src.bitX = false)) ∧ (src.bitB = b ∨ (ignoresB src = true ∧ src.bitB = false))

theorem namedBits_mem {n : Nat} {x b : Bool} {a : MemAddr} (h : ReadWith x b a) : NamedBits x b (.mem a : Rm n) := by
  obtain ⟨hx, hb⟩ := h
  refine ⟨?_, ?_⟩
  · cases hs : hasSib a with
    | true => exact .inl (hx hs)
    | false => exact .inr ⟨by simp [ignoresX, hs], by cases a <;> first | rfl | cases hs⟩
  · cases hi : ignoresB (.mem a : Rm 3) with
    | false => exact .inl (hb hi)
    | true => cases a <;> first | exact .inr ⟨rfl, rfl⟩ | cases hi

theorem namedBits_extendRm {x b : Bool} {rm : Rm 3} (h : ∀ a, rm = .mem a → ReadWith x b a) :
    NamedBits x b (extendRm false b rm) := by
  cases rm with
  | reg r => exact ⟨.inr ⟨rfl, by simp [extendRm, Rm.bitX]⟩, .inl (by simp [extendRm, Rm.bitB])⟩
  | mem a => exact namedBits_mem (h a rfl)

theorem namedBits_mm {x b : Bool} {rm : Rm 3} (h : ∀ a, rm = .mem a → ReadWith x b a) (hreg : (b && rm.isReg) = false) :
    NamedBits x b rm := by
  cases rm with
  | reg r =>
    obtain rfl : b = false := by simpa [Rm.isReg] using hreg
    exact ⟨.inr ⟨rfl, by simp [Rm.bitX]⟩, .inl (by simp [Rm.bitB])⟩
  | mem a => exact namedBits_mem (h a rfl)

/-- Where the extension bits are 0 the operand needs none. -/
theorem bits_of_namedBits_false {n : Nat} {src : Rm n} (h : NamedBits false false src) :
    src.bitX = false ∧ src.bitB = false :=
  ⟨h.1.elim id (·.2), h.2.elim id (·.2)⟩

/-- In `M32`, where the extension bits are 0, no bit of VEX is ignored. -/
theorem vexBits_of_namedBits {m : Mode} {x b : Bool} {src : Rm 5} (hm : m = .m64 ∨ (x = false ∧ b = false))
    (h : NamedBits x b src) :
    (src.bitX = x ∨ (m == .m64 && ignoresX src) = true) ∧ (src.bitB = b ∨ (m == .m64 && ignoresB src) = true) := by
  rcases hm with rfl | ⟨rfl, rfl⟩
  · exact ⟨h.1.imp_right (·.1), h.2.imp_right (·.1)⟩
  · obtain ⟨hx, hb⟩ := bits_of_namedBits_false h
    exact ⟨.inl hx, .inl hb⟩

/-! ### Bytes from their fields, up to ignored bits -/

theorem rexByte_of_fields {r : Byte} (h : r.extractLsb' 4 4 = 4#4) (hw : r.getLsbD 3 = false) :
    rexByte (r.getLsbD 2) (r.getLsbD 1) (r.getLsbD 0) = r := by
  revert r
  decide

theorem rexByte_eqUpTo (r : Bool) {x b x' b' ix ib : Bool} (hx : x' = x ∨ ix = true) (hb : b' = b ∨ ib = true) :
    rexByte r x b &&& ~~~(0#6 ++ BitVec.ofBool ix ++ BitVec.ofBool ib) =
      rexByte r x' b' &&& ~~~(0#6 ++ BitVec.ofBool ix ++ BitVec.ofBool ib) := by
  revert r x b x' b' ix ib
  decide

theorem vexByte1_of_fields {b : Byte} (h : b.extractLsb' 0 5 = 2#5) :
    vexByte1 (!b.getLsbD 7) (!b.getLsbD 6) (!b.getLsbD 5) = b := by
  revert b
  decide

theorem vexByte1_eqUpTo (r : Bool) {x b x' b' ix ib : Bool} (hx : x' = x ∨ ix = true) (hb : b' = b ∨ ib = true) :
    vexByte1 r x b &&& ~~~(0#1 ++ BitVec.ofBool ix ++ BitVec.ofBool ib ++ 0#5) =
      vexByte1 r x' b' &&& ~~~(0#1 ++ BitVec.ofBool ix ++ BitVec.ofBool ib ++ 0#5) := by
  revert r x b x' b' ix ib
  decide

theorem vexByte2_eqUpTo {b : Byte} (h : b.extractLsb' 0 2 = 1#2) :
    b &&& ~~~0x80#8 = vexByte2 (~~~(b.extractLsb' 3 4)) (b.getLsbD 2) &&& ~~~0x80#8 := by
  revert b
  decide

theorem evexByte0_of_fields {b : Byte} (h2 : b.extractLsb' 2 2 = 0#2) (h0 : b.extractLsb' 0 2 = 2#2) :
    evexByte0 (!b.getLsbD 7) (!b.getLsbD 6) (!b.getLsbD 5) (!b.getLsbD 4) = b := by
  revert b
  decide

theorem evexByte0_eqUpTo (r x r' : Bool) {b b' ib : Bool} (hb : b' = b ∨ ib = true) :
    evexByte0 r x b r' &&& ~~~(0#2 ++ BitVec.ofBool ib ++ 0#5) = evexByte0 r x b' r' &&& ~~~(0#2 ++ BitVec.ofBool ib ++ 0#5) := by
  revert r x r' b b' ib
  decide

theorem evexByte1_eqUpTo {b : Byte} (h2 : b.getLsbD 2 = true) (h0 : b.extractLsb' 0 2 = 1#2) :
    b &&& ~~~0x80#8 = evexByte1 (~~~(b.extractLsb' 3 4)) &&& ~~~0x80#8 := by
  revert b
  decide

theorem evexByte2_of_fields {b : Byte} (h : b.getLsbD 4 = false) :
    evexByte2 (b.getLsbD 7) (b.extractLsb' 5 2) (!b.getLsbD 3) (b.extractLsb' 0 3) = b := by
  revert b
  decide

/-! ### Register numbers -/

theorem getLsbD_three_extend5 (x b : Bool) (r : BitVec 3) : (extend5 x b r).getLsbD 3 = b := by
  revert x b r
  decide

theorem getLsbD_four_extend5 (x b : Bool) (r : BitVec 3) : (extend5 x b r).getLsbD 4 = x := by
  revert x b r
  decide

theorem vecWf16_extend5 {m : Mode} {b : Bool} (r : BitVec 3) (h : m = .m64 ∨ b = false) :
    vecWf16 m (extend5 false b r) = true := by
  have h16 : ∀ (b : Bool) (r : BitVec 3), (extend5 false b r).toNat < 16 := by decide
  have h8 : ∀ r : BitVec 3, (extend5 false false r).toNat < 8 := by decide
  unfold vecWf16
  split
  · exact decide_eq_true (h16 b r)
  · rename_i hm
    obtain rfl := h.resolve_left fun hm' => hm (by simp [hm'])
    exact decide_eq_true (h8 r)

theorem vecWf32_extend5 {m : Mode} {x b : Bool} (r : BitVec 3) (h : m = .m64 ∨ (x = false ∧ b = false)) :
    vecWf32 m (extend5 x b r) = true := by
  have h8 : ∀ r : BitVec 3, (extend5 false false r).toNat < 8 := by decide
  rcases h with rfl | ⟨rfl, rfl⟩
  · rfl
  · simp [vecWf32, h8]

/-- The `vvvv` field, inverted in the byte, as a register of VEX; in `M32` its top bit is 1 there (R97). -/
theorem vecWf16_vvvv {m : Mode} (b : Byte) (h : m = .m64 ∨ b.getLsbD 6 = true) :
    vecWf16 m ((~~~(b.extractLsb' 3 4)).setWidth 5) = true := by
  have h16 : ∀ b : Byte, ((~~~(b.extractLsb' 3 4)).setWidth 5).toNat < 16 := by decide
  have h8 : ∀ b : Byte, b.getLsbD 6 = true → ((~~~(b.extractLsb' 3 4)).setWidth 5).toNat < 8 := by decide
  unfold vecWf16
  split
  · exact decide_eq_true (h16 b)
  · rename_i hm
    exact decide_eq_true (h8 b (h.resolve_left fun hm' => hm (by simp [hm'])))

/-- `V'` and `vvvv` as a register of EVEX; in `M32` both top bits are 1 in their bytes (R102). -/
theorem vecWf32_vvvv {m : Mode} (b : Byte) (v' : Bool) (h : m = .m64 ∨ (b.getLsbD 6 = true ∧ v' = true)) :
    vecWf32 m (BitVec.ofBool (!v') ++ ~~~(b.extractLsb' 3 4) : BitVec 5) = true := by
  have h8 : ∀ b : Byte, b.getLsbD 6 = true → (BitVec.ofBool (!true) ++ ~~~(b.extractLsb' 3 4) : BitVec 5).toNat < 8 := by decide
  rcases h with rfl | ⟨h6, rfl⟩
  · rfl
  · simp only [vecWf32, h8 b h6, decide_true, Bool.or_true]

end Sys2Proof
end

section
/-! What the decoder reads is well-formed, and what it has consumed is an encoding of it (`30_encoding.md` section 7). -/

namespace Sys2Proof

open Machine

/-- The bytes after the legacy prefixes are a body of the instruction, up to the ignored bits, and the prefixes are its own. -/
def IsBodyOf (m : Mode) (q : PrefixesSeen) (i : Instr) (later : List Byte) : Prop :=
  i.seen = q ∧ i.wf m = true ∧ eqUpTo (ignoredBits m i) later i.body = true

theorem expectByte_eq_ok {b : Byte} {r : DecodeRefusal} {bs rest : List Byte} {u : Unit} :
    expectByte b r bs = .ok (u, rest) ↔ bs = b :: rest := by
  rcases bs with _ | ⟨x, bs⟩
  · simp [expectByte, nextByte]
  · by_cases hx : x = b
    · simp [expectByte, hx, eq_comm]
    · simp [expectByte, hx]

/-- The prefixes of a legacy form are those seen. -/
theorem seen_kept {q : PrefixesSeen} (hlock : q.lock = false) (hrepne : q.repne = false) (hrep : q.rep = false) :
    q.kept.seen q.opSize = q := by
  cases q
  simp_all [Prefixes.seen, PrefixesSeen.kept]

theorem mode_of_admitted {m : Mode} (h : m.admitted = true) : m = .m64 ∨ m = .m32 := by
  cases m with
  | m64 => exact .inl rfl
  | m32 => exact .inr rfl
  | _ => cases h

/-! ### Forms 1 and 2 -/

theorem eqUpTo_legacyBody {n : Nat} {rex : Option Byte} {used : List Byte} {reg : BitVec 3} {src : Rm n}
    (hrex : ∀ r, rex = some r → r.extractLsb' 4 4 = 4#4) (hw : (rex.getD 0x40#8).getLsbD 3 = false)
    (hbits : NamedBits ((rex.getD 0x40#8).getLsbD 1) ((rex.getD 0x40#8).getLsbD 0) src)
    (hused : eqUpTo (rmIgnored src) used (src.bytes reg) = true) :
    eqUpTo ((if rex.isSome then [0#6 ++ BitVec.ofBool (ignoresX src) ++ BitVec.ofBool (ignoresB src)] else []) ++
        [0#8, 0#8, 0#8] ++ rmIgnored src) (rex.toList ++ 0x0F#8 :: 0x38#8 :: 0x0B#8 :: used)
      (legacyBody rex.isSome ((rex.getD 0x40#8).getLsbD 2) reg src) = true := by
  rw [List.append_assoc]
  refine eqUpTo_append ?_ ?_
  · cases rex with
    | none => rfl
    | some r =>
      have hr := rexByte_eqUpTo (r.getLsbD 2) (hbits.1.imp_right (·.1)) (hbits.2.imp_right (·.1))
      rw [Option.getD_some, rexByte_of_fields (hrex r rfl) hw] at hr
      simpa only [Option.getD_some, Option.isSome_some, if_true, Option.toList_some, optByte_true, eqUpTo, Bool.and_true, beq_iff_eq] using hr
  · exact eqUpTo_append (ks := [0#8, 0#8, 0#8]) (xs := [0x0F#8, 0x38#8, 0x0B#8]) (ys := [0x0F#8, 0x38#8, 0x0B#8])
      (eqUpTo_self (n := 3) (xs := [0x0F#8, 0x38#8, 0x0B#8]) rfl) hused

/-- A REX byte is there where a bit of it is needed (R85). -/
theorem rexWf_of_namedBits {n : Nat} {m : Mode} {rex : Option Byte} {src : Rm n} (hrex : ∀ r, rex = some r → m = .m64)
    (hbits : NamedBits ((rex.getD 0x40#8).getLsbD 1) ((rex.getD 0x40#8).getLsbD 0) src) :
    rexWf m rex.isSome ((rex.getD 0x40#8).getLsbD 2 || src.bitX || src.bitB) = true := by
  cases rex with
  | none =>
    obtain ⟨hx, hb⟩ := bits_of_namedBits_false hbits
    rw [hx, hb]
    exact rexWf_iff.2 ⟨.inr rfl, nofun⟩
  | some r => simp [rexWf_iff, hrex r rfl]

theorem decodeLegacy_eq_ok {m : Mode} {q : PrefixesSeen} {rex : Option Byte} {bs rest : List Byte} {i : Instr}
    (hm : m.admitted = true) (hrex : ∀ r, rex = some r → m = .m64 ∧ r.extractLsb' 4 4 = 4#4)
    (h : decodeLegacy m q rex bs = .ok (i, rest)) :
    ∃ used, bs = used ++ rest ∧ IsBodyOf m q i (rex.toList ++ 0x0F#8 :: used) := by
  simp only [decodeLegacy, bind_eq_ok_iff, expectByte_eq_ok, Prod.exists, exists_const] at h
  obtain ⟨_, rfl, _, rfl, h⟩ := h
  split at h
  · cases h
  rename_i hlock
  split at h
  · cases h
  rename_i hrepeat
  split at h
  · cases h
  rename_i hw
  simp only [Bool.not_eq_true, Bool.or_eq_false_iff] at hlock hrepeat hw
  simp only [bind_eq_ok_iff, Prod.exists] at h
  obtain ⟨reg, rm, rest', hread, h⟩ := h
  have hbitsM : m = .m64 ∨ ((rex.getD 0x40#8).getLsbD 1 = false ∧ (rex.getD 0x40#8).getLsbD 0 = false) := by
    cases rex with
    | none => exact .inr ⟨rfl, rfl⟩
    | some r => exact .inl (hrex r rfl).1
  have hR : m = .m64 ∨ (rex.getD 0x40#8).getLsbD 2 = false := by
    cases rex with
    | none => exact .inr rfl
    | some r => exact .inl (hrex r rfl).1
  obtain ⟨used, rfl, hused, hwf, hwith⟩ := readModRm_eq_ok hbitsM hread
  have hseen := seen_kept hlock hrepeat.1 hrepeat.2
  split at h
  · rename_i hop
    cases h
    rw [hop] at hseen
    have hbits := namedBits_extendRm hwith
    refine ⟨0x38#8 :: 0x0B#8 :: used, rfl, hseen, ?_, ?_⟩
    · simp only [Instr.wf, hm, vecWf16_extend5 reg hR, getLsbD_three_extend5, Bool.true_and,
        Bool.and_eq_true, and_true]
      exact ⟨rexWf_of_namedBits (fun r hr => (hrex r hr).1) hbits,
        rm_wf_extendRm hwf fun r => vecWf16_extend5 r (hbitsM.imp_right (·.2))⟩
    · have hbody := eqUpTo_legacyBody (reg := reg) (fun r hr => (hrex r hr).2) hw hbits
        (by rw [rmIgnored_extendRm, rm_bytes_extendRm]; exact hused)
      simpa only [ignoredBits, Instr.body, getLsbD_three_extend5, setWidth_extend5] using hbody
  · rename_i hop
    rw [Bool.not_eq_true] at hop
    split at h
    · cases h
    rename_i hmmx
    cases h
    simp only [Bool.not_eq_true, Bool.or_eq_false_iff] at hmmx
    rw [hop] at hseen
    have hbits := namedBits_mm hwith hmmx.2
    refine ⟨0x38#8 :: 0x0B#8 :: used, rfl, hseen, ?_, ?_⟩
    · have hneeded := rexWf_of_namedBits (fun r hr => (hrex r hr).1) hbits
      rw [hmmx.1, Bool.false_or] at hneeded
      simp only [Instr.wf, hm, hneeded, hwf, Bool.and_self]
    · have hbody := eqUpTo_legacyBody (reg := reg) (fun r hr => (hrex r hr).2) hw hbits hused
      rw [hmmx.1] at hbody
      exact hbody

/-! ### VEX -/

/-- What `vexIntro` lets through: none of 66H, F2H, F3H, F0H, no REX, and in `M32` bits 7:6 = 11 (R97, R98, R102). -/
theorem vexIntro_eq_ok {m : Mode} {other : DecodeRefusal} {q : PrefixesSeen} {rex : Option Byte} {b : Byte} {bs : List Byte}
    {u : Unit} (h : vexIntro m other q rex (b :: bs) = .ok u) :
    (q.opSize = false ∧ q.repne = false ∧ q.rep = false ∧ q.lock = false) ∧ rex = none ∧
      (m = .m32 → b.getLsbD 7 = true ∧ b.getLsbD 6 = true) := by
  have htop : ∀ b : Byte, b.extractLsb' 6 2 = 3#2 → b.getLsbD 7 = true ∧ b.getLsbD 6 = true := by decide
  simp only [vexIntro, bind_eq_ok_iff] at h
  obtain ⟨_, hbyte, h⟩ := h
  split at h
  · cases h
  rename_i hbad
  simp only [PrefixesSeen.badBeforeVex, Bool.not_eq_true, Bool.or_eq_false_iff, Option.isSome_eq_false_iff,
    Option.isNone_iff_eq_none] at hbad
  obtain ⟨⟨⟨⟨hop, hrepne⟩, hrep⟩, hlock⟩, hrex⟩ := hbad
  refine ⟨⟨hop, hrepne, hrep, hlock⟩, hrex, ?_⟩
  rintro rfl
  unfold vexByteInM32 at hbyte
  rw [if_pos rfl] at hbyte
  dsimp only at hbyte
  split at hbyte
  · exact htop b ‹_›
  · cases hbyte

theorem eqUpTo_vexBody {m : Mode} {b1 b2 : Byte} {used : List Byte} {reg : BitVec 3} {src1 : BitVec 5} {src2 : Rm 5}
    (hmap : b1.extractLsb' 0 5 = 2#5) (hpp : b2.extractLsb' 0 2 = 1#2)
    (hm : m = .m64 ∨ ((!b1.getLsbD 6) = false ∧ (!b1.getLsbD 5) = false))
    (hbits : NamedBits (!b1.getLsbD 6) (!b1.getLsbD 5) src2) (hsrc1 : src1.setWidth 4 = ~~~(b2.extractLsb' 3 4))
    (hused : eqUpTo (rmIgnored src2) used (src2.bytes reg) = true) :
    eqUpTo (ignoredBits.vex m src2) (0xC4#8 :: b1 :: b2 :: 0x0B#8 :: used)
      (vexBody (b2.getLsbD 2) (extend5 false (!b1.getLsbD 7) reg) src1 src2) = true := by
  obtain ⟨hx, hb⟩ := vexBits_of_namedBits hm hbits
  have h1 := vexByte1_eqUpTo (!b1.getLsbD 7) hx hb
  rw [vexByte1_of_fields hmap] at h1
  have h2 := vexByte2_eqUpTo hpp
  rw [← hsrc1] at h2
  simp only [ignoredBits.vex, vexBody, List.cons_append, List.nil_append, eqUpTo, Bool.and_eq_true, beq_iff_eq, true_and,
    getLsbD_three_extend5, setWidth_extend5] at h1 h2 ⊢
  exact ⟨h1, h2, hused⟩

theorem setWidth_vvvv (v : BitVec 4) : (v.setWidth 5).setWidth 4 = v := by
  revert v
  decide

theorem decodeVex_eq_ok {m : Mode} {q : PrefixesSeen} {rex : Option Byte} {bs rest : List Byte} {i : Instr}
    (hm : m.admitted = true) (h : decodeVex m q rex bs = .ok (i, rest)) :
    ∃ used, bs = used ++ rest ∧ IsBodyOf m q i (rex.toList ++ 0xC4#8 :: used) := by
  simp only [decodeVex, bind_eq_ok_iff, nextByte_eq_ok, Prod.exists] at h
  obtain ⟨_, hintro, b1, _, rfl, b2, _, rfl, op, _, rfl, h⟩ := h
  obtain ⟨⟨hop, hrepne, hrep, hlock⟩, rfl, htop⟩ := vexIntro_eq_ok hintro
  split at h
  · cases h
  rename_i hmap
  rw [not_not] at hmap
  obtain ⟨hmap, hpp, rfl⟩ := hmap
  split at h
  · cases h
  rename_i hext
  simp only [bind_eq_ok_iff, Prod.exists] at h
  obtain ⟨reg, rm, rest', hread, h⟩ := h
  have hbits64 : m = .m64 ∨ ((!b1.getLsbD 7) = false ∧ (!b1.getLsbD 6) = false ∧ (!b1.getLsbD 5) = false ∧
      b2.getLsbD 6 = true) := by
    refine (mode_of_admitted hm).imp_right fun hm32 => ?_
    obtain ⟨h7, h6⟩ := htop hm32
    obtain ⟨h5, hv⟩ := not_not.1 fun hno => hext ⟨hm32, hno⟩
    exact ⟨by rw [h7]; rfl, by rw [h6]; rfl, by rw [h5]; rfl, hv⟩
  have hbitsM := hbits64.imp_right fun hb => (⟨hb.2.1, hb.2.2.1⟩ : _ ∧ _)
  obtain ⟨used, rfl, hused, hwf, hwith⟩ := readModRm_eq_ok hbitsM hread
  have hseen := seen_kept hlock hrepne hrep
  rw [hop] at hseen
  have hvexWf : vexWf m q.kept (extend5 false (!b1.getLsbD 7) reg) ((~~~(b2.extractLsb' 3 4)).setWidth 5)
      (extendRm false (!b1.getLsbD 5) rm) = true := by
    simp only [vexWf, Bool.and_eq_true]
    exact ⟨⟨vecWf16_extend5 reg (hbits64.imp_right (·.1)), vecWf16_vvvv b2 (hbits64.imp_right (·.2.2.2))⟩,
      rm_wf_extendRm hwf fun r => vecWf16_extend5 r (hbits64.imp_right (·.2.2.1))⟩
  have hbody := eqUpTo_vexBody (m := m) (reg := reg) hmap hpp hbitsM (namedBits_extendRm hwith)
    (setWidth_vvvv (~~~(b2.extractLsb' 3 4))) (by rw [rmIgnored_extendRm, rm_bytes_extendRm]; exact hused)
  split at h
  · rename_i hl
    rw [hl] at hbody
    cases h
    exact ⟨b1 :: b2 :: 0x0B#8 :: used, rfl, hseen, by simp only [Instr.wf, hm, hvexWf, Bool.and_self], hbody⟩
  · rename_i hl
    rw [Bool.not_eq_true] at hl
    rw [hl] at hbody
    cases h
    exact ⟨b1 :: b2 :: 0x0B#8 :: used, rfl, hseen, by simp only [Instr.wf, hm, hvexWf, Bool.and_self], hbody⟩

end Sys2Proof
end

section
/-! EVEX, and with it every encoding: what decodes is well-formed, and the bytes consumed are an encoding of it. -/

namespace Sys2Proof

open Machine

/-! ### EVEX -/

theorem evexChecks_eq_ok {m : Mode} {p0 p1 p2 : Byte} {u : Unit} (h : evexChecks m p0 p1 p2 = .ok u) :
    (p0.extractLsb' 2 2 = 0#2 ∧ p1.getLsbD 2 = true ∧ p0.extractLsb' 0 2 = 2#2 ∧ p1.extractLsb' 0 2 = 1#2) ∧
      p2.extractLsb' 5 2 ≠ 3#2 ∧ p2.getLsbD 4 = false ∧ ¬(p2.extractLsb' 0 3 = 0#3 ∧ p2.getLsbD 7 = true) ∧
      (m = .m32 → p2.getLsbD 3 = true ∧ p0.getLsbD 5 = true ∧ p0.getLsbD 4 = true ∧ p1.getLsbD 6 = true) := by
  simp only [evexChecks] at h
  split at h
  · cases h
  rename_i hud
  split at h
  · cases h
  rename_i hother
  split at h
  · cases h
  rename_i hll
  split at h
  · cases h
  rename_i hb
  split at h
  · cases h
  rename_i hz
  split at h
  · cases h
  rename_i hv
  split at h
  · cases h
  rename_i hext
  simp only [not_or, ne_eq, not_not, Bool.not_eq_false] at hud hother
  exact ⟨⟨hud.1, hud.2.1, hother.1, hother.2⟩, hll, by simpa using hb, hz,
    fun hm => ⟨by simpa [hm] using hv, by simpa [hm] using hext⟩⟩

/-- `X` of EVEX is the operand's in every form that is not refused (R103); `B` may name nothing. -/
theorem evexBits_of_read {x b : Bool} {rm : Rm 3} (h : ∀ a, rm = .mem a → ReadWith x b a)
    (hsib : (x && rm.isMemNoSib) = false) :
    (extendRm x b rm).bitX = x ∧
      ((extendRm x b rm).bitB = b ∨ (ignoresB (extendRm x b rm) = true ∧ (extendRm x b rm).bitB = false)) := by
  cases rm with
  | reg r => exact ⟨getLsbD_four_extend5 .., .inl (getLsbD_three_extend5 ..)⟩
  | mem a =>
    obtain ⟨hX, hB⟩ := namedBits_mem (n := 5) (h a rfl)
    refine ⟨hX.elim id fun ⟨hno, hX0⟩ => ?_, hB⟩
    have hno' : (Rm.mem a : Rm 3).isMemNoSib = true := by
      cases a <;> first | rfl | cases hno
    rw [hno', Bool.and_true] at hsib
    exact hX0.trans hsib.symm

/-- The writemask fields and the mask they stand for. -/
theorem maskingOf_spec {aaa : BitVec 3} {z : Bool} (h : ¬(aaa = 0#3 ∧ z = true)) :
    (maskingOf aaa z).wf = true ∧ (maskingOf aaa z).aaa = aaa ∧ (maskingOf aaa z).z = z := by
  revert aaa z
  decide

/-- The fields of `V'` and `vvvv` in the register they name. -/
theorem vvvv_fields (v' : Bool) (v : BitVec 4) :
    (BitVec.ofBool v' ++ v : BitVec 5).setWidth 4 = v ∧ (BitVec.ofBool v' ++ v : BitVec 5).getLsbD 4 = v' := by
  revert v' v
  decide

theorem eqUpTo_evexBody {m : Mode} {p0 p1 p2 : Byte} {used : List Byte} {reg : BitVec 3} {mask : Masking} {src1 : BitVec 5}
    {src2 : Rm 5} (h0 : p0.extractLsb' 2 2 = 0#2 ∧ p0.extractLsb' 0 2 = 2#2) (h1 : p1.getLsbD 2 = true ∧ p1.extractLsb' 0 2 = 1#2)
    (h2 : p2.getLsbD 4 = false) (hmask : mask.aaa = p2.extractLsb' 0 3 ∧ mask.z = p2.getLsbD 7)
    (hsrc1 : src1.setWidth 4 = ~~~(p1.extractLsb' 3 4) ∧ src1.getLsbD 4 = !p2.getLsbD 3) (hx : src2.bitX = !p0.getLsbD 6)
    (hb : src2.bitB = (!p0.getLsbD 5) ∨ (m == .m64 && ignoresB src2) = true)
    (hused : eqUpTo (rmIgnored src2) used (src2.bytes reg) = true) :
    eqUpTo (ignoredBits.evex m src2) (0x62#8 :: p0 :: p1 :: p2 :: 0x0B#8 :: used)
      (evexBody (p2.extractLsb' 5 2) mask (extend5 (!p0.getLsbD 4) (!p0.getLsbD 7) reg) src1 src2) = true := by
  have hP0 := evexByte0_eqUpTo (!p0.getLsbD 7) (!p0.getLsbD 6) (!p0.getLsbD 4) hb
  rw [evexByte0_of_fields h0.1 h0.2, ← hx] at hP0
  have hP1 := evexByte1_eqUpTo h1.1 h1.2
  rw [← hsrc1.1] at hP1
  have hP2 := evexByte2_of_fields h2
  rw [← hmask.1, ← hmask.2, ← hsrc1.2] at hP2
  simp only [ignoredBits.evex, evexBody, List.cons_append, List.nil_append, eqUpTo, Bool.and_eq_true, beq_iff_eq, true_and,
    getLsbD_three_extend5, getLsbD_four_extend5, setWidth_extend5, hP2]
  exact ⟨hP0, hP1, hused⟩

/-- What `L'L` selects is an instruction with the operands and the body of the EVEX form (R103). -/
theorem isBodyOf_evexInstr {m : Mode} {q : PrefixesSeen} {ll : BitVec 2} {mask : Masking} {dst src1 : BitVec 5} {src2 : Rm 5}
    {later : List Byte} (hll : ll ≠ 3#2) (hm : m.admitted = true) (hseen : q.kept.seen false = q)
    (hwf : evexWf m q.kept mask dst src1 src2 = true)
    (hbody : eqUpTo (ignoredBits.evex m src2) later (evexBody ll mask dst src1 src2) = true) :
    IsBodyOf m q (evexInstr ll q.kept mask dst src1 src2) later := by
  have hcases : ∀ l : BitVec 2, l ≠ 3#2 → l = 0#2 ∨ l = 1#2 ∨ l = 2#2 := by decide
  have hwf' : (m.admitted && evexWf m q.kept mask dst src1 src2) = true := by rw [hm, hwf]; rfl
  rcases hcases ll hll with rfl | rfl | rfl <;> exact ⟨hseen, hwf', hbody⟩

theorem ok_evexInstr (ll : BitVec 2) (p : Prefixes) (mask : Masking) (dst src1 : BitVec 5) (src2 : Rm 5) (rest : List Byte) :
    (if ll = 0#2 then .ok (.vpmulhrswXmmMasked p mask dst src1 src2, rest)
      else if ll = 1#2 then .ok (.vpmulhrswYmmMasked p mask dst src1 src2, rest)
      else .ok (.vpmulhrswZmmMasked p mask dst src1 src2, rest) : Except DecodeStop (Instr × List Byte)) =
      .ok (evexInstr ll p mask dst src1 src2, rest) := by
  unfold evexInstr
  split
  · rfl
  · split <;> rfl

theorem decodeEvex_eq_ok {m : Mode} {q : PrefixesSeen} {rex : Option Byte} {bs rest : List Byte} {i : Instr}
    (hm : m.admitted = true) (h : decodeEvex m q rex bs = .ok (i, rest)) :
    ∃ used, bs = used ++ rest ∧ IsBodyOf m q i (rex.toList ++ 0x62#8 :: used) := by
  simp only [decodeEvex, bind_eq_ok_iff, nextByte_eq_ok, Prod.exists] at h
  obtain ⟨_, hintro, p0, _, rfl, p1, _, rfl, p2, _, rfl, op, _, rfl, h⟩ := h
  obtain ⟨⟨hop, hrepne, hrep, hlock⟩, rfl, htop⟩ := vexIntro_eq_ok hintro
  split at h
  · cases h
  rename_i hopcode
  obtain rfl := not_not.1 hopcode
  simp only [bind_eq_ok_iff, Prod.exists] at h
  obtain ⟨_, hchecks, reg, rm, rest', hread, h⟩ := h
  obtain ⟨⟨h02, h12, h00, h10⟩, hll, hb4, hz, hext⟩ := evexChecks_eq_ok hchecks
  split at h
  · cases h
  rename_i hsib
  rw [Bool.not_eq_true] at hsib
  have hbits : m = .m64 ∨ ((p0.getLsbD 7 = true ∧ p0.getLsbD 6 = true) ∧
      p2.getLsbD 3 = true ∧ p0.getLsbD 5 = true ∧ p0.getLsbD 4 = true ∧ p1.getLsbD 6 = true) :=
    (mode_of_admitted hm).imp_right fun hm32 => ⟨htop hm32, hext hm32⟩
  have hXB : m = .m64 ∨ ((!p0.getLsbD 6) = false ∧ (!p0.getLsbD 5) = false) :=
    hbits.imp_right fun ⟨⟨_, h6⟩, _, h5, _⟩ => ⟨by rw [h6]; rfl, by rw [h5]; rfl⟩
  have hR : m = .m64 ∨ ((!p0.getLsbD 4) = false ∧ (!p0.getLsbD 7) = false) :=
    hbits.imp_right fun ⟨⟨h7, _⟩, _, _, h4, _⟩ => ⟨by rw [h4]; rfl, by rw [h7]; rfl⟩
  have hV : m = .m64 ∨ (p1.getLsbD 6 = true ∧ p2.getLsbD 3 = true) := hbits.imp_right fun ⟨_, hv', _, _, hv⟩ => ⟨hv, hv'⟩
  obtain ⟨used, rfl, hused, hwf, hwith⟩ := readModRm_eq_ok hXB hread
  obtain ⟨hmaskWf, hmask⟩ := maskingOf_spec hz
  obtain ⟨hx, hb⟩ := evexBits_of_read hwith hsib
  have hseen := seen_kept hlock hrepne hrep
  rw [hop] at hseen
  rw [ok_evexInstr] at h
  cases h
  refine ⟨p0 :: p1 :: p2 :: 0x0B#8 :: used, rfl, isBodyOf_evexInstr hll hm hseen ?_ ?_⟩
  · simp only [evexWf, Bool.and_eq_true]
    exact ⟨⟨⟨hmaskWf, vecWf32_extend5 reg hR⟩, vecWf32_vvvv p1 _ hV⟩, rm_wf_extendRm hwf fun r => vecWf32_extend5 r hXB⟩
  · refine eqUpTo_evexBody ⟨h02, h00⟩ ⟨h12, h10⟩ hb4 hmask (vvvv_fields ..) hx ?_
      (by rw [rmIgnored_extendRm, rm_bytes_extendRm]; exact hused)
    rcases hXB with rfl | ⟨-, hb0⟩
    · exact hb.imp_right (·.1)
    · exact .inl (hb.elim id fun hno => hno.2.trans hb0.symm)

/-! ### The opcode, REX and the prefixes -/

theorem decodeOpcode_eq_ok {m : Mode} {q : PrefixesSeen} {rex : Option Byte} {bs rest : List Byte} {i : Instr}
    (hm : m.admitted = true) (hrex : ∀ r, rex = some r → m = .m64 ∧ r.extractLsb' 4 4 = 4#4)
    (h : decodeOpcode m q rex bs = .ok (i, rest)) : ∃ used, bs = used ++ rest ∧ IsBodyOf m q i (rex.toList ++ used) := by
  simp only [decodeOpcode, bind_eq_ok_iff, nextByte_eq_ok, Prod.exists] at h
  obtain ⟨o, _, rfl, h⟩ := h
  split at h
  case isTrue ho =>
    obtain ⟨used, rfl, hbody⟩ := decodeLegacy_eq_ok hm hrex h
    exact ⟨0x0F#8 :: used, by rw [ho]; rfl, hbody⟩
  split at h
  case isTrue ho =>
    obtain ⟨used, rfl, hbody⟩ := decodeVex_eq_ok hm h
    exact ⟨0xC4#8 :: used, by rw [ho]; rfl, hbody⟩
  split at h
  case isTrue ho =>
    obtain ⟨used, rfl, hbody⟩ := decodeEvex_eq_ok hm h
    exact ⟨0x62#8 :: used, by rw [ho]; rfl, hbody⟩
  split at h <;> cases h

theorem readRex_spec (m : Mode) (bs : List Byte) :
    bs = (readRex m bs).1.toList ++ (readRex m bs).2 ∧
      ∀ r, (readRex m bs).1 = some r → m = .m64 ∧ r.extractLsb' 4 4 = 4#4 := by
  match bs with
  | [] => exact ⟨rfl, nofun⟩
  | b :: bs =>
    by_cases hrex : m = .m64 ∧ b.extractLsb' 4 4 = 4#4
    · rw [readRex, if_pos hrex]
      refine ⟨rfl, ?_⟩
      rintro _ ⟨⟩
      exact hrex
    · rw [readRex, if_neg hrex]
      exact ⟨rfl, nofun⟩

/-- The legacy prefixes of an encoding are what stands before its body. -/
theorem split_encode (i : Instr) :
    (encode i).takeWhile isLegacyPrefix = i.seen.bytes ∧ (encode i).dropWhile isLegacyPrefix = i.body := by
  have hall : ∀ b ∈ i.seen.bytes, isLegacyPrefix b = true := fun b hb => isLegacyPrefix_of_mem_seen hb
  obtain ⟨b, bs, hbody, hb⟩ := body_cons i
  rw [encode_eq, List.takeWhile_append_of_pos hall, List.dropWhile_append_of_pos hall, hbody]
  simp [hb]

theorem encode_length (i : Instr) : (encode i).length = i.ilen := by
  cases i with
  | pmulhrswMm => exact Laws.EncodeLength.pmulhrswMm ..
  | pmulhrswXmm => exact Laws.EncodeLength.pmulhrswXmm ..
  | vpmulhrswXmm => exact Laws.EncodeLength.vpmulhrswXmm ..
  | vpmulhrswYmm => exact Laws.EncodeLength.vpmulhrswYmm ..
  | vpmulhrswXmmMasked => exact Laws.EncodeLength.vpmulhrswXmmMasked ..
  | vpmulhrswYmmMasked => exact Laws.EncodeLength.vpmulhrswYmmMasked ..
  | vpmulhrswZmmMasked => exact Laws.EncodeLength.vpmulhrswZmmMasked ..

/-- Settles O42: what was read is prefixes in some order, then a body of the instruction, so the prefixes and the body of its
encoding up to order and ignored bits. -/
theorem decodedIsWellFormedAndConsumed : Obligations.DecodedIsWellFormedAndConsumed := by
  intro m bs rest i hm h
  simp only [decode_eq, bind_eq_ok_iff, Prod.exists] at h
  obtain ⟨q, afterPrefixes, hprefixes, h⟩ := h
  obtain ⟨before, rfl, hperm, -, -⟩ := readPrefixes_eq_ok hprefixes
  obtain ⟨hsplit, hrex⟩ := readRex_spec m afterPrefixes
  obtain ⟨used, hused, hseen, hwf, hbody⟩ := decodeOpcode_eq_ok hm hrex h
  obtain ⟨htake, hdrop⟩ := split_encode i
  replace hperm : before.Perm i.seen.bytes := by rw [hseen]; exact hperm
  refine ⟨hwf, before ++ ((readRex m afterPrefixes).1.toList ++ used), ?_, ?_, before, _, rfl, ?_, ?_⟩
  · rw [hused] at hsplit
    rw [List.append_assoc, List.append_assoc, ← hsplit]
  · rw [← encode_length, encode_eq, List.length_append, eqUpTo_length hbody, List.length_append, hperm.length_eq]
  · rw [htake]
    exact hperm
  · rw [hdrop]
    exact hbody

end Sys2Proof
end

section
/-! How many bytes the decoder needs at most (R106): each reader answers within a number of bytes, and the prefixes are of at most
six kinds. -/

namespace Sys2Proof

open Machine

/-! ### Reading within a number of bytes -/

/-- `x`, read from `bs`, has consumed at most `k` bytes; if it asks for more there were fewer than `k`. -/
def Within {α : Type} (k : Nat) (bs : List Byte) (x : Except DecodeStop (α × List Byte)) : Prop :=
  (∀ a rest, x = .ok (a, rest) → bs.length ≤ rest.length + k) ∧ (x = .error .more → bs.length < k)

variable {α β : Type}

theorem within_ok (k : Nat) (bs : List Byte) (a : α) : Within k bs (.ok (a, bs)) :=
  ⟨fun _ _ h => by cases h; exact Nat.le_add_right .., nofun⟩

theorem within_error (k : Nat) (bs : List Byte) {e : DecodeStop} (h : e ≠ .more) :
    Within k bs (.error e : Except DecodeStop (α × List Byte)) :=
  ⟨nofun, fun he => absurd (Except.error.inj he) h⟩

theorem within_mono {j k : Nat} {bs : List Byte} {x : Except DecodeStop (α × List Byte)} (h : Within j bs x) (hjk : j ≤ k) :
    Within k bs x :=
  ⟨fun a rest hx => (h.1 a rest hx).trans (Nat.add_le_add_left hjk _), fun hx => (h.2 hx).trans_le hjk⟩

theorem within_bind {j k : Nat} {bs : List Byte} {x : Except DecodeStop (α × List Byte)}
    {f : α × List Byte → Except DecodeStop (β × List Byte)} (hx : Within j bs x)
    (hf : ∀ a rest, Within k rest (f (a, rest))) : Within (j + k) bs (x >>= f) := by
  rcases x with e | ⟨a, rest⟩
  · exact ⟨nofun, fun he => (hx.2 (congrArg _ (Except.error.inj he))).trans_le (Nat.le_add_right ..)⟩
  · have hle := hx.1 a rest rfl
    refine ⟨fun b rest' h => ?_, fun h => ?_⟩
    · have := (hf a rest).1 b rest' h
      omega
    · have := (hf a rest).2 h
      omega

theorem length_lt_of_within {k : Nat} {bs : List Byte} {x : Except DecodeStop (α × List Byte)} (h : Within k bs x)
    (hx : x = .error .more) : bs.length < k :=
  h.2 hx

theorem within_ite {k : Nat} {bs : List Byte} {c : Prop} [Decidable c] {x y : Except DecodeStop (α × List Byte)}
    (hx : Within k bs x) (hy : Within k bs y) : Within k bs (if c then x else y) := by
  split
  · exact hx
  · exact hy

/-! ### The readers -/

theorem within_nextByte (bs : List Byte) : Within 1 bs (nextByte bs) := by
  cases bs with
  | nil => exact ⟨nofun, fun _ => Nat.one_pos⟩
  | cons b bs => exact ⟨fun _ _ h => by cases h; exact Nat.le_refl _, nofun⟩

theorem within_expectByte (b : Byte) (r : DecodeRefusal) (bs : List Byte) : Within 1 bs (expectByte b r bs) :=
  within_bind (k := 0) (within_nextByte bs) fun _ _ => within_ite (within_ok ..) (within_error _ _ nofun)

theorem within_nextLe16 (bs : List Byte) : Within 2 bs (nextLe16 bs) :=
  within_bind (k := 1) (within_nextByte bs) fun _ rest => within_bind (k := 0) (within_nextByte rest) fun _ _ => within_ok ..

theorem within_nextLe32 (bs : List Byte) : Within 4 bs (nextLe32 bs) :=
  within_bind (k := 2) (within_nextLe16 bs) fun _ rest => within_bind (k := 0) (within_nextLe16 rest) fun _ _ => within_ok ..

theorem within_readDisp (md : BitVec 2) (bs : List Byte) : Within 4 bs (readDisp md bs) :=
  within_ite (within_mono (within_bind (k := 0) (within_nextByte bs) fun _ _ => within_ok ..) (by decide))
    (within_ite (within_bind (k := 0) (within_nextLe32 bs) fun _ _ => within_ok ..) (within_ok ..))

theorem within_readDisp16 (md : BitVec 2) (bs : List Byte) : Within 2 bs (readDisp16 md bs) :=
  within_ite (within_mono (within_bind (k := 0) (within_nextByte bs) fun _ _ => within_ok ..) (by decide))
    (within_ite (within_bind (k := 0) (within_nextLe16 bs) fun _ _ => within_ok ..) (within_ok ..))

theorem within_readMem (x b : Bool) (md : BitVec 2) (rm : BitVec 3) (bs : List Byte) : Within 5 bs (readMem x b md rm bs) := by
  have hdisp32 : ∀ (rest : List Byte) (f : BitVec 32 → MemAddr),
      Within 4 rest (nextLe32 rest >>= fun r => .ok (f r.1, r.2)) := fun rest _ =>
    within_bind (k := 0) (within_nextLe32 rest) fun _ _ => within_ok ..
  have hdisp : ∀ (rest : List Byte) (f : Disp → MemAddr),
      Within 4 rest (readDisp md rest >>= fun r => .ok (f r.1, r.2)) := fun rest _ =>
    within_bind (k := 0) (within_readDisp md rest) fun _ _ => within_ok ..
  exact within_ite (within_bind (k := 4) (within_nextByte bs) fun _ rest => within_ite (hdisp32 rest _) (hdisp rest _))
    (within_mono (within_ite (hdisp32 bs _) (hdisp bs _)) (by decide))

theorem within_readMem16 (md : BitVec 2) (rm : BitVec 3) (bs : List Byte) : Within 2 bs (readMem16 md rm bs) :=
  within_ite (within_bind (k := 0) (within_nextLe16 bs) fun _ _ => within_ok ..)
    (within_bind (k := 0) (within_readDisp16 md bs) fun _ _ => within_ok ..)

/-- ModRM, SIB and displacement take at most six bytes. -/
theorem within_readModRm (m : Mode) (p : Prefixes) (x b : Bool) (bs : List Byte) : Within 6 bs (readModRm m p x b bs) :=
  within_bind (k := 5) (within_nextByte bs) fun _ rest => within_ite (within_ok ..) (within_ite
    (within_mono (within_bind (k := 0) (within_readMem16 _ _ rest) fun _ _ => within_ok ..) (by decide))
    (within_bind (k := 0) (within_readMem _ _ _ _ rest) fun _ _ => within_ok ..))

/-! ### The encodings -/

theorem seen_bytes_length (q : PrefixesSeen) :
    q.bytes.length = q.seg.isSome.toNat + q.addrSize.toNat + q.opSize.toNat + q.lock.toNat + q.repne.toNat + q.rep.toNat := by
  have hopt : ∀ (present : Bool) (b : Byte), (optByte present b).length = present.toNat := fun present b => by
    cases present <;> rfl
  have hseg : (q.seg.map Seg.prefixByte).toList.length = q.seg.isSome.toNat := by
    cases q.seg <;> rfl
  simp only [PrefixesSeen.bytes, prefixes_bytes_eq, PrefixesSeen.kept, List.length_append, hopt, hseg]

theorem seen_bytes_length_le (q : PrefixesSeen) : q.bytes.length ≤ 6 := by
  have := seen_bytes_length q
  have := q.seg.isSome.toNat_le
  have := q.addrSize.toNat_le
  have := q.opSize.toNat_le
  have := q.lock.toNat_le
  have := q.repne.toNat_le
  have := q.rep.toNat_le
  omega

/-- Forms 1 and 2: LOCK and the repeat prefixes decide as soon as the opcode is read. -/
theorem decodeLegacy_eq_more {m : Mode} {q : PrefixesSeen} {rex : Option Byte} {bs : List Byte}
    (h : decodeLegacy m q rex bs = .error .more) : q.bytes.length + bs.length < 12 := by
  have hle := seen_bytes_length_le q
  by_cases hbad : (q.lock || (q.repne || q.rep)) = true
  · have hwithin : Within 2 bs (decodeLegacy m q rex bs) := by
      refine within_bind (k := 1) (within_expectByte ..) fun _ rest => within_bind (k := 0) (within_expectByte ..) fun _ rest' => ?_
      rcases (Bool.or_eq_true ..).mp hbad with hlock | hrepeat
      · dsimp only
        rw [if_pos hlock]
        exact within_error _ _ nofun
      · dsimp only
        rw [if_pos hrepeat]
        exact within_ite (within_error _ _ nofun) (within_error _ _ nofun)
    have := hwithin.2 h
    omega
  · have hwithin : Within 8 bs (decodeLegacy m q rex bs) := by
      refine within_bind (k := 7) (within_expectByte ..) fun _ rest =>
        within_bind (k := 6) (within_expectByte ..) fun _ rest' => ?_
      refine within_ite (within_error _ _ nofun) (within_ite (within_error _ _ nofun) (within_ite (within_error _ _ nofun) ?_))
      exact within_bind (k := 0) (within_readModRm ..) fun _ _ =>
        within_ite (within_ok ..) (within_ite (within_error _ _ nofun) (within_ok ..))
    have := hwithin.2 h
    have hlen := seen_bytes_length q
    simp only [Bool.not_eq_true, Bool.or_eq_false_iff] at hbad
    obtain ⟨hlock, hrepne, hrep⟩ := hbad
    rw [hlock, hrepne, hrep] at hlen
    have := q.seg.isSome.toNat_le
    have := q.addrSize.toNat_le
    have := q.opSize.toNat_le
    simp only [Bool.toNat_false] at hlen
    omega

/-- Before VEX and EVEX only the prefixes that are kept leave the rest to be read. -/
theorem vexIntro_eq_more {m : Mode} {other : DecodeRefusal} {q : PrefixesSeen} {rex : Option Byte} {bs : List Byte}
    (h : vexIntro m other q rex bs = .error .more) : bs = [] := by
  cases bs with
  | nil => rfl
  | cons b bs =>
    simp only [vexIntro, bind_eq_error_iff, vexByteInM32] at h
    rcases h with h | ⟨_, -, h⟩
    · split at h
      · split at h <;> cases h
      · cases h
    · split at h <;> cases h

theorem prefixes_of_vexIntro {m : Mode} {other : DecodeRefusal} {q : PrefixesSeen} {rex : Option Byte} {bs : List Byte} {u : Unit}
    (h : vexIntro m other q rex bs = .ok u) : q.bytes.length ≤ 2 ∧ rex = none := by
  simp only [vexIntro, bind_eq_ok_iff] at h
  obtain ⟨_, -, h⟩ := h
  split at h
  · cases h
  · rename_i hbad
    simp only [PrefixesSeen.badBeforeVex, Bool.not_eq_true, Bool.or_eq_false_iff, Option.isSome_eq_false_iff,
      Option.isNone_iff_eq_none] at hbad
    obtain ⟨⟨⟨⟨hop, hrepne⟩, hrep⟩, hlock⟩, hrex⟩ := hbad
    have hlen := seen_bytes_length q
    rw [hop, hrepne, hrep, hlock] at hlen
    have := q.seg.isSome.toNat_le
    have := q.addrSize.toNat_le
    simp only [Bool.toNat_false] at hlen
    exact ⟨by omega, hrex⟩

theorem decodeVex_eq_more {m : Mode} {q : PrefixesSeen} {rex : Option Byte} {bs : List Byte}
    (h : decodeVex m q rex bs = .error .more) : bs = [] ∨ (q.bytes.length ≤ 2 ∧ rex = none ∧ bs.length < 9) := by
  rw [decodeVex, bind_eq_error_iff] at h
  rcases h with h | ⟨_, hintro, h⟩
  · exact .inl (vexIntro_eq_more h)
  · obtain ⟨hlen, hrex⟩ := prefixes_of_vexIntro hintro
    refine .inr ⟨hlen, hrex, length_lt_of_within ?_ h⟩
    refine within_bind (k := 8) (within_nextByte _) fun _ _ => within_bind (k := 7) (within_nextByte _) fun _ _ =>
      within_bind (k := 6) (within_nextByte _) fun _ _ => ?_
    exact within_ite (within_error _ _ nofun) (within_ite (within_error _ _ nofun)
      (within_bind (k := 0) (within_readModRm ..) fun _ _ => within_ite (within_ok ..) (within_ok ..)))

theorem evexChecks_ne_more (m : Mode) (p0 p1 p2 : Byte) : evexChecks m p0 p1 p2 ≠ .error .more := by
  unfold evexChecks
  repeat (split; · exact nofun)
  exact nofun

theorem decodeEvex_eq_more {m : Mode} {q : PrefixesSeen} {rex : Option Byte} {bs : List Byte}
    (h : decodeEvex m q rex bs = .error .more) : bs = [] ∨ (q.bytes.length ≤ 2 ∧ rex = none ∧ bs.length < 10) := by
  rw [decodeEvex, bind_eq_error_iff] at h
  rcases h with h | ⟨_, hintro, h⟩
  · exact .inl (vexIntro_eq_more h)
  · obtain ⟨hlen, hrex⟩ := prefixes_of_vexIntro hintro
    refine .inr ⟨hlen, hrex, length_lt_of_within ?_ h⟩
    refine within_bind (k := 9) (within_nextByte _) fun p0 _ => within_bind (k := 8) (within_nextByte _) fun p1 _ =>
      within_bind (k := 7) (within_nextByte _) fun p2 _ => within_bind (k := 6) (within_nextByte _) fun _ rest => ?_
    refine within_ite (within_error _ _ nofun) ?_
    cases hchecks : evexChecks m p0 p1 p2 with
    | error e => exact within_error _ _ fun he => evexChecks_ne_more m p0 p1 p2 (he ▸ hchecks)
    | ok u =>
      exact within_bind (k := 0) (within_readModRm ..) fun _ _ => within_ite (within_error _ _ nofun)
        (within_ite (within_ok ..) (within_ite (within_ok ..) (within_ok ..)))

/-! ### All encodings -/

theorem decodeOpcode_eq_more {m : Mode} {q : PrefixesSeen} {rex : Option Byte} {bs : List Byte}
    (h : decodeOpcode m q rex bs = .error .more) : q.bytes.length + rex.toList.length + bs.length < 15 := by
  have hq := seen_bytes_length_le q
  have hrex : rex.toList.length ≤ 1 := by cases rex <;> simp
  rw [decodeOpcode, bind_eq_error_iff] at h
  rcases h with h | ⟨⟨o, rest⟩, hbyte, h⟩
  · have := (within_nextByte bs).2 h
    omega
  · obtain rfl := nextByte_eq_ok.1 hbyte
    dsimp only at h
    rw [List.length_cons]
    split at h
    · have := decodeLegacy_eq_more h
      omega
    · split at h
      · rcases decodeVex_eq_more h with rfl | ⟨hq2, rfl, hlen⟩ <;> simp only [Option.toList_none, List.length_nil] at * <;> omega
      · split at h
        · rcases decodeEvex_eq_more h with rfl | ⟨hq2, rfl, hlen⟩ <;> simp only [Option.toList_none, List.length_nil] at * <;>
            omega
        · split at h <;> cases h

/-- Settles O43, from the number of bytes each part of an encoding needs at most. -/
theorem fifteenBytesDecide : Obligations.FifteenBytesDecide := by
  intro m bs hlen h
  rw [decode_eq, bind_eq_error_iff] at h
  rcases h with h | ⟨⟨q, rest⟩, hprefixes, h⟩
  · obtain ⟨q, hperm⟩ := readPrefixes_eq_more h
    have hle := hperm.length_eq ▸ seen_bytes_length_le q
    rw [List.length_append] at hle
    omega
  · obtain ⟨before, rfl, hperm, -, -⟩ := readPrefixes_eq_ok hprefixes
    have hbefore : before.length = q.bytes.length := hperm.length_eq
    have hsplit := congrArg List.length (readRex_spec m rest).1
    have hmore : q.bytes.length + (readRex m rest).1.toList.length + (readRex m rest).2.length < 15 := decodeOpcode_eq_more h
    rw [List.length_append] at hsplit hlen
    omega

end Sys2Proof
end

section
/-! Fetching: what stands in the window of bytes the decoder reads from `pc` on, and what the step does with the decoder's answer
(R107, R198). -/

namespace Sys2Proof

open Machine

/-! ### The step and the decoder's answer -/

theorem fetchInstr_of_ok {s : State} {i : Instr} {rest : List Byte}
    (h : decode s.mode (s.fetchWindow maxIlen s.pc).1 = .ok (i, rest)) : s.fetchInstr = .ok i := by
  simp only [State.fetchInstr, h]

theorem fetchInstr_of_ud {s : State} (h : decode s.mode (s.fetchWindow maxIlen s.pc).1 = .error .ud) :
    s.fetchInstr = raise s .ud := by
  simp only [State.fetchInstr, h]

theorem fetchInstr_of_refuse {s : State} {r : DecodeRefusal}
    (h : decode s.mode (s.fetchWindow maxIlen s.pc).1 = .error (.refuse r)) :
    s.fetchInstr = refuse (.notOneOfTheForms r) := by
  simp only [State.fetchInstr, h]

theorem fetchInstr_of_more {s : State} {e : Exception} (h : decode s.mode (s.fetchWindow maxIlen s.pc).1 = .error .more)
    (he : (s.fetchWindow maxIlen s.pc).2 = some e) : s.fetchInstr = raise s e := by
  simp only [State.fetchInstr, h, he, Option.getD_some]

/-- A fetched instruction is what the window decodes to. -/
theorem decode_of_fetchInstr {s : State} {i : Instr} (h : s.fetchInstr = .ok i) :
    ∃ rest, decode s.mode (s.fetchWindow maxIlen s.pc).1 = .ok (i, rest) := by
  simp only [State.fetchInstr] at h
  split at h
  · rename_i hdecode
    cases h
    exact ⟨_, hdecode⟩
  all_goals cases h

/-- Settles O50, from the fetch of each of the decoder's answers. -/
theorem stepRunsTheDecodedInstr : Obligations.StepRunsTheDecodedInstr := by
  intro s hm
  have hadm := admitted_of_modeOk hm
  refine ⟨fun i rest h => step_of_fetch hadm (fetchInstr_of_ok h), fun h => step_of_fetch_error hadm (fetchInstr_of_ud h),
    fun r h => step_of_fetch_error hadm (fetchInstr_of_refuse h),
    fun e h he => step_of_fetch_error hadm (fetchInstr_of_more h he)⟩

/-! ### Addresses of the window -/

theorem wrapAddr_add_wrapAddr (s : State) (a b : Word) : s.wrapAddr (a + s.wrapAddr b) = s.wrapAddr (a + b) := by
  unfold State.wrapAddr
  split
  · apply BitVec.eq_of_toNat_eq
    simp only [BitVec.toNat_setWidth, BitVec.toNat_add]
    omega
  · rfl

theorem wrapAddr_wrapAddr_add (s : State) (a b : Word) : s.wrapAddr (s.wrapAddr a + b) = s.wrapAddr (a + b) := by
  rw [BitVec.add_comm, wrapAddr_add_wrapAddr, BitVec.add_comm]

theorem fetchAddr_wrapAddr (s : State) (a : Word) : s.fetchAddr (s.wrapAddr a) = s.fetchAddr a :=
  wrapAddr_add_wrapAddr s _ a

/-- The window does not depend on how its first offset is written. -/
theorem fetchWindow_wrapAddr (s : State) (n : Nat) (a : Word) : s.fetchWindow n (s.wrapAddr a) = s.fetchWindow n a := by
  cases n with
  | zero => rfl
  | succ n => rw [State.fetchWindow, State.fetchWindow, fetchAddr_wrapAddr, wrapAddr_wrapAddr_add]

theorem fetchWindow_of_fault {s : State} {a : Word} {e : Exception} (n : Nat)
    (h : s.memFault .cs (s.fetchAddr a) 1 .fetch = some e) : s.fetchWindow (n + 1) a = ([], some e) := by
  rw [State.fetchWindow, h]

theorem fetchWindow_of_none {s : State} {a : Word} (n : Nat) (h : s.memFault .cs (s.fetchAddr a) 1 .fetch = none) :
    s.fetchWindow (n + 1) a =
      (s.mem.read (s.fetchAddr a).toNat :: (s.fetchWindow n (a + 1)).1, (s.fetchWindow n (a + 1)).2) := by
  rw [State.fetchWindow, h, fetchWindow_wrapAddr]

/-- The first `k` bytes that may be fetched stand in the window, and what is after them. -/
theorem fetchWindow_append {s : State} {k : Nat} (n : Nat) {a : Word}
    (h : ∀ j < k, s.memFault .cs (s.fetchAddr (a + BitVec.ofNat 64 j)) 1 .fetch = none) :
    s.fetchWindow (k + n) a =
      ((List.range k).map (fun j => s.mem.read (s.fetchAddr (a + BitVec.ofNat 64 j)).toNat) ++
        (s.fetchWindow n (a + BitVec.ofNat 64 k)).1, (s.fetchWindow n (a + BitVec.ofNat 64 k)).2) := by
  induction k generalizing a with
  | zero => simp
  | succ k ih =>
    have hnext : ∀ j : Nat, a + 1 + BitVec.ofNat 64 j = a + BitVec.ofNat 64 (j + 1) := fun j => by
      rw [BitVec.add_assoc, BitVec.ofNat_add, BitVec.add_comm 1]
      rfl
    have hzero : a + BitVec.ofNat 64 0 = a := BitVec.add_zero a
    have hfirst := h 0 k.succ_pos
    rw [hzero] at hfirst
    have hrest := ih (a := a + 1) fun j hj => by
      rw [hnext]
      exact h (j + 1) (Nat.succ_lt_succ hj)
    rw [Nat.succ_add, fetchWindow_of_none _ hfirst, hrest, List.range_succ_eq_map, List.map_cons, List.map_map]
    simp only [hnext, hzero, List.cons_append, Function.comp_def]

theorem fetchAddr_pc_add (s : State) (k : Nat) : s.fetchAddr (s.pc + BitVec.ofNat 64 k) = codeAddr s k := rfl

/-! ### An encoding in memory -/

theorem ilen_bounds (i : Instr) : 4 ≤ i.ilen ∧ i.ilen ≤ 13 := by
  cases i with
  | pmulhrswMm => exact Laws.IlenRange.pmulhrswMm ..
  | pmulhrswXmm => exact Laws.IlenRange.pmulhrswXmm ..
  | vpmulhrswXmm => exact Laws.IlenRange.vpmulhrswXmm ..
  | vpmulhrswYmm => exact Laws.IlenRange.vpmulhrswYmm ..
  | vpmulhrswXmmMasked => exact Laws.IlenRange.vpmulhrswXmmMasked ..
  | vpmulhrswYmmMasked => exact Laws.IlenRange.vpmulhrswYmmMasked ..
  | vpmulhrswZmmMasked => exact Laws.IlenRange.vpmulhrswZmmMasked ..

theorem admitted_of_wf {m : Mode} {i : Instr} (h : i.wf m = true) : m.admitted = true := by
  cases i <;> simp only [Instr.wf, Bool.and_eq_true] at h <;> tauto

/-- The window begins with an encoding that stands at `pc`. -/
theorem fetchWindow_of_codeAt {s : State} {i : Instr} (h : CodeAt s i) :
    ∃ rest, (s.fetchWindow maxIlen s.pc).1 = encode i ++ rest := by
  have hlen : (encode i).length ≤ maxIlen := by
    rw [encode_length]
    exact (ilen_bounds i).2.trans (by decide)
  have hwindow := fetchWindow_append (maxIlen - (encode i).length) (a := s.pc) fun j hj => (h j hj).1
  have hbytes : (List.range (encode i).length).map (fun j => s.mem.read (codeAddr s j).toNat) = encode i := by
    refine List.ext_getElem (by simp) fun j hj hj' => ?_
    rw [List.getElem_map, List.getElem_range]
    exact (h j hj').2
  rw [Nat.add_sub_cancel' hlen] at hwindow
  simp only [fetchAddr_pc_add, hbytes] at hwindow
  exact ⟨_, congrArg Prod.fst hwindow⟩

/-- Settles O51: the window begins with the encoding, which decodes whatever follows it (O41). -/
theorem stepRunsTheEncodedInstr : Obligations.StepRunsTheEncodedInstr := by
  intro s i hwf hcode
  obtain ⟨rest, hwindow⟩ := fetchWindow_of_codeAt hcode
  refine step_of_fetch (admitted_of_wf hwf) (fetchInstr_of_ok (rest := rest) ?_)
  rw [hwindow]
  exact decodeOfEncode s.mode i rest hwf

/-! ### A byte that cannot be fetched -/

/-- The window ends at the first byte that cannot be fetched. -/
theorem fetchWindow_of_fault_at {s : State} {e : Exception} {k : Nat} (hk : k < maxIlen)
    (hbefore : ∀ j < k, s.memFault .cs (codeAddr s j) 1 .fetch = none)
    (hfault : s.memFault .cs (codeAddr s k) 1 .fetch = some e) :
    s.fetchWindow maxIlen s.pc = ((List.range k).map (fun j => s.mem.read (codeAddr s j).toNat), some e) := by
  obtain ⟨n, hn⟩ : ∃ n, maxIlen = k + (n + 1) := ⟨maxIlen - k - 1, by omega⟩
  rw [hn, fetchWindow_append (n + 1) hbefore, fetchWindow_of_fault n hfault, List.append_nil]
  rfl

/-- Settles O52: the decoder asks for the byte at which the window ends. -/
theorem fetchFaultComesFirst : Obligations.FetchFaultComesFirst := by
  have hstep : ∀ (s : State) (e : Exception) (k : Nat), ModeOk s → k < 15 →
      (∀ j < k, s.memFault .cs (codeAddr s j) 1 .fetch = none) →
      decode s.mode ((List.range k).map fun j => s.mem.read (codeAddr s j).toNat) = .error .more →
      s.memFault .cs (codeAddr s k) 1 .fetch = some e → step s = .fault (s.takeException e) := by
    intro s e k hm hk hbefore hmore hfault
    have hwindow := fetchWindow_of_fault_at hk hbefore hfault
    refine step_of_fetch_error (admitted_of_modeOk hm) (fetchInstr_of_more ?_ ?_) <;> rw [hwindow]
    exact hmore
  exact ⟨fun s e hm hfault => hstep s e 0 hm (by decide) nofun rfl hfault, hstep⟩

end Sys2Proof
end

section
/-! Whole steps and runs: `pc` and frame of a step, the invariant, and what a successful run leaves as launched
(`10_state.md` section 10, `70_reset_and_hazards.md` section 5). -/

namespace Sys2Proof

open Machine

/-! ### The instruction of a step -/

/-- A step that completes ran a well-formed instruction (O42). -/
theorem wf_of_step {s t : State} (h : step s = .next t) : ∃ i : Instr, i.wf s.mode = true ∧ exec i s = .next t := by
  obtain ⟨hm, i, hfetch, hexec⟩ := step_eq_next h
  obtain ⟨rest, hdecode⟩ := decode_of_fetchInstr hfetch
  exact ⟨i, (decodedIsWellFormedAndConsumed _ _ _ _ hm hdecode).1, hexec⟩

/-- Settles O53, from the instruction of the step. -/
theorem stepAdvancesPcByLength : Obligations.StepAdvancesPcByLength := by
  intro s t h
  obtain ⟨i, hwf, hexec⟩ := wf_of_step h
  obtain ⟨y, -, ht⟩ := next_eq_written hexec
  exact ⟨i, hwf, hexec, by rw [ht, State.setPc_pc], ilen_bounds i⟩

/-- Settles O54, from the frame of an instruction. -/
theorem stepChangesOneRegister : Obligations.StepChangesOneRegister := by
  intro s t h
  obtain ⟨i, -, hexec⟩ := wf_of_step h
  rcases exec_frame hexec with ⟨d, hsystem, hmm, hx87, hvec⟩ | ⟨d, hsystem, hv, hmm⟩
  · exact ⟨hsystem, .inl ⟨hmm, hx87, d, hvec⟩⟩
  · exact ⟨hsystem, .inr ⟨hv, d, hmm⟩⟩

/-! ### Runs -/

theorem sameSystem_trans {s t u : State} (h : SameSystem s t) (h' : SameSystem t u) : SameSystem s u := by
  obtain ⟨h1, h2, h3, h4, h5, h6, h7, h8, h9, h10, h11, h12, hmem⟩ := h
  obtain ⟨k1, k2, k3, k4, k5, k6, k7, k8, k9, k10, k11, k12, kmem⟩ := h'
  exact ⟨k1.trans h1, k2.trans h2, k3.trans h3, k4.trans h4, k5.trans h5, k6.trans h6, k7.trans h7, k8.trans h8, k9.trans h9,
    k10.trans h10, k11.trans h11, k12.trans h12, fun a => (kmem a).trans (hmem a)⟩

/-- Settles O57, by induction on the number of steps. -/
theorem successfulRunChangesNoMemory : Obligations.SuccessfulRunChangesNoMemory := by
  intro pcEnd n
  induction n with
  | zero =>
    intro s t h
    rw [runTo] at h
    cases h
  | succ n ih =>
    intro s t h
    rw [runTo] at h
    split at h
    · rename_i u hstep
      have hsystem := (stepChangesOneRegister s u hstep).1
      split at h
      · cases h
        exact ⟨hsystem, ‹_›⟩
      · obtain ⟨hrest, hpc⟩ := ih u t h
        exact ⟨sameSystem_trans hsystem hrest, hpc⟩
    all_goals cases h

/-! ### The invariant of the vector registers -/

/-- A value that vector register `d` may hold (R4, R20). -/
def MayHold (s : State) (d : BitVec 5) (x : VReg) : Prop :=
  x.toNat < 2 ^ maxvlBits s.cfg.maxvl ∧ (s.cfg.maxvl ≠ .v512 → 16 ≤ d.toNat → x = 0)

theorem vectorsExist_setVec {s : State} {d : BitVec 5} {x : VReg} (h : VectorsExist s) (hx : MayHold s d x) :
    VectorsExist (s.setVec d x) := by
  intro i
  by_cases hi : d = i
  · rw [← hi, State.vec_setVec_same]
    exact hx
  · rw [State.vec_setVec_of_ne s hi]
    exact h i

/-- A register that exists may hold what is no wider than `MAXVL`, zeros above. -/
theorem mayHold_setWidth {s : State} {d : BitVec 5} {w : Nat} (x : BitVec w) (hw : w ≤ maxvlBits s.cfg.maxvl)
    (hd : s.cfg.maxvl = .v512 ∨ d.toNat < 16) : MayHold s d (x.setWidth 512) := by
  refine ⟨?_, fun hne h16 => ?_⟩
  · rw [BitVec.toNat_setWidth]
    calc x.toNat % 2 ^ 512 ≤ x.toNat := Nat.mod_le ..
      _ < 2 ^ w := x.isLt
      _ ≤ 2 ^ maxvlBits s.cfg.maxvl := Nat.pow_le_pow_right Nat.two_pos hw
  · exact absurd h16 (Nat.not_le.2 (hd.resolve_left hne))

/-- The low 128 bits of a register may be replaced: `MAXVL` is never less. -/
theorem mayHold_keepUpper {s : State} {d : BitVec 5} {v : VReg} (x : BitVec 128) (hv : v.toNat < 2 ^ maxvlBits s.cfg.maxvl)
    (hd : d.toNat < 16) : MayHold s d (v.extractLsb' 128 384 ++ x) := by
  have hmaxvl : 128 ≤ maxvlBits s.cfg.maxvl := by cases s.cfg.maxvl <;> decide
  refine ⟨Nat.lt_pow_two_of_testBit _ fun i hi => ?_, fun _ h16 => absurd h16 (Nat.not_le.2 hd)⟩
  have hbit : v.getLsbD i = false := Nat.testBit_lt_two_pow (hv.trans_le (Nat.pow_le_pow_right Nat.two_pos hi))
  have hlow : ¬i < 128 := Nat.not_lt.2 (hmaxvl.trans hi)
  rw [BitVec.testBit_toNat, BitVec.getLsbD_append, if_neg hlow, BitVec.getLsbD_extractLsb',
    Nat.add_sub_cancel' (Nat.not_lt.1 hlow), hbit, Bool.and_false]

theorem lt_16_of_vecWf16 {m : Mode} {r : BitVec 5} (h : vecWf16 m r = true) : r.toNat < 16 := by
  unfold vecWf16 at h
  split at h
  · exact of_decide_eq_true h
  · exact (of_decide_eq_true h).trans (by decide)

/-- A ready form is no wider than the processor's registers. -/
theorem formVl_le_maxvlBits {s : State} {f : Form} (h : FormReady s f) : formVl f ≤ maxvlBits s.cfg.maxvl := by
  obtain ⟨-, henabled, -, -⟩ := h
  cases f with
  | f1 | f2 | f3 => cases s.cfg.maxvl <;> decide
  | f4 =>
    obtain ⟨-, hmaxvl, -⟩ := henabled
    revert hmaxvl
    cases s.cfg.maxvl <;> decide
  | f5 | f6 =>
    obtain ⟨-, -, -, hmaxvl, -⟩ := henabled
    rw [hmaxvl]
    decide
  | f7 =>
    obtain ⟨-, -, hmaxvl, -⟩ := henabled
    rw [hmaxvl]
    decide

/-- The write of a well-formed instruction that is ready keeps the vector registers within `MAXVL`. -/
theorem vectorsExist_written {s : State} {i : Instr} (y : BitVec (formVl i.form)) (hwf : i.wf s.mode = true)
    (hready : FormReady s i.form) (h : VectorsExist s) : VectorsExist (written s i y) := by
  have hvl := formVl_le_maxvlBits hready
  obtain ⟨-, henabled, -, -⟩ := hready
  cases i <;> simp only [Instr.wf, vexWf, Bool.and_eq_true] at hwf
  case pmulhrswMm => exact h
  case pmulhrswXmm p rex dst src =>
    obtain ⟨⟨-, hdst⟩, -⟩ := hwf
    exact vectorsExist_setVec h (mayHold_keepUpper _ (h dst).1 (lt_16_of_vecWf16 hdst))
  case vpmulhrswXmm | vpmulhrswYmm =>
    obtain ⟨-, ⟨hdst, -⟩, -⟩ := hwf
    exact vectorsExist_setVec h (mayHold_setWidth _ hvl (.inr (lt_16_of_vecWf16 hdst)))
  case vpmulhrswXmmMasked | vpmulhrswYmmMasked =>
    obtain ⟨-, -, -, hmaxvl, -⟩ := henabled
    exact vectorsExist_setVec h (mayHold_setWidth _ hvl (.inl hmaxvl))
  case vpmulhrswZmmMasked =>
    obtain ⟨-, -, hmaxvl, -⟩ := henabled
    exact vectorsExist_setVec h (mayHold_setWidth _ hvl (.inl hmaxvl))

/-! ### The invariant of memory and `pc` -/

@[simp] theorem written_mem (s : State) (i : Instr) (y : BitVec (formVl i.form)) : (written s i y).mem = s.mem := by
  cases i <;> rfl

theorem wrapAddr_lt_of_m32 {s : State} (hm : s.mode = .m32) (a : Word) : (s.wrapAddr a).toNat < 2 ^ 32 := by
  rw [State.wrapAddr, if_pos hm, BitVec.toNat_setWidth, BitVec.toNat_setWidth]
  omega

/-- An advance that is not refused leads to a legal `pc` (R27, R28). -/
theorem pcLegal_of_advance {s t : State} {n : Nat} (h : s.advance n = .ok t) : PcLegal t := by
  obtain ⟨hok, rfl⟩ := advance_eq_ok.1 h
  refine ⟨fun hm => wrapAddr_lt_of_m32 hm _, fun hm => ?_⟩
  rw [← Bool.not_eq_false]
  exact fun hc => hok ⟨hm, .inr hc⟩

/-- Settles O55: memory is not written, the registers stay within `MAXVL`, and `pc` is only advanced to a legal address. -/
theorem stepKeepsInvariant : Obligations.StepKeepsInvariant := by
  rintro s t ⟨hmem, hvectors, -⟩ h
  obtain ⟨i, hwf, hexec⟩ := wf_of_step h
  obtain ⟨hready, y, -, hadvance⟩ := exec_eq_next.1 hexec
  have hwritten := vectorsExist_written y hwf hready hvectors
  have hpc := pcLegal_of_advance hadvance
  obtain ⟨-, rfl⟩ := advance_eq_ok.1 hadvance
  exact ⟨(congrArg (Memory.wf · = true) (written_mem s i y)).mpr hmem, hwritten, hpc⟩

end Sys2Proof
end
